-- ==== Sys2Proof/Word.lean ====
section
/-! DEFINITION. The engine's word types: the 32-bit bus and register word, the byte of memory, the ARGB pixel of
`00_scope.md` R12 and the quadrant number of R13. -/

namespace Sys2Proof

/-- A register value or bus word (R10: "All register values and bus words are unsigned 32-bit"). -/
abbrev Word := BitVec 32

/-- One byte of the memory space (R60), or one 8-bit channel of a pixel (R10). -/
abbrev Byte := BitVec 8

/-- A quadrant number: TL = 0, TR = 1, BL = 2, BR = 3 (R13). -/
abbrev Quad := Fin 4

/-- A pixel value: "a 4-tuple `(a, r, g, b)` of 8-bit unsigned channels" (R12). -/
structure Pixel where
  a : Byte
  r : Byte
  g : Byte
  b : Byte
deriving DecidableEq, Repr

/-- "`BLACK` is the pixel `(a=255, r=0, g=0, b=0)`" (R12). -/
def Pixel.black : Pixel := ⟨255, 0, 0, 0⟩

end Sys2Proof
end

