-- ==== Sys2Proof/Syntax.lean ====
section
/-! DEFINITION. The commands of the engine (`30_encoding.md` R88), the kinds of illegal command word (R90), a row of
the opcode table (R89), and the assembler lines of R93 and R94. -/

namespace Sys2Proof

/-- The four commands, one constructor per row of the opcode table. `present` is the PRESENT field of the command word
(R87): bit i of it says that quadrant i is present. SPLIT has no operand field: its PRESENT must be 0 (R88). -/
inductive Instr where
  | split
  | reconExact (present : BitVec 4)
  | reconHeur (present : BitVec 4)
  | reconInpaint (present : BitVec 4)
deriving DecidableEq, Repr

/-- The four kinds of word that R90 lists as illegal encodings. -/
inductive Illegal where
  /-- OP = 0x0. -/
  | opZero
  /-- OP in 0x5-0xF. -/
  | opReserved
  /-- RSVD (bits [31:8]) is not 0. -/
  | rsvdNonZero
  /-- SPLIT with PRESENT not 0. -/
  | splitPresent
deriving DecidableEq, Repr

/-- One row of the decoding table of R89: a word `w` fits the row when `w & mask == mat`. -/
structure OpcodeRow where
  mnemonic : String
  mat : Word
  mask : Word
  make : BitVec 4 → Instr

/-- The operand of `p=` in the assembler (R93): a binary literal, or a brace list of quadrant names. -/
inductive MaskLit where
  | bits (m : Nat)
  | names (qs : List Quad)
deriving DecidableEq, Repr

/-- An assembler line (R93); `none` is a line written without `p=`. -/
inductive AsmLine where
  | split (p : Option MaskLit)
  | reconExact (p : Option MaskLit)
  | reconHeur (p : Option MaskLit)
  | reconInpaint (p : Option MaskLit)
  | word (v : Word)
deriving DecidableEq, Repr

end Sys2Proof
end

