-- ==== Sys2Proof/WellFormed.lean ====
section
/-! DEFINITION. What a well-formed command and a well-formed assembler line are. Every field of a command has its
exact width as its type, so a command has no check of its own; the checks that the spec names are the assembler's
(`30_encoding.md` R93, R94). -/

namespace Sys2Proof

/-- The value of a mask operand: a literal as written, or the sum of the named quadrants' bits (R93). -/
def MaskLit.value : MaskLit → Nat
  | .bits m => m
  | .names qs => ((List.range 4).filter fun i => qs.any (·.val == i)).foldl (fun acc i => acc + 2 ^ i) 0

/-- A mask operand fits the PRESENT field: "The assembler rejects M > 0b1111" (R93). -/
def MaskLit.wellFormed (m : MaskLit) : Bool := decide (m.value ≤ 15)

/-- Every `Instr` is well formed: PRESENT has its four bits by type, and SPLIT carries no PRESENT (R86, R88). -/
def Instr.wellFormed : Instr → Bool
  | .split => true
  | .reconExact _ => true
  | .reconHeur _ => true
  | .reconInpaint _ => true

/-- What the assembler accepts (R93, R94): no `p=` on `split`; a mask of at most 0b1111; `p=` left out only on
`recon.exact`; any word after `.word`. -/
def AsmLine.wellFormed : AsmLine → Bool
  | .split p => p.isNone
  | .reconExact p => p.all MaskLit.wellFormed
  | .reconHeur p => p.any MaskLit.wellFormed
  | .reconInpaint p => p.any MaskLit.wellFormed
  | .word _ => true

end Sys2Proof
end

