-- ==== Sys2Proof/Decode.lean ====
section
/-! DEFINITION. The decoder of command words (`30_encoding.md` R86-R91), total and naming what it refuses; the encoder
from the same table; and the assembler of R93 and R94. -/

namespace Sys2Proof

/-- The OP field, bits [3:0] (R86). -/
def opField (w : Word) : BitVec 4 := w.extractLsb' 0 4

/-- The PRESENT field, bits [7:4] (R86, R87). -/
def presentField (w : Word) : BitVec 4 := w.extractLsb' 4 4

/-- The RSVD field, bits [31:8] (R86). -/
def rsvdField (w : Word) : BitVec 24 := w.extractLsb' 8 24

/-- The decoding table of R89, in its order. -/
def opcodeRows : List OpcodeRow :=
  [{ mnemonic := "split", mat := 0x00000001, mask := 0xFFFFFFFF, make := fun _ => .split },
   { mnemonic := "recon.exact", mat := 0x00000002, mask := 0xFFFFFF0F, make := .reconExact },
   { mnemonic := "recon.heur", mat := 0x00000003, mask := 0xFFFFFF0F, make := .reconHeur },
   { mnemonic := "recon.inpaint", mat := 0x00000004, mask := 0xFFFFFF0F, make := .reconInpaint }]

/-- Which of R90's kinds an illegal word is; a word of several kinds is named by the first of R90's list. -/
def whyIllegal (w : Word) : Illegal :=
  if opField w = 0 then .opZero
  else if 5 ≤ (opField w).toNat then .opReserved
  else if rsvdField w ≠ 0 then .rsvdNonZero
  else .splitPresent

/-- Decoding (R89): "A word w decodes to the first row below whose `(w & mask) == match`, and to ILLEGAL if no row
matches." -/
def decode (w : Word) : Except Illegal Instr :=
  match opcodeRows.find? (fun row => w &&& row.mask == row.mat) with
  | some row => .ok (row.make (presentField w))
  | none => .error (whyIllegal w)

/-- A command word put together from its fields (R86), RSVD being 0. -/
def commandWord (op present : BitVec 4) : Word := 0#24 ++ present ++ op

/-- The word of a command (R88, R93). -/
def encode : Instr → Word
  | .split => commandWord 1 0
  | .reconExact p => commandWord 2 p
  | .reconHeur p => commandWord 3 p
  | .reconInpaint p => commandWord 4 p

/-- The assembler (R93, R94): the word of a line, or `none` where it rejects the line. `recon.exact` without a mask is
`recon.exact p=0b1111`. -/
def assemble (line : AsmLine) : Option Word :=
  if line.wellFormed then
    match line with
    | .split _ => some (encode .split)
    | .reconExact p => some (encode (.reconExact (BitVec.ofNat 4 (p.elim 15 MaskLit.value))))
    | .reconHeur p => some (encode (.reconHeur (BitVec.ofNat 4 (p.elim 0 MaskLit.value))))
    | .reconInpaint p => some (encode (.reconInpaint (BitVec.ofNat 4 (p.elim 0 MaskLit.value))))
    | .word v => some v
  else none

/-- The command the decoder reads from a word given as the opcode table numbers its bits; the bits above `nbits` are 0,
and a command word has 32 bits (R85). -/
def decodeTableWord (nbits w : Nat) : Option Instr :=
  if w % 2 ^ nbits < 2 ^ 32 then
    match decode (BitVec.ofNat 32 (w % 2 ^ nbits)) with
    | .ok i => some i
    | .error _ => none
  else none

end Sys2Proof
end

