-- ==== Sys2Proof/Config.lean ====
section
/-! DEFINITION. What is fixed for one placement of the engine, and the free values: constants without a body, so that
nothing can be proved about the value they have. -/

namespace Sys2Proof.Config

/-- The value the ID register always reads (`10_state.md` R27). -/
def idValue : Word := 0x49503207

/-- What a byte of memory reads as that the memory list does not name. DESIGN CHOICE (log 1): `MEM` is a parameter of
the model (R9), the spec gives no contents for it. -/
def unlistedByte : Byte := 0

/-- REG_BASE, "the host address of register offset 0" (R9): an OPEN parameter, so a constant without a body. The spec
gives a host address no width: `addr32` is the type of `bus_ok` only and ADDR_WIDTH that of memory addresses (R8).
DESIGN CHOICE (log 14): a natural number without a bound, so a host address has any width and never wraps. -/
opaque regBase : Nat

/-- IRQ_ROUTE, "where the `irq` output goes" (R9): an OPEN parameter; the destinations are numbered. -/
opaque irqRoute : Nat

/-- FREE VALUE (log 3): for the command with this ticket and its n-th output word, whether a command that is cut short has
already written the word's final value (`60_exceptions.md` R176, `70_reset_and_hazards.md` R192). -/
opaque freeChoice : Nat → Nat → Bool

/-- FREE VALUE (log 5): the word that a rule-less access yields after a host protocol violation (`20_memory.md` R79):
the n-th output word of the command with this ticket, or (n = 0) the word a violating read returns. -/
opaque freeWord : Nat → Nat → Word

/-- FREE VALUE (log 4): the number FILL_COUNT (n = 0) or BLACK_COUNT (n = 1) is drawn from after a RECON.INPAINT that
ends with BUS_ERROR (R35, R36). -/
opaque freeCount : Nat → Nat → Nat

/-- FREE VALUE (log 6): which of the possible ends of a run happens when the order and number of the engine's accesses
decide it (R74, `93_implementation_defined.md` I8). -/
opaque freeFate : Nat → Nat

end Sys2Proof.Config
end

