-- ==== Sys2Proof/Machine/State.lean ====
section
/-! DEFINITION. The state of the engine and of the platform parts a model of it needs (`10_state.md` R22), the host's
script of steps, the reasons a step can stop, and the state after reset. Plain data throughout. -/

namespace Sys2Proof.Machine

/-- A buffer descriptor: the registers BASE, WIDTH, HEIGHT and STRIDE (R33). WIDTH and HEIGHT are the 16 bits that exist;
the reserved bits [31:16] read 0 (R25, R26). -/
structure Desc where
  base   : Word
  width  : BitVec 16
  height : BitVec 16
  stride : Word
deriving DecidableEq, Repr

/-- Which of the five descriptors: S, or Q0..Q3 (R34). -/
inductive DescName where
  | s
  | q (i : Quad)
deriving DecidableEq, Repr

/-- Which register of a descriptor (R33). -/
inductive DescField where
  | base | width | height | stride
deriving DecidableEq, Repr

/-- The registers of the map of R26, by name; an offset the map does not list has none. -/
inductive RegName where
  | id | ctrl | cmd | status | irqStatus | irqEnable | fillCount | blackCount
  | desc (d : DescName) (f : DescField)
deriving DecidableEq, Repr

/-- The error codes of STATUS.ERR (`60_exceptions.md` R160). The reserved codes 9-15 "never reported" have no name. -/
inductive ErrCode where
  | ok | invalidDimensions | noInput | dimensionMismatch | incompleteInput | illegalCmd | invalidDescriptor | overlap
  | busError
deriving DecidableEq, Repr

/-- The stored registers of R26. ID is a constant and CTRL always reads 0, so neither is stored; STATUS.BUSY is the
engine phase ("STATUS.BUSY = 1 exactly when the phase is not IDLE", R39), so of STATUS only ERR is stored. -/
structure Regs where
  cmd        : Word
  err        : ErrCode
  irqStatus  : BitVec 3
  irqEnable  : BitVec 3
  fillCount  : Word
  blackCount : Word
  s          : Desc
  q0         : Desc
  q1         : Desc
  q2         : Desc
  q3         : Desc
deriving DecidableEq, Repr

/-- The engine phase (R39). -/
inductive Phase where
  | idle
  | pending (w : Word)
  | running (w : Word)
deriving DecidableEq, Repr

/-- The full-size image of RECON.INPAINT as the engine holds it while it works (R40, `42_inpaint.md` R136, R137), row by
row: entry y·W + x is `some v` when `mask[y][x]` is true and `val[y][x]` is v, and `none` when the mask is false. -/
abbrev Canvas := List (Option Pixel)

/-- The working state of a running command (R40): the canvas of RECON.INPAINT once phase 1 has run. `ticket` is the
model's own: the number under which this command's free values are drawn. -/
structure Work where
  ticket : Nat
  canvas : Option Canvas
deriving DecidableEq, Repr

/-- The kinds of memory-port access (R9). -/
inductive Access where
  | read | write
deriving DecidableEq, Repr

/-- How the memory port answers an access: "Each completes with OK or ERR" (R20), or it "never answers" (R205). -/
inductive BusAnswer where
  | ok | err | never
deriving DecidableEq, Repr

/-- One region of the platform's map of answers: the word addresses `lo ≤ a < hi`. -/
structure BusRegion where
  lo    : Nat
  hi    : Nat
  read  : BusAnswer
  write : BusAnswer
deriving DecidableEq, Repr

/-- The contents of the memory space (R60): pairs of a byte address and a byte, addresses rising, an address that is not
listed reading as `Config.unlistedByte`. -/
abbrev Memory := List Host.Cell

/-- The "must" steps of `70_reset_and_hazards.md` R195 that the engine cannot see a host break. -/
inductive HostDuty where
  /-- Step 3: buffers where `bus_ok` holds for every pixel word. -/
  | bufferPlacement
  /-- Step 3 and R63: buffers where reads are idempotent. -/
  | idempotentReads
  /-- Step 4: the input pixel words visible to the memory port before the launch. -/
  | inputVisible
  /-- Step 10: host caches over the output invalidated before it is read. -/
  | outputInvalidated
deriving DecidableEq, Repr

/-- One step of the world, in the order in which the steps happen (R21): a host step, the reset input, or the engine's
turn. The host operations are those of `30_encoding.md` R95. -/
inductive Event where
  /-- The engine takes its step; in phase IDLE it takes none (R187). -/
  | engine
  /-- The reset input `rst` is asserted (R190). -/
  | rst
  /-- `sw`: a register-port write of `size` bytes at byte offset `off`; a 32-bit access has size 4 (R25). -/
  | sw (off : BitVec 8) (size : Nat) (v : Word)
  /-- `lw`: a register-port read of `size` bytes at byte offset `off`. -/
  | lw (off : BitVec 8) (size : Nat)
  /-- `mw`: a host write of a 32-bit word at memory address 4·wordNo. -/
  | mw (wordNo : BitVec 30) (v : Word)
  /-- `mr`: a host read of the word at memory address 4·wordNo. -/
  | mr (wordNo : BitVec 30)
  /-- A write of one byte of memory by an agent other than the engine (R79). -/
  | mwByte (a : Word) (b : Byte)
  /-- A read of one byte of memory by an agent other than the engine (R79). -/
  | mrByte (a : Word)
  /-- `wait`, the host loop `1: lw STATUS; if bit [0] = 1 goto 1` (R94). -/
  | wait
  /-- The host breaks one of R195's "must" steps. -/
  | breach (d : HostDuty)
deriving DecidableEq, Repr

/-- How a host transaction completed (R20): a read with its word, a write, or ERR. -/
inductive PortAnswer where
  | readOk (v : Word)
  | writeOk
  | err
deriving DecidableEq, Repr

/-- The state (R22): the registers, the engine phase, the working state; and what a model needs beside them, the memory,
the platform's bus answers and `host_fault`. The last three fields are the model's own: the steps still to come, the
answer to the latest host transaction, and the counter that numbers the free values. -/
structure State where
  regs      : Regs
  phase     : Phase
  work      : Work
  mem       : Memory
  bus       : List BusRegion
  hostFault : Bool
  inputs    : List Event
  answer    : Option PortAnswer
  draws     : Nat
deriving DecidableEq, Repr

/-- The reasons a step can stop with a fault. -/
inductive Fault where
  /-- Raised by the engine's step in phase RUNNING(w) where w decodes to no command. The spec names no such state: R173
  enters RUNNING only with a word that validation has decoded. SAFE: no state that a run reaches is of this kind. -/
  | runningIllegal
deriving DecidableEq, Repr

/-- The reasons a step can be refused. -/
inductive Refusal where
  /-- Raised by `exec` for an instruction that has no meaning yet, by its mnemonic. SAFE. No instruction is left. -/
  | notModelled (mnemonic : String)
deriving DecidableEq, Repr

/-- A descriptor at reset (R26): every field 0. -/
def Desc.reset : Desc := ⟨0, 0, 0, 0⟩

/-- The registers at reset (R26, R44): "every register has the reset value in the last column of rule R26". -/
def Regs.reset : Regs where
  cmd := 0
  err := .ok
  irqStatus := 0
  irqEnable := 0
  fillCount := 0
  blackCount := 0
  s := .reset
  q0 := .reset
  q1 := .reset
  q2 := .reset
  q3 := .reset

/-- "the working state is empty" (R44). -/
def Work.empty : Work := ⟨0, none⟩

/-- The machine right after reset (R44). Memory, the bus answers and `host_fault` are the platform's and the model's
(R22): nothing is listed, every address of the space answers OK, and no violation has happened (log 1, log 2). -/
def State.reset : State where
  regs := .reset
  phase := .idle
  work := .empty
  mem := []
  bus := []
  hostFault := false
  inputs := []
  answer := none
  draws := 0

/-- The descriptor of quadrant `i` (R34). -/
def Regs.q (r : Regs) : Quad → Desc
  | 0 => r.q0
  | 1 => r.q1
  | 2 => r.q2
  | 3 => r.q3

/-- The registers with another descriptor for quadrant `i`. -/
def Regs.setQ (r : Regs) (i : Quad) (d : Desc) : Regs :=
  match i with
  | 0 => { r with q0 := d }
  | 1 => { r with q1 := d }
  | 2 => { r with q2 := d }
  | 3 => { r with q3 := d }

def State.setRegs (st : State) (r : Regs) : State := { st with regs := r }
def State.setPhase (st : State) (p : Phase) : State := { st with phase := p }
def State.setWork (st : State) (w : Work) : State := { st with work := w }
def State.setMem (st : State) (m : Memory) : State := { st with mem := m }
def State.setHostFault (st : State) (b : Bool) : State := { st with hostFault := b }
def State.setInputs (st : State) (es : List Event) : State := { st with inputs := es }
def State.setAnswer (st : State) (a : PortAnswer) : State := { st with answer := some a }
def State.setDraws (st : State) (n : Nat) : State := { st with draws := n }

end Sys2Proof.Machine
end

