-- ==== Sys2Proof/Machine/Flags.lean ====
section
/-! DEFINITION. The flags (`10_state.md` R41): STATUS, IRQ_STATUS, IRQ_ENABLE and the interrupt output. The engine has no
arithmetic condition codes. -/

namespace Sys2Proof.Machine

/-- The number of an error code (`60_exceptions.md` R160). -/
def ErrCode.code : ErrCode → BitVec 4
  | .ok => 0
  | .invalidDimensions => 1
  | .noInput => 2
  | .dimensionMismatch => 3
  | .incompleteInput => 4
  | .illegalCmd => 5
  | .invalidDescriptor => 6
  | .overlap => 7
  | .busError => 8

/-- STATUS.BUSY: "1 exactly when the phase is not IDLE" (R39). -/
def Phase.busy : Phase → Bool
  | .idle => false
  | .pending _ | .running _ => true

/-- The command word in flight. -/
def Phase.word? : Phase → Option Word
  | .idle => none
  | .pending w | .running w => some w

/-- The word STATUS reads (R26, R30): BUSY in bit [0], ERR in bits [7:4], the rest 0. -/
def statusWord (busy : Bool) (e : ErrCode) : Word :=
  0#24 ++ e.code ++ 0#3 ++ BitVec.ofBool busy

/-- The event bits of IRQ_STATUS (R31). -/
def irqDone : BitVec 3 := 0b001
def irqError : BitVec 3 := 0b010
def irqWBusy : BitVec 3 := 0b100

/-- An event is recorded: its bit is set, and "setting a bit does not clear the others" (R31). -/
def Regs.raise (r : Regs) (event : BitVec 3) : Regs := { r with irqStatus := r.irqStatus ||| event }

/-- A host write of v to IRQ_STATUS (R31): it "clears each bit k in [2:0] for which v[k] = 1". -/
def Regs.clearIrq (r : Regs) (v : Word) : Regs := { r with irqStatus := r.irqStatus &&& ~~~(v.extractLsb' 0 3) }

/-- The interrupt output (R32): "`irq = ((IRQ_STATUS[2:0] & IRQ_ENABLE[2:0]) != 0)`". -/
def Regs.irq (r : Regs) : Bool := r.irqStatus &&& r.irqEnable != 0

/-- The level that `irq` drives at a destination of the platform: only `IRQ_ROUTE` (R9, R179) sees it. -/
def State.irqAt (st : State) (dest : Nat) : Bool := dest == Config.irqRoute && st.regs.irq

end Sys2Proof.Machine
end

