-- ==== Sys2Proof/Machine/Operands.lean ====
section
/-! DEFINITION. The operands of a command: the availability mask, the descriptors that take part and their dimensions,
and the pixel addresses (`20_memory.md` R65-R70, `60_exceptions.md` R166). All arithmetic is on unbounded integers
(`00_scope.md` R11). -/

namespace Sys2Proof.Machine

/-- The quadrant numbers in rising order. -/
def quads : List Quad := [0, 1, 2, 3]

/-- "quadrant i is present exactly when `(p >> i) & 1 = 1`" (`30_encoding.md` R87). -/
def present (p : BitVec 4) (i : Quad) : Bool := p.getLsbD i

/-- The present quadrants, in rising order: the set P of R171. -/
def presentQuads (p : BitVec 4) : List Quad := quads.filter (present p)

/-- `popcount(p)` (R11). -/
def popcount (p : BitVec 4) : Nat := (presentQuads p).length

/-- min P: the lowest-numbered present quadrant (R166); 3 for the empty mask, which validation refuses first. -/
def lowest (p : BitVec 4) : Quad :=
  if present p 0 then 0 else if present p 1 then 1 else if present p 2 then 2 else 3

/-- The phase of a full-size pixel (R13): `phase(x, y) = (x mod 2) + 2·(y mod 2)`. -/
def phaseOf (x y : Nat) : Quad := ⟨x % 2 + 2 * (y % 2), by omega⟩

/-- The full-size column of local column qx of quadrant i (R13): `2·qx + (i & 1)`. -/
def fullX (i : Quad) (qx : Nat) : Nat := 2 * qx + i.val % 2

/-- The full-size row of local row qy of quadrant i (R13): `2·qy + (i >> 1)`. -/
def fullY (i : Quad) (qy : Nat) : Nat := 2 * qy + i.val / 2

/-- The address of pixel (x, y) of a descriptor (R65): `d.BASE + y * d.STRIDE + 4 * x`, without wrap-around. -/
def addr (d : Desc) (x y : Nat) : Nat := d.base.toNat + y * d.stride.toNat + 4 * x

/-- The two ends of the span of a descriptor (R66): the bytes `spanLo ≤ a < spanHi`. -/
def spanLo (d : Desc) : Nat := d.base.toNat
def spanHi (d : Desc) (w h : Nat) : Nat := d.base.toNat + d.stride.toNat * (h - 1) + 4 * w

/-- A descriptor is legal for width w and height h (R66). -/
abbrev Legal (d : Desc) (w h : Nat) : Prop :=
  d.base.toNat % 4 = 0 ∧ d.stride.toNat % 4 = 0 ∧ 4 * w ≤ d.stride.toNat ∧ spanHi d w h ≤ 2 ^ 32

/-- A descriptor that takes part in a command, with the dimensions it has there, and whether it is an output (R166,
`30_encoding.md` R92). -/
structure Part where
  desc : Desc
  w    : Nat
  h    : Nat
  out  : Bool
deriving DecidableEq, Repr

/-- A part is legal for its dimensions. -/
abbrev Part.Legal (p : Part) : Prop := Machine.Legal p.desc p.w p.h

/-- Two parts overlap (R70): "their spans share at least one byte". -/
abbrev Part.Overlaps (p q : Part) : Prop :=
  spanLo p.desc < spanHi q.desc q.w q.h ∧ spanLo q.desc < spanHi p.desc p.w p.h

/-- The byte at `a` lies inside the span of a part; only a legal descriptor has a span, for w, h ≥ 1 (R66). -/
abbrev Part.Covers (p : Part) (a : Nat) : Prop :=
  1 ≤ p.w ∧ 1 ≤ p.h ∧ p.Legal ∧ spanLo p.desc ≤ a ∧ a < spanHi p.desc p.w p.h

/-- (qw, qh): WIDTH and HEIGHT of the lowest-numbered present quadrant (R166). -/
def quadDims (p : BitVec 4) (r : Regs) : Nat × Nat :=
  ((r.q (lowest p)).width.toNat, (r.q (lowest p)).height.toNat)

/-- The parts of SPLIT (R166): S with (w, h), and every Qi with (w/2, h/2). -/
def splitParts (r : Regs) : List Part :=
  let w := r.s.width.toNat
  let h := r.s.height.toNat
  ⟨r.s, w, h, false⟩ :: quads.map fun i => ⟨r.q i, w / 2, h / 2, true⟩

/-- The output part of RECON.* (R166): S with (2·qw, 2·qh). -/
def outPart (p : BitVec 4) (r : Regs) : Part :=
  ⟨r.s, 2 * (quadDims p r).1, 2 * (quadDims p r).2, true⟩

/-- The input parts of RECON.* for the given quadrants (R166). -/
def inParts (qs : List Quad) (p : BitVec 4) (r : Regs) : List Part :=
  qs.map fun i => ⟨r.q i, (quadDims p r).1, (quadDims p r).2, false⟩

/-- The descriptors that take part in a command (R166). With an empty mask no dimensions are known, and none does. -/
def parts (i : Instr) (r : Regs) : List Part :=
  match i with
  | .split => splitParts r
  | .reconExact p => if p = 0 then [] else outPart p r :: inParts quads p r
  | .reconHeur p | .reconInpaint p => if p = 0 then [] else outPart p r :: inParts (presentQuads p) p r

/-- One value for each position of a w × h grid, row by row (R145: "ascending y then ascending x"). -/
def grid {α : Type} (w h : Nat) (f : Nat → Nat → α) : List α :=
  (List.range h).flatMap fun y => (List.range w).map fun x => f x y

end Sys2Proof.Machine
end

