-- ==== Sys2Proof/Machine/Ops.lean ====
section
/-! DEFINITION. The named operations over memory, pixels, registers and the bus; taking an error (the engine's counterpart
of an exception, `60_exceptions.md` R175) and what the host does to return from it (R177); launch and completion. -/

namespace Sys2Proof.Machine

/-! ### Memory (`20_memory.md` R60-R62) -/

/-- The byte at an address. -/
def Memory.read : Memory → Nat → Byte
  | [], _ => Config.unlistedByte
  | (c, x) :: t, a => if a = c then x else Memory.read t a

/-- Memory with another byte at an address, kept in the canonical form. -/
def Memory.write : Memory → Nat → Byte → Memory
  | [], a, b => if b = Config.unlistedByte then [] else [(a, b)]
  | (c, x) :: t, a, b =>
    if a < c then (if b = Config.unlistedByte then (c, x) :: t else (a, b) :: (c, x) :: t)
    else if a = c then (if b = Config.unlistedByte then t else (a, b) :: t)
    else (c, x) :: Memory.write t a b

/-- The canonical form: addresses strictly rising, inside the 2^32 bytes of the space (R60), and no entry equal to what
an unlisted address reads as. -/
def Memory.wf : Memory → Bool
  | [] => true
  | (c, x) :: t => decide (c < 2 ^ 32) && decide (x ≠ Config.unlistedByte) && t.all (fun e => decide (c < e.1)) && Memory.wf t

/-- `MemRead(addr, 4)` (R61): one 32-bit little-endian word. -/
def Memory.readWord (m : Memory) (a : Nat) : Word :=
  m.read (a + 3) ++ m.read (a + 2) ++ m.read (a + 1) ++ m.read a

/-- `MemWrite(addr, 4, v)` (R61): byte[addr + k] <- v[8k+7 : 8k] for k = 0..3. -/
def Memory.writeWord (m : Memory) (a : Nat) (v : Word) : Memory :=
  (((m.write a (v.extractLsb' 0 8)).write (a + 1) (v.extractLsb' 8 8)).write (a + 2) (v.extractLsb' 16 8)).write (a + 3)
    (v.extractLsb' 24 8)

/-- Several words written, one after the other. -/
def Memory.writeAll (m : Memory) (ws : List (Nat × Word)) : Memory :=
  ws.foldl (fun acc e => acc.writeWord e.1 e.2) m

/-! ### Pixels (R62, R67, R68) -/

/-- The pixel a word holds: `{a, r, g, b}` from the most significant byte down (R62). -/
def pixelOf (w : Word) : Pixel :=
  ⟨w.extractLsb' 24 8, w.extractLsb' 16 8, w.extractLsb' 8 8, w.extractLsb' 0 8⟩

/-- The word that stores a pixel (R62). -/
def wordOf (p : Pixel) : Word := p.a ++ p.r ++ p.g ++ p.b

/-- The pixel `PixRead(d, x, y)` returns when its access completes OK (R67). -/
def pixRead (m : Memory) (d : Desc) (x y : Nat) : Pixel := pixelOf (m.readWord (addr d x y))

/-- The word access that `PixWrite(d, x, y, p)` makes (R68): its address and its word. -/
def pixWrite (d : Desc) (x y : Nat) (p : Pixel) : Nat × Word := (addr d x y, wordOf p)

/-! ### The memory port (R20, R80, `70_reset_and_hazards.md` R205) -/

/-- How a map of regions answers: by the first region that holds the address, and OK where none does. -/
def regionAnswer : List BusRegion → Nat → Access → BusAnswer
  | [], _, _ => .ok
  | g :: t, a, k =>
    if g.lo ≤ a ∧ a < g.hi then (match k with | .read => g.read | .write => g.write) else regionAnswer t a k

/-- How the memory port answers a word access; a word that does not lie inside the 2^32 bytes of the space (R60) gets
ERR. Validation keeps every access inside the space (R188). -/
def State.busAnswer (st : State) (a : Nat) (k : Access) : BusAnswer :=
  if a + 4 ≤ 2 ^ 32 then regionAnswer st.bus a k else .err

/-- `bus_ok` (R9): the access completes without a bus error. -/
abbrev State.BusOk (st : State) (a : Nat) (k : Access) : Prop := st.busAnswer a k = .ok

/-! ### The register map (R25, R26) -/

/-- The register at a byte offset of the window; `none` for the unmapped offsets 0x070-0x0FF. The offset is taken to be
a multiple of 4 (R25). -/
def regAt (off : BitVec 8) : Option RegName :=
  let field : DescField :=
    match off.toNat / 4 % 4 with
    | 0 => .base
    | 1 => .width
    | 2 => .height
    | _ => .stride
  match off.toNat / 16 with
  | 0 => match off.toNat / 4 with
    | 0 => some .id
    | 1 => some .ctrl
    | 2 => some .cmd
    | _ => some .status
  | 1 => match off.toNat / 4 % 4 with
    | 0 => some .irqStatus
    | 1 => some .irqEnable
    | 2 => some .fillCount
    | _ => some .blackCount
  | 2 => some (.desc .s field)
  | 3 => some (.desc (.q 0) field)
  | 4 => some (.desc (.q 1) field)
  | 5 => some (.desc (.q 2) field)
  | 6 => some (.desc (.q 3) field)
  | _ => none

/-- The host address of a register: offset 0 is at `REG_BASE` (R20). Host addresses have no width (DESIGN CHOICE, log 14),
so the sum does not wrap. -/
def hostAddress (off : BitVec 8) : Nat := Config.regBase + off.toNat

/-- One register of a descriptor, as the host reads it; reserved bits read 0 (R25). -/
def Desc.get (d : Desc) : DescField → Word
  | .base => d.base
  | .width => d.width.zeroExtend 32
  | .height => d.height.zeroExtend 32
  | .stride => d.stride

/-- One register of a descriptor written; writes to reserved bits are ignored (R25). -/
def Desc.set (d : Desc) (f : DescField) (v : Word) : Desc :=
  match f with
  | .base => { d with base := v }
  | .width => { d with width := v.extractLsb' 0 16 }
  | .height => { d with height := v.extractLsb' 0 16 }
  | .stride => { d with stride := v }

/-- A descriptor by name (R34). -/
def Regs.desc (r : Regs) : DescName → Desc
  | .s => r.s
  | .q i => r.q i

/-- The registers with another descriptor under a name. -/
def Regs.setDesc (r : Regs) (n : DescName) (d : Desc) : Regs :=
  match n with
  | .s => { r with s := d }
  | .q i => r.setQ i d

/-- The word a register reads (R26-R36). -/
def State.readReg (st : State) : RegName → Word
  | .id => Config.idValue
  | .ctrl => 0
  | .cmd => st.regs.cmd
  | .status => statusWord st.phase.busy st.regs.err
  | .irqStatus => st.regs.irqStatus.zeroExtend 32
  | .irqEnable => st.regs.irqEnable.zeroExtend 32
  | .fillCount => st.regs.fillCount
  | .blackCount => st.regs.blackCount
  | .desc n f => (st.regs.desc n).get f

/-! ### The lifecycle: launch, error, completion -/

/-- Launch (R172): CMD takes the word, BUSY becomes 1, ERR and both counters 0, the phase PENDING(w). -/
def State.launch (st : State) (w : Word) : State :=
  ((st.setRegs { st.regs with cmd := w, err := .ok, fillCount := 0, blackCount := 0 }).setPhase (.pending w)).setWork .empty

/-- Taking an error (R175): in one step BUSY becomes 0, ERR the code, IRQ_STATUS.ERROR 1 and the phase IDLE; "No other
register changes in this step", "No state is saved anywhere else". -/
def State.endWithError (st : State) (e : ErrCode) : State :=
  ((st.setRegs { st.regs.raise irqError with err := e }).setPhase .idle).setWork .empty

/-- Completion (R174): BUSY becomes 0, ERR 0, IRQ_STATUS.DONE 1 and the phase IDLE. -/
def State.complete (st : State) : State :=
  ((st.setRegs { st.regs.raise irqDone with err := .ok }).setPhase .idle).setWork .empty

/-- The counters written at the completion of RECON.INPAINT (`42_inpaint.md` R148). -/
def State.setCounts (st : State) (filled blacked : Word) : State :=
  st.setRegs { st.regs with fillCount := filled, blackCount := blacked }

/-- What a host does after an error or a completion (R177): it clears event bits by writing 1s, and nothing else needs
restoring. -/
def State.acknowledge (st : State) (v : Word) : State := st.setRegs (st.regs.clearIrq v)

/-- An ignored write while busy sets IRQ_STATUS.WBUSY (R37). -/
def State.ignoreWhileBusy (st : State) : State := st.setRegs (st.regs.raise irqWBusy)

end Sys2Proof.Machine
end

