-- ==== Sys2Proof/Machine/Validate.lean ====
section
/-! DEFINITION. The validation step of a command (`60_exceptions.md` R171, R173): the check of each command in the order of
R171, and the write-back of the output dimensions. -/

namespace Sys2Proof.Machine

/-- The SPLIT branch of R171. -/
def validateSplit (r : Regs) : ErrCode :=
  let w := r.s.width.toNat
  let h := r.s.height.toNat
  if w = 0 ∨ h = 0 ∨ w % 2 = 1 ∨ h % 2 = 1 then .invalidDimensions
  else if ¬ ∀ part ∈ splitParts r, part.Legal then .invalidDescriptor
  else if ¬ (splitParts r).Pairwise (fun a b => ¬ a.Overlaps b) then .overlap
  else .ok

/-- The RECON branch of R171; `exact` says that the command is RECON.EXACT. -/
def validateRecon (exact : Bool) (p : BitVec 4) (r : Regs) : ErrCode :=
  let (qw, qh) := quadDims p r
  let ins := inParts (presentQuads p) p r
  if p = 0 then .noInput
  else if exact ∧ p ≠ 0b1111 then .incompleteInput
  else if ∃ i ∈ presentQuads p, ((r.q i).width.toNat, (r.q i).height.toNat) ≠ (qw, qh) then .dimensionMismatch
  else if qw = 0 ∨ qh = 0 ∨ 0x7FFF < qw ∨ 0x7FFF < qh then .invalidDimensions
  else if ¬ ∀ part ∈ outPart p r :: ins, part.Legal then .invalidDescriptor
  else if ∃ part ∈ ins, (outPart p r).Overlaps part then .overlap
  else .ok

/-- `validate(w)` of R171 for a word that decodes to a command; `.ok` is its "return OK". -/
def validate (i : Instr) (r : Regs) : ErrCode :=
  match i with
  | .split => validateSplit r
  | .reconExact p => validateRecon true p r
  | .reconHeur p => validateRecon false p r
  | .reconInpaint p => validateRecon false p r

/-- `validate(w)` of R171, ILLEGAL_CMD "checked first" (R162). -/
def validateWord (w : Word) (r : Regs) : ErrCode :=
  match decode w with
  | .error _ => .illegalCmd
  | .ok i => validate i r

/-- A descriptor with another WIDTH and HEIGHT. -/
def Desc.resize (d : Desc) (w h : Nat) : Desc := { d with width := BitVec.ofNat 16 w, height := BitVec.ofNat 16 h }

/-- The write-back of SPLIT (`40_interleave.md` R101): `Qi_WIDTH <- w / 2` and `Qi_HEIGHT <- h / 2` for i = 0..3. -/
def writeBackSplit (r : Regs) : Regs :=
  quads.foldl (fun acc i => acc.setQ i ((r.q i).resize (r.s.width.toNat / 2) (r.s.height.toNat / 2))) r

/-- The write-back of RECON.* (R173): `S_WIDTH <- 2·qw` and `S_HEIGHT <- 2·qh`. -/
def writeBackRecon (p : BitVec 4) (r : Regs) : Regs :=
  { r with s := r.s.resize (2 * (quadDims p r).1) (2 * (quadDims p r).2) }

/-- The write-back of a command (R38, R173). -/
def writeBack (i : Instr) (r : Regs) : Regs :=
  match i with
  | .split => writeBackSplit r
  | .reconExact p | .reconHeur p | .reconInpaint p => writeBackRecon p r

/-- The validation step of R173 in phase PENDING(w): an error ends the command by R175; otherwise the output dimensions
are written back and the phase becomes RUNNING(w). The command takes the number its free values are drawn under. -/
def validateStep (i : Instr) (w : Word) (st : State) : State :=
  match validate i st.regs with
  | .ok =>
    (((st.setRegs (writeBack i st.regs)).setPhase (.running w)).setWork ⟨st.draws, none⟩).setDraws (st.draws + 1)
  | e => st.endWithError e

end Sys2Proof.Machine
end

