-- ==== Sys2Proof/Machine/Run.lean ====
section
/-! DEFINITION. The run of a command in phase RUNNING (`60_exceptions.md` R174): the memory work as one atomic step, which
R174 allows, its end by the answers of the memory port, and what memory holds after a command that is cut short (R176,
`70_reset_and_hazards.md` R192). -/

namespace Sys2Proof.Machine

/-- The memory work of a command: the addresses it must read, and for every output pixel word its address and the final
value the command's rule gives it (`20_memory.md` R74). -/
structure Job where
  reads  : List Nat
  writes : List (Nat × Word)
deriving DecidableEq, Repr

/-- How a run of accesses can end. -/
inductive Fate where
  /-- Every access completed OK. -/
  | done
  /-- An access completed with ERR (R170). -/
  | failed
  /-- An access never answers: "leaves the engine BUSY for ever" (`70_reset_and_hazards.md` R205). -/
  | hung
deriving DecidableEq, Repr

/-- The ends that some order and number of accesses allows (R74): `need` are the answers to the accesses the engine must
make, `may` those to the accesses it may make besides, the read-back of output pixels. -/
def fates (need may : List BusAnswer) : List Fate :=
  (if ∀ a ∈ need, a = .ok then [.done] else []) ++
  (if .err ∈ need ++ may then [.failed] else []) ++
  (if .never ∈ need ++ may then [.hung] else [])

/-- The end that happens: the only possible one, or one of them by a free value (log 6). -/
def pickFate (n : Nat) : List Fate → Fate
  | [] => .failed
  | [f] => f
  | f :: t => (f :: t).getD (n % (f :: t).length) f

/-- The end of the accesses of a running command: it must read `reads` and write `writes`, and it may read the written
words back. -/
def State.fate (st : State) (job : Job) : Fate :=
  pickFate (Config.freeFate st.work.ticket)
    (fates ((job.reads.map fun a => st.busAnswer a .read) ++ (job.writes.map fun e => st.busAnswer e.1 .write))
      (job.writes.map fun e => st.busAnswer e.1 .read))

/-- The word the n-th output word ends as: its final value, or after a host protocol violation "an unspecified value"
(`20_memory.md` R79, log 5). -/
def State.finalWord (st : State) (n : Nat) (v : Word) : Word :=
  if st.hostFault then Config.freeWord st.work.ticket n else v

/-- Memory after every output word is written. -/
def State.memDone (st : State) (writes : List (Nat × Word)) : Memory :=
  st.mem.writeAll (writes.zipIdx.map fun e => (e.1.1, st.finalWord e.2 e.1.2))

/-- The output words that a command cut short has written (R176, R192): "per output pixel, one of the two values", by a
free value (log 3). A word whose write answers ERR is not written: "A write so answered changes no memory" (R80). -/
def State.written (st : State) (writes : List (Nat × Word)) : List (Nat × Word) :=
  (writes.zipIdx.filter fun e =>
      (st.hostFault || Config.freeChoice st.work.ticket e.2) && st.busAnswer e.1.1 .write != .err).map
    fun e => (e.1.1, st.finalWord e.2 e.1.2)

/-- Memory after a command is cut short while its memory work may have begun. -/
def State.memMixed (st : State) (writes : List (Nat × Word)) : Memory := st.mem.writeAll (st.written writes)

/-- The end with BUS_ERROR (R170, R175, R176): the output is the bounded mix. -/
def State.busError (st : State) (writes : List (Nat × Word)) : State :=
  (st.setMem (st.memMixed writes)).endWithError .busError

/-- The run step of a command that writes no counter (R174). -/
def runStep (job : Job) (st : State) : State :=
  match st.fate job with
  | .done => (st.setMem (st.memDone job.writes)).complete
  | .failed => st.busError job.writes
  | .hung => st

end Sys2Proof.Machine
end

