-- ==== Sys2Proof/Machine/Heuristic.lean ====
section
/-! DEFINITION. The heuristic family (`41_heuristic.md`): RECON.HEUR, the multiplexer of 2 × 2 blocks with its integer
means. -/

namespace Sys2Proof.Machine

/-- The mean of two channel values (R125): `(p.c + q.c) / 2`, truncating. -/
def chanMean2 (p q : Byte) : Byte := BitVec.ofNat 8 ((p.toNat + q.toNat) / 2)

/-- The mean of three channel values (R125): `(p.c + q.c + r.c) / 3`, truncating. -/
def chanMean3 (p q r : Byte) : Byte := BitVec.ofNat 8 ((p.toNat + q.toNat + r.toNat) / 3)

/-- `mean2` (R125), alpha being averaged like the other channels (R126). -/
def mean2 (p q : Pixel) : Pixel := ⟨chanMean2 p.a q.a, chanMean2 p.r q.r, chanMean2 p.g q.g, chanMean2 p.b q.b⟩

/-- `mean3` (R125), alpha being averaged like the other channels (R126). -/
def mean3 (p q r : Pixel) : Pixel :=
  ⟨chanMean3 p.a q.a r.a, chanMean3 p.r q.r r.r, chanMean3 p.g q.g r.g, chanMean3 p.b q.b r.b⟩

/-- The mean of the present candidates, two or three of them (R121, R123). -/
def presentMean (p : BitVec 4) (c : Quad → Pixel) : Pixel :=
  match presentQuads p with
  | [u, v] => mean2 (c u) (c v)
  | [u, v, t] => mean3 (c u) (c v) (c t)
  | _ => .black

/-- Output corner j of a block from its candidates (R117-R124), the cases tested in the order of R117. -/
def heurBlock (p : BitVec 4) (c : Quad → Pixel) (j : Quad) : Pixel :=
  if popcount p = 4 then c j
  else if popcount p = 1 then c (lowest p)
  else if p = 0b0011 ∨ p = 0b1100 then c (Fin.ofNat 4 ((if p = 0b0011 then 0 else 2) + j.val % 2))
  else if p = 0b1001 ∨ p = 0b0110 then (if present p j then c j else presentMean p c)
  else if p = 0b0101 ∨ p = 0b1010 then c (Fin.ofNat 4 ((if p = 0b0101 then 0 else 1) + j.val / 2 * 2))
  else if popcount p = 3 then (if present p j then c j else presentMean p c)
  else .black

/-- The candidates of a block (R115): pixel (bx, by) of each present quadrant. An absent quadrant is not read, and no case
of `heurBlock` looks at its slot. -/
def candidates (p : BitVec 4) (r : Regs) (m : Memory) (cx cy : Nat) (j : Quad) : Pixel :=
  if present p j then pixRead m (r.q j) cx cy else .black

/-- The memory work of RECON.HEUR (R115). -/
def heurJob (p : BitVec 4) (r : Regs) (m : Memory) : Job where
  reads := (presentQuads p).flatMap fun i => grid (quadDims p r).1 (quadDims p r).2 fun qx qy => addr (r.q i) qx qy
  writes := (grid (quadDims p r).1 (quadDims p r).2 fun cx cy =>
    quads.map fun j => pixWrite r.s (fullX j cx) (fullY j cy) (heurBlock p (candidates p r m cx cy) j)).flatten

/-- RECON.HEUR: the engine's step of the command, by phase (R173, R174). -/
def execReconHeur (p : BitVec 4) (st : State) : Host.Outcome State Fault Refusal :=
  match st.phase with
  | .idle => .next st
  | .pending w => .next (validateStep (.reconHeur p) w st)
  | .running _ => .next (runStep (heurJob p st.regs st.mem) st)

end Sys2Proof.Machine
end

