-- ==== Sys2Proof/Machine/Float64.lean ====
section
/-! DEFINITION. The IEEE-754 binary64 arithmetic of `42_inpaint.md` R139 on the values that family meets: finite and not
negative. Every such value is a whole number of units of 2^-1074, the smallest binary64 number; results are computed
exactly on those numbers and then rounded once. -/

namespace Sys2Proof.Machine

/-- A finite binary64 value that is not negative: `units` times 2^-1074. -/
structure F64 where
  units : Nat
deriving DecidableEq, Repr

/-- The value 1.0 in units. -/
def F64.one : Nat := 2 ^ 1074

/-- The value of a bit pattern (R139): 11 exponent bits with bias 1023 above 52 fraction bits; the sign bit is 0. -/
def F64.ofBits (v : BitVec 64) : F64 :=
  let e := v.toNat / 2 ^ 52
  let f := v.toNat % 2 ^ 52
  ⟨if e = 0 then f else (2 ^ 52 + f) <<< (e - 1)⟩

/-- The position of the leading 1 bit of n, found by halving the range; for n below 2^(2·k) where k is the first width. -/
def leadingBit : List Nat → Nat → Nat
  | [], _ => 0
  | k :: ks, n => if 2 ^ k ≤ n then k + leadingBit ks (n >>> k) else leadingBit ks n

/-- ⌊log2 n⌋ (`Nat.log2`, in a form that evaluates in few steps on the long numbers of this file). -/
def floorLog2 (n : Nat) : Nat :=
  if n < 2 ^ 4096 then leadingBit [2048, 1024, 512, 256, 128, 64, 32, 16, 8, 4, 2, 1] n else n.log2

/-- The quotient n/d of two whole numbers of units, correctly rounded: the nearest number with at most 53 significant
bits, a tie going to the even one (R139). -/
def roundDiv (n d : Nat) : Nat :=
  let e := floorLog2 (n / d) - 52
  let D := d <<< e
  let q := n / D
  let rem := n % D
  if D < 2 * rem ∨ (D = 2 * rem ∧ q % 2 = 1) then (q + 1) <<< e else q <<< e

/-- +0.0. -/
def F64.zero : F64 := ⟨0⟩

/-- `f64(n)`: "converts an integer n in 0..255 exactly" (R139). -/
def f64 (n : Nat) : F64 := ⟨n * F64.one⟩

/-- `fadd` (R139). -/
def fadd (x y : F64) : F64 := ⟨roundDiv (x.units + y.units) 1⟩

/-- `fmul` (R139): the product is rounded on its own. -/
def fmul (x y : F64) : F64 := ⟨roundDiv (x.units * y.units) F64.one⟩

/-- `fdiv` (R139); it is never reached with y = +0.0 (R144). -/
def fdiv (x y : F64) : F64 := ⟨roundDiv (x.units * F64.one) y.units⟩

/-- `clamp_trunc(q)` (R143): at most 255.0, then the fraction discarded. The lower clamp has nothing to do: no value here
is negative. -/
def clampTrunc (q : F64) : Byte := BitVec.ofNat 8 (min q.units (f64 255).units / F64.one)

end Sys2Proof.Machine
end

