-- ==== Sys2Proof/Machine/Inpaint.lean ====
section
/-! DEFINITION. The inpainting family (`42_inpaint.md`): RECON.INPAINT, the scatter and the raster-order Gaussian fill. -/

namespace Sys2Proof.Machine

/-! ### The kernel (R138) -/

/-- The signed window offsets, ascending (R138, R142). -/
def offsets : List Int := [-2, -1, 0, 1, 2]

/-- `dx*dx + dy*dy` (R138). -/
def dist2 (dx dy : Int) : Nat := (dx * dx + dy * dy).toNat

/-- `RAW(d2)`: "the binary64 value nearest to the real number exp(−d2/2)" (R138), for the six values d2 takes. -/
def rawBits : Nat → BitVec 64
  | 0 => 0x3FF0000000000000
  | 1 => 0x3FE368B2FC6F960A
  | 2 => 0x3FD78B56362CEF38
  | 4 => 0x3FC152AAA3BF81CC
  | 5 => 0x3FB50385C094F425
  | 8 => 0x3F92C155B8213CF4
  | _ => 0

/-- The constant table `K(d2)` of R138: "In the hardware, the kernel is a constant table." -/
def kernelBits : Nat → BitVec 64
  | 0 => 0x3FC4BFC906C2A8EC
  | 1 => 0x3FB92B856FACD858
  | 2 => 0x3FAE8862E93C9E5E
  | 4 => 0x3F9676F9C7838AA8
  | 5 => 0x3F8B404942866158
  | 8 => 0x3F68527ABA212071
  | _ => 0

/-- `K(d2)` as a value. -/
def kernel (d2 : Nat) : F64 := .ofBits (kernelBits d2)

/-- `KSUM` (R138, step 2): the 25 values RAW added with `fadd` from +0.0, dy outer and dx inner. -/
def kernelSum : F64 :=
  (offsets.flatMap fun dy => offsets.map fun dx => dist2 dx dy).foldl (fun acc d => fadd acc (.ofBits (rawBits d))) .zero

/-! ### The canvas: mask and values (R136, R137) -/

/-- `mask[y][x]` and `val[y][x]` of a canvas W pixels wide. -/
def Canvas.at (cv : Canvas) (W x y : Nat) : Option Pixel := (cv[y * W + x]?).join

/-- The validity mask (R136): "true where a pixel was supplied by a present quadrant", or synthesized since. -/
def Canvas.mask (cv : Canvas) (W x y : Nat) : Bool := (Canvas.at cv W x y).isSome

/-- Phase 1, the scatter (R137): the pixel of a present phase is the one of its quadrant, the others stay invalid. -/
def scatter (p : BitVec 4) (r : Regs) (m : Memory) : Canvas :=
  grid (2 * (quadDims p r).1) (2 * (quadDims p r).2) fun x y =>
    if present p (phaseOf x y) then some (pixRead m (r.q (phaseOf x y)) (x / 2) (y / 2)) else none

/-! ### The fill (R140-R145) -/

/-- The neighbour set of (x, y) with the weight and value of each neighbour (R140-R142), dy outer and dx inner: inside
the window, not the centre, inside the image, and valid at this moment. -/
def neighbours (cv : Canvas) (W H x y : Nat) : List (F64 × Pixel) :=
  offsets.flatMap fun dy => offsets.filterMap fun dx =>
    let nx := (x : Int) + dx
    let ny := (y : Int) + dy
    if (dx ≠ 0 ∨ dy ≠ 0) ∧ 0 ≤ nx ∧ nx < W ∧ 0 ≤ ny ∧ ny < H then
      (Canvas.at cv W nx.toNat ny.toNat).map fun v => (kernel (dist2 dx dy), v)
    else none

/-- Every invalid pixel of a canvas has at least one valid neighbour in its window (R140, R147), so that the fill pass never
meets the BLACK case of R144 there. -/
def Canvas.Fillable (cv : Canvas) (W H : Nat) : Prop :=
  ∀ x y, x < W → y < H → Canvas.mask cv W x y = false → neighbours cv W H x y ≠ []

/-- `den` of R142: the weights added in order. -/
def weightSum (ns : List (F64 × Pixel)) : F64 := ns.foldl (fun acc n => fadd acc n.1) .zero

/-- `num.c` of R142: for one channel, each weight times the neighbour's channel value, added in order. -/
def channelSum (c : Pixel → Byte) (ns : List (F64 × Pixel)) : F64 :=
  ns.foldl (fun acc n => fadd acc (fmul n.1 (f64 (c n.2).toNat))) .zero

/-- One channel of the weighted mean (R142, R143). -/
def channelMean (c : Pixel → Byte) (ns : List (F64 × Pixel)) : Byte :=
  clampTrunc (fdiv (channelSum c ns) (weightSum ns))

/-- The weighted mean of all four channels, alpha included (R142, R152). -/
def weightedMean (ns : List (F64 × Pixel)) : Pixel :=
  ⟨channelMean Pixel.a ns, channelMean Pixel.r ns, channelMean Pixel.g ns, channelMean Pixel.b ns⟩

/-- `fill(x, y)` (R142): BLACK where no neighbour is valid (R144), else the weighted mean; and whether it was weighted. The
first branch keeps it total: with p ≠ 0 no run takes it (R147). -/
def fill (ns : List (F64 × Pixel)) : Pixel × Bool :=
  if ns = [] then (.black, false) else (weightedMean ns, true)

/-- The fill pass under way: the canvas, and how many pixels were filled and blacked (R145). -/
structure FillState where
  canvas  : Canvas
  filled  : Nat
  blacked : Nat
deriving DecidableEq, Repr

/-- The fill pass at one position (R145): a valid pixel is left as it is; an invalid one takes its value and becomes
valid. -/
def fillAt (W H : Nat) (fs : FillState) (xy : Nat × Nat) : FillState :=
  match Canvas.at fs.canvas W xy.1 xy.2 with
  | some _ => fs
  | none =>
    let o := fill (neighbours fs.canvas W H xy.1 xy.2)
    { canvas := fs.canvas.set (xy.2 * W + xy.1) (some o.1)
      filled := if o.2 then fs.filled + 1 else fs.filled
      blacked := if o.2 then fs.blacked else fs.blacked + 1 }

/-- Phase 2, the fill pass (R145): in raster order and in place. -/
def fillPass (W H : Nat) (cv : Canvas) : FillState :=
  (grid W H fun x y => (x, y)).foldl (fillAt W H) ⟨cv, 0, 0⟩

/-! ### The command (R135) -/

/-- The fill pass of a command from the canvas of its phase 1. -/
def inpaintFill (p : BitVec 4) (r : Regs) (cv : Canvas) : FillState :=
  fillPass (2 * (quadDims p r).1) (2 * (quadDims p r).2) cv

/-- The reads of phase 1 (R137). -/
def inpaintReads (p : BitVec 4) (r : Regs) : List Nat :=
  (presentQuads p).flatMap fun i => grid (quadDims p r).1 (quadDims p r).2 fun qx qy => addr (r.q i) qx qy

/-- The output words of RECON.INPAINT for a canvas (R137, R145). After the fill pass every mask entry is true (R148), so no
position falls back to BLACK. -/
def inpaintWrites (p : BitVec 4) (r : Regs) (cv : Canvas) : List (Nat × Word) :=
  grid (2 * (quadDims p r).1) (2 * (quadDims p r).2) fun x y =>
    pixWrite r.s x y ((Canvas.at (inpaintFill p r cv).canvas (2 * (quadDims p r).1) x y).getD .black)

/-- The canvas of phase 1: the one held in the working state, or the one the scatter gives. -/
def State.canvas (p : BitVec 4) (st : State) : Canvas := st.work.canvas.getD (scatter p st.regs st.mem)

/-- The memory work of RECON.INPAINT as a whole (R135). -/
def inpaintJob (p : BitVec 4) (st : State) : Job where
  reads := inpaintReads p st.regs
  writes := inpaintWrites p st.regs (st.canvas p)

/-- The full count of R35: `(4 − popcount(p))·qw·qh`. -/
def fullCount (p : BitVec 4) (r : Regs) : Nat := (4 - popcount p) * (quadDims p r).1 * (quadDims p r).2

/-- A counter after BUS_ERROR: "any value from 0 to the full count" (R35, R36), a free value (log 4). -/
def State.freeCount (p : BitVec 4) (st : State) (n : Nat) : Word :=
  BitVec.ofNat 32 (Config.freeCount st.work.ticket n % (fullCount p st.regs + 1))

/-- The end of RECON.INPAINT with BUS_ERROR: as for every command, and the counters are unspecified (R35, R36). -/
def State.inpaintBusError (p : BitVec 4) (st : State) : State :=
  (st.busError (inpaintJob p st).writes).setCounts (st.freeCount p 0) (st.freeCount p 1)

/-- The first run step (R137): the present quadrants are read into the canvas of the working state. The accesses of the
whole command decide how it ends, since reads and writes may come in any order (`20_memory.md` R74). -/
def scatterStep (p : BitVec 4) (st : State) : State :=
  match st.fate (inpaintJob p st) with
  | .done => st.setWork { st.work with canvas := some (scatter p st.regs st.mem) }
  | .failed => st.inpaintBusError p
  | .hung => st

/-- The second run step (R145, R174): the fill pass, the writes, the counters and the completion. BLACK_COUNT takes the
number of pixels that the pass set to BLACK, which is 0 (R36, R147). -/
def fillStep (p : BitVec 4) (cv : Canvas) (st : State) : State :=
  match st.fate (inpaintJob p st) with
  | .done =>
    ((st.setMem (st.memDone (inpaintWrites p st.regs cv))).complete).setCounts
      (BitVec.ofNat 32 (inpaintFill p st.regs cv).filled) (BitVec.ofNat 32 (inpaintFill p st.regs cv).blacked)
  | .failed => st.inpaintBusError p
  | .hung => st

/-- RECON.INPAINT: the engine's step of the command, by phase (R173, R174); its run takes two steps (R135: phase 1, then
phase 2). -/
def execReconInpaint (p : BitVec 4) (st : State) : Host.Outcome State Fault Refusal :=
  match st.phase with
  | .idle => .next st
  | .pending w => .next (validateStep (.reconInpaint p) w st)
  | .running _ =>
    match st.work.canvas with
    | none => .next (scatterStep p st)
    | some cv => .next (fillStep p cv st)

end Sys2Proof.Machine
end

