-- ==== Sys2Proof/Machine/Interleave.lean ====
section
/-! DEFINITION. The interleave family (`40_interleave.md`): SPLIT and RECON.EXACT. -/

namespace Sys2Proof.Machine

/-- The memory work of SPLIT (R100): pixel (qx, qy) of Qi is pixel (2·qx + (i & 1), 2·qy + (i >> 1)) of S. -/
def splitJob (r : Regs) (m : Memory) : Job where
  reads := grid r.s.width.toNat r.s.height.toNat fun x y => addr r.s x y
  writes := quads.flatMap fun i =>
    grid (r.s.width.toNat / 2) (r.s.height.toNat / 2) fun qx qy =>
      pixWrite (r.q i) qx qy (pixRead m r.s (fullX i qx) (fullY i qy))

/-- The memory work of RECON.EXACT (R103): pixel (x, y) of S is pixel (x >> 1, y >> 1) of Q(phase(x, y)). -/
def exactJob (p : BitVec 4) (r : Regs) (m : Memory) : Job where
  reads := quads.flatMap fun i => grid (quadDims p r).1 (quadDims p r).2 fun qx qy => addr (r.q i) qx qy
  writes := grid (2 * (quadDims p r).1) (2 * (quadDims p r).2) fun x y =>
    pixWrite r.s x y (pixRead m (r.q (phaseOf x y)) (x / 2) (y / 2))

/-- SPLIT: the engine's step of the command, by phase (R173, R174). In IDLE the engine takes no step (R187). -/
def execSplit (st : State) : Host.Outcome State Fault Refusal :=
  match st.phase with
  | .idle => .next st
  | .pending w => .next (validateStep .split w st)
  | .running _ => .next (runStep (splitJob st.regs st.mem) st)

/-- RECON.EXACT: the engine's step of the command, by phase (R173, R174). -/
def execReconExact (p : BitVec 4) (st : State) : Host.Outcome State Fault Refusal :=
  match st.phase with
  | .idle => .next st
  | .pending w => .next (validateStep (.reconExact p) w st)
  | .running _ => .next (runStep (exactJob p st.regs st.mem) st)

end Sys2Proof.Machine
end

