-- ==== Sys2Proof/Machine/Dispatch.lean ====
section
/-! DEFINITION. The dispatch: the engine's step for each command of the opcode table. -/

namespace Sys2Proof.Machine

def exec (i : Instr) (s : State) : Host.Outcome State Fault Refusal :=
  match i with
  | .split => Sys2Proof.Machine.execSplit s
  | .reconExact p => Sys2Proof.Machine.execReconExact p s
  | .reconHeur p => Sys2Proof.Machine.execReconHeur p s
  | .reconInpaint p => Sys2Proof.Machine.execReconInpaint p s

end Sys2Proof.Machine
end

