-- ==== Sys2Proof/Machine/HostPort.lean ====
section
/-! DEFINITION. The host steps: register-port transactions (`10_state.md` R25-R37), reset (`70_reset_and_hazards.md`
R190-R194), and the memory accesses of agents other than the engine with the violations of `20_memory.md` R79. -/

namespace Sys2Proof.Machine

/-! ### Reset -/

/-- The memory work of a command. -/
def jobOf (i : Instr) (st : State) : Job :=
  match i with
  | .split => splitJob st.regs st.mem
  | .reconExact p => exactJob p st.regs st.mem
  | .reconHeur p => heurJob p st.regs st.mem
  | .reconInpaint p => inpaintJob p st

/-- Memory after a reset (R192, R193): unchanged in IDLE and in PENDING; in RUNNING "each output pixel word holds either
its value before the launch, or its final value". -/
def State.memAfterReset (st : State) : Memory :=
  match st.phase with
  | .idle | .pending _ => st.mem
  | .running w =>
    match decode w with
    | .ok i => st.memMixed (jobOf i st).writes
    | .error _ => st.mem

/-- A reset, hardware or soft, in one step (R191): every register at its reset value, phase IDLE, the working state
discarded. The model-only `host_fault` is not cleared (R44). -/
def State.resetStep (st : State) : State :=
  (((st.setMem st.memAfterReset).setRegs .reset).setPhase .idle).setWork .empty

/-! ### The register port -/

/-- Whether the port takes the transaction (R25): "a 32-bit access at an offset that is a multiple of 4". -/
abbrev PortAccepts (off : BitVec 8) (size : Nat) : Prop := size = 4 ∧ off.toNat % 4 = 0

/-- What a write of v to a register does to the engine (R28-R37). -/
def State.writeReg (st : State) (n : RegName) (v : Word) : State :=
  match n with
  | .id | .status | .fillCount | .blackCount => st
  | .ctrl => if v.getLsbD 0 then st.resetStep else st
  | .cmd => if st.phase.busy then st.ignoreWhileBusy else st.launch v
  | .irqStatus => st.acknowledge v
  | .irqEnable => st.setRegs { st.regs with irqEnable := v.extractLsb' 0 3 }
  | .desc d f =>
    if st.phase.busy then st.ignoreWhileBusy
    else st.setRegs (st.regs.setDesc d ((st.regs.desc d).set f v))

/-- `sw`: a register-port write (R25). -/
def State.portWrite (st : State) (off : BitVec 8) (size : Nat) (v : Word) : State :=
  if PortAccepts off size then
    match regAt off with
    | some n => (st.writeReg n v).setAnswer .writeOk
    | none => st.setAnswer .writeOk
  else st.setAnswer .err

/-- `lw`: a register-port read (R25). -/
def State.portRead (st : State) (off : BitVec 8) (size : Nat) : State :=
  if PortAccepts off size then
    match regAt off with
    | some n => st.setAnswer (.readOk (st.readReg n))
    | none => st.setAnswer (.readOk 0)
  else st.setAnswer .err

/-! ### Memory accesses of other agents (R79, R95) -/

/-- The descriptors that take part in the command in flight (R166). -/
def State.activeParts (st : State) : List Part :=
  match st.phase.word? with
  | none => []
  | some w =>
    match decode w with
    | .ok i => parts i st.regs
    | .error _ => []

/-- A write of these bytes is a host protocol violation (R79): one lies "inside the span of a descriptor taking part in the
running command". -/
def State.writeViolates (st : State) (addrs : List Nat) : Bool :=
  decide (∃ part ∈ st.activeParts, ∃ a ∈ addrs, part.Covers a)

/-- A read of these bytes is a host protocol violation (R79): one lies in the span of an output descriptor. -/
def State.readViolates (st : State) (addrs : List Nat) : Bool :=
  decide (∃ part ∈ st.activeParts, part.out = true ∧ ∃ a ∈ addrs, part.Covers a)

/-- `host_fault` after a step that may violate: set, and never cleared (R22, R79). -/
def State.noteViolation (st : State) (violates : Bool) : State := st.setHostFault (st.hostFault || violates)

/-- The four byte addresses of a word. -/
def wordBytes (a : Nat) : List Nat := [a, a + 1, a + 2, a + 3]

/-- `mw`: a host write of a word. -/
def State.hostWrite (st : State) (wordNo : BitVec 30) (v : Word) : State :=
  let a := 4 * wordNo.toNat
  ((st.noteViolation (st.writeViolates (wordBytes a))).setMem (st.mem.writeWord a v)).setAnswer .writeOk

/-- A write of one byte by another agent. -/
def State.hostWriteByte (st : State) (a : Word) (b : Byte) : State :=
  ((st.noteViolation (st.writeViolates [a.toNat])).setMem (st.mem.write a.toNat b)).setAnswer .writeOk

/-- A host read of the bytes `addrs` whose word is `v`: a violating one "returns an unspecified word" (R79), a free value
(log 5). -/
def State.hostReadOf (st : State) (addrs : List Nat) (v : Word) : State :=
  if st.readViolates addrs then
    ((st.noteViolation true).setAnswer (.readOk (Config.freeWord st.draws 0))).setDraws (st.draws + 1)
  else st.setAnswer (.readOk v)

/-- `mr`: a host read of a word. -/
def State.hostRead (st : State) (wordNo : BitVec 30) : State :=
  let a := 4 * wordNo.toNat
  st.hostReadOf (wordBytes a) (st.mem.readWord a)

/-- A read of one byte by another agent. -/
def State.hostReadByte (st : State) (a : Word) : State :=
  st.hostReadOf [a.toNat] ((st.mem.read a.toNat).zeroExtend 32)

end Sys2Proof.Machine
end

