-- ==== Sys2Proof/Machine/Step.lean ====
section
/-! DEFINITION. One step of the machine: the next step of the script is taken by the host, by the reset input or by the
engine (`10_state.md` R21). With no step left in the script the engine has every turn. -/

namespace Sys2Proof.Machine

/-- The engine's step. In IDLE it takes none (`60_exceptions.md` R187). Otherwise the command word in flight is decoded: a
command takes its own step, and an illegal word launched ends with ILLEGAL_CMD (R162, `30_encoding.md` R90). -/
def engineStep (st : State) : Host.Outcome State Fault Refusal :=
  match st.phase with
  | .idle => .next st
  | .pending w =>
    match decode w with
    | .ok i => exec i st
    | .error _ => .next (st.endWithError .illegalCmd)
  | .running w =>
    match decode w with
    | .ok i => exec i st
    | .error _ => .fault .runningIllegal

/-- The `wait` loop of R94: one read of STATUS; while it returns BUSY = 1 the engine has a turn and the loop goes on. -/
def State.waitStep (st : State) (rest : List Event) : State :=
  let polled := st.setAnswer (.readOk (st.readReg .status))
  if st.phase.busy then polled.setInputs (.engine :: .wait :: rest) else polled.setInputs rest

/-- One step of the machine. -/
def step (st : State) : Host.Outcome State Fault Refusal :=
  match st.inputs with
  | [] => engineStep st
  | .engine :: rest => engineStep (st.setInputs rest)
  | .rst :: rest => .next (st.setInputs rest).resetStep
  | .sw off size v :: rest => .next ((st.setInputs rest).portWrite off size v)
  | .lw off size :: rest => .next ((st.setInputs rest).portRead off size)
  | .mw n v :: rest => .next ((st.setInputs rest).hostWrite n v)
  | .mr n :: rest => .next ((st.setInputs rest).hostRead n)
  | .mwByte a b :: rest => .next ((st.setInputs rest).hostWriteByte a b)
  | .mrByte a :: rest => .next ((st.setInputs rest).hostReadByte a)
  | .wait :: rest => .next (st.waitStep rest)
  | .breach _ :: rest => .next ((st.setInputs rest).noteViolation true)

/-- The state in which the very next step runs the command of this word. The engine fetches nothing (`20_memory.md` R77):
"A command is executed when the host writes it to CMD" (R24), so the word is launched (R172) and the engine has the next
turn. The word is given as the opcode table numbers its bits; a command word has 32 (`30_encoding.md` R85). -/
def State.withFetchWord (s : State) (nbits w : Nat) : State :=
  (s.launch (BitVec.ofNat 32 (w % 2 ^ nbits))).setInputs (.engine :: s.inputs)

end Sys2Proof.Machine
end

