-- ==== Sys2Proof/Safety.lean ====
section
/-! DEFINITION. What a safe run is, and the terms the statements are made in: a command that is running validated, a
platform that answers its accesses, and the invariant of the machine. -/

namespace Sys2Proof.Machine

/-- No host protocol violation has happened: "every claim takes `host_fault = false` as a premise" (`20_memory.md` R79). -/
abbrev State.Safe (st : State) : Prop := st.hostFault = false

/-- Command i is in phase RUNNING. -/
def State.Running (st : State) (i : Instr) : Prop := ∃ w, st.phase = .running w ∧ decode w = .ok i

/-- Command i is in phase PENDING. -/
def State.Pending (st : State) (i : Instr) : Prop := ∃ w, st.phase = .pending w ∧ decode w = .ok i

/-- The registers pass the validation of command i, and its output dimensions have been written back: what the registers
are like in phase RUNNING (R173). -/
def Validated (i : Instr) (r : Regs) : Prop := validate i r = .ok ∧ writeBack i r = r

/-- Every pixel word of the buffers taking part answers OK: to a read, and in an output buffer to a write as well. -/
def State.PixelsAnswer (st : State) (i : Instr) : Prop :=
  ∀ part ∈ parts i st.regs, ∀ x y, x < part.w → y < part.h →
    st.BusOk (addr part.desc x y) .read ∧ (part.out = true → st.BusOk (addr part.desc x y) .write)

/-- The byte at `a` belongs to a pixel word of an output buffer of command i. -/
def InOutput (i : Instr) (r : Regs) (a : Nat) : Prop :=
  ∃ part ∈ parts i r, part.out = true ∧ ∃ x y, x < part.w ∧ y < part.h ∧ addr part.desc x y ≤ a ∧ a < addr part.desc x y + 4

/-- The final value of an output pixel word under the command's rule (`20_memory.md` R74): the word at address `a` ends as
`v`, by `40_interleave.md` R100 or R103, `41_heuristic.md` R115 or `42_inpaint.md` R135. -/
def State.Final (st : State) (i : Instr) (a : Nat) (v : Word) : Prop :=
  match i with
  | .split => ∃ j qx qy, qx < st.regs.s.width.toNat / 2 ∧ qy < st.regs.s.height.toNat / 2 ∧
      a = addr (st.regs.q j) qx qy ∧ v = st.mem.readWord (addr st.regs.s (fullX j qx) (fullY j qy))
  | .reconExact p => ∃ x y, x < 2 * (quadDims p st.regs).1 ∧ y < 2 * (quadDims p st.regs).2 ∧
      a = addr st.regs.s x y ∧ v = st.mem.readWord (addr (st.regs.q (phaseOf x y)) (x / 2) (y / 2))
  | .reconHeur p => ∃ x y, x < 2 * (quadDims p st.regs).1 ∧ y < 2 * (quadDims p st.regs).2 ∧
      a = addr st.regs.s x y ∧
      v = wordOf (heurBlock p (fun j => pixRead st.mem (st.regs.q j) (x / 2) (y / 2)) (phaseOf x y))
  | .reconInpaint p => ∃ x y, x < 2 * (quadDims p st.regs).1 ∧ y < 2 * (quadDims p st.regs).2 ∧
      a = addr st.regs.s x y ∧
      ∃ o, Canvas.at (inpaintFill p st.regs (st.canvas p)).canvas (2 * (quadDims p st.regs).1) x y = some o ∧ v = wordOf o

/-- Mask entry (nx, ny) at the moment the fill pass reaches pixel (x, y), in the closed form of R146. -/
abbrev ValidAt (p : BitVec 4) (x y nx ny : Nat) : Prop :=
  present p (phaseOf nx ny) = true ∨ ny < y ∨ (ny = y ∧ nx < x)

/-- The neighbours of (x, y) in an image F with the mask of R146: what R142 averages when the fill pass reaches (x, y). -/
def rasterNeighbours (p : BitVec 4) (W H : Nat) (F : Nat → Nat → Pixel) (x y : Nat) : List (F64 × Pixel) :=
  offsets.flatMap fun dy => offsets.filterMap fun dx =>
    let nx := (x : Int) + dx
    let ny := (y : Int) + dy
    if ((dx ≠ 0 ∨ dy ≠ 0) ∧ 0 ≤ nx ∧ nx < W ∧ 0 ≤ ny ∧ ny < H) ∧ ValidAt p x y nx.toNat ny.toNat then
      some (kernel (dist2 dx dy), F nx.toNat ny.toNat)
    else none

/-- A write by another agent to the n bytes from `lo` is no host protocol violation (R79): none of them lies in the span of
a descriptor that takes part in the command in flight. -/
def State.QuietWrite (st : State) (lo n : Nat) : Prop :=
  ∀ w i, st.phase.word? = some w → decode w = .ok i → ∀ part ∈ parts i st.regs, ∀ a, lo ≤ a → a < lo + n → ¬ part.Covers a

/-- A read by another agent of the n bytes from `lo` is no host protocol violation (R79): none of them lies in the span of
an output descriptor of the command in flight. -/
def State.QuietRead (st : State) (lo n : Nat) : Prop :=
  ∀ w i, st.phase.word? = some w → decode w = .ok i → ∀ part ∈ parts i st.regs, part.out = true →
    ∀ a, lo ≤ a → a < lo + n → ¬ part.Covers a

/-- The invariant of the machine. -/
structure State.Inv (st : State) : Prop where
  /-- Memory is in its canonical form, inside the 2^32 bytes of the space (R60). -/
  memory : Memory.wf st.mem = true
  /-- No working state outlives its command (R40): outside RUNNING there is none. -/
  discarded : (∀ w, st.phase ≠ .running w) → st.work = .empty
  /-- While BUSY = 1, CMD holds the word in flight, ERR reads 0 (R30) and both counters are 0 (R172). -/
  inFlight : ∀ w, st.phase.word? = some w →
    st.regs.cmd = w ∧ st.regs.err = .ok ∧ st.regs.fillCount = 0 ∧ st.regs.blackCount = 0
  /-- RUNNING is entered only by validation (R173), and nothing it checked changes while BUSY = 1 (R37). -/
  validated : ∀ w, st.phase = .running w → ∃ i, decode w = .ok i ∧ Validated i st.regs
  /-- A canvas belongs to RECON.INPAINT, has the size of its output (R136), and its mask is that of phase 1 (R137). -/
  canvas : ∀ c, st.work.canvas = some c → ∃ p, st.Running (.reconInpaint p) ∧
    c.length = 2 * (quadDims p st.regs).2 * (2 * (quadDims p st.regs).1) ∧
    ∀ x y, x < 2 * (quadDims p st.regs).1 → y < 2 * (quadDims p st.regs).2 →
      Canvas.mask c (2 * (quadDims p st.regs).1) x y = present p (phaseOf x y)

end Sys2Proof.Machine
end

