-- ==== Sys2Proof/Certificates/Slice0/Obligations.lean ====
section
/-! DEFINITION. The statements for the provers. Each docstring names the rule it formalises. `hostFault = false` is a premise
wherever a result of a command is stated (`20_memory.md` R79). -/

open Sys2Proof Sys2Proof.Machine

/-! ### Encoding -/

/-- R89: decoding by mask and match, no word in two rows, ILLEGAL where no row matches, and a RECON.* word with PRESENT = 0
decodes to its command, which validation refuses with NO_INPUT. -/
def Obligations.DecodeMatchesTheTable : Prop :=
  ∀ w : Word,
    (decode w = .ok .split ↔ w &&& 0xFFFFFFFF = 0x00000001) ∧
    (∀ p, decode w = .ok (.reconExact p) ↔ w &&& 0xFFFFFF0F = 0x00000002 ∧ presentField w = p) ∧
    (∀ p, decode w = .ok (.reconHeur p) ↔ w &&& 0xFFFFFF0F = 0x00000003 ∧ presentField w = p) ∧
    (∀ p, decode w = .ok (.reconInpaint p) ↔ w &&& 0xFFFFFF0F = 0x00000004 ∧ presentField w = p) ∧
    ((∃ k, decode w = .error k) ↔ w &&& 0xFFFFFFFF ≠ 0x00000001 ∧ w &&& 0xFFFFFF0F ≠ 0x00000002 ∧
      w &&& 0xFFFFFF0F ≠ 0x00000003 ∧ w &&& 0xFFFFFF0F ≠ 0x00000004) ∧
    (opcodeRows.countP (fun row => w &&& row.mask == row.mat) ≤ 1) ∧
    (∀ r, presentField w = 0 → 2 ≤ (opField w).toNat → (opField w).toNat ≤ 4 → rsvdField w = 0 →
      validateWord w r = .noInput)

/-- Decoding and encoding are inverse, in both directions: a word decodes to a command exactly when it is that command's
word. So every command with every mask comes back from its word, and no second word decodes to it. -/
def Obligations.DecodeExactlyInvertsEncode : Prop :=
  ∀ (w : Word) (i : Instr), decode w = .ok i ↔ encode i = w

/-- R90: the illegal words are the four kinds listed; such a word still launches, and validation then ends it with
ILLEGAL_CMD, with no memory access and no register change other than those of R175. The engine has the turn where the
script is empty or its turn is at the head (log 8). -/
def Obligations.IllegalWordsEndWithIllegalCmd : Prop :=
  ∀ w : Word,
    ((∃ k, decode w = .error k) ↔ opField w = 0 ∨ 5 ≤ (opField w).toNat ∨ rsvdField w ≠ 0 ∨
      (opField w = 1 ∧ presentField w ≠ 0)) ∧
    ∀ k, decode w = .error k → ∀ st : State,
      (∀ rest, st.phase = .idle → st.inputs = .sw 0x008 4 w :: rest → ∃ t, step st = .next t ∧ t.phase = .pending w) ∧
      (st.phase = .pending w → ∀ rest, (st.inputs = [] ∧ rest = []) ∨ st.inputs = .engine :: rest → step st = .next
        { st with
          inputs := rest
          phase := .idle
          work := .empty
          regs := { st.regs with err := .illegalCmd, irqStatus := st.regs.irqStatus ||| 0b010 } })

/-- A few words of `95_test_vectors.md` written out: each decodes to the command it stands for, or to its kind of illegal
word. -/
def Obligations.SampleWordsDecode : Prop :=
  decode 0x00000001 = .ok .split ∧ decode 0x000000F2 = .ok (.reconExact 0b1111) ∧
  decode 0x00000093 = .ok (.reconHeur 0b1001) ∧ decode 0x00000074 = .ok (.reconInpaint 0b0111) ∧
  decode 0x00000002 = .ok (.reconExact 0) ∧ decode 0x00000011 = .error .splitPresent ∧
  decode 0x00000101 = .error .rsvdNonZero ∧ decode 0x00000000 = .error .opZero ∧
  decode 0x00000005 = .error .opReserved

/-- R93 and R94: the words of the assembly syntax, with a mask written as a number or as a list of quadrants, the default
mask of `recon.exact`, and what the assembler rejects. The text of a line is not parsed (log 17). -/
def Obligations.AssemblerWords : Prop :=
  assemble (.split none) = some 0x00000001 ∧
  (∀ m, assemble (.split (some m)) = none) ∧
  (∀ m, m ≤ 15 → assemble (.reconExact (some (.bits m))) = some (0x00000002 ||| BitVec.ofNat 32 m <<< 4)) ∧
  (∀ m, m ≤ 15 → assemble (.reconHeur (some (.bits m))) = some (0x00000003 ||| BitVec.ofNat 32 m <<< 4)) ∧
  (∀ m, m ≤ 15 → assemble (.reconInpaint (some (.bits m))) = some (0x00000004 ||| BitVec.ofNat 32 m <<< 4)) ∧
  (∀ m, 15 < m → assemble (.reconExact (some (.bits m))) = none ∧ assemble (.reconHeur (some (.bits m))) = none ∧
    assemble (.reconInpaint (some (.bits m))) = none) ∧
  (∀ qs, assemble (.reconExact (some (.names qs))) = some (0x00000002 ||| BitVec.ofNat 32 (MaskLit.names qs).value <<< 4) ∧
    assemble (.reconHeur (some (.names qs))) = some (0x00000003 ||| BitVec.ofNat 32 (MaskLit.names qs).value <<< 4) ∧
    assemble (.reconInpaint (some (.names qs))) = some (0x00000004 ||| BitVec.ofNat 32 (MaskLit.names qs).value <<< 4) ∧
    ∀ j : Quad, (MaskLit.names qs).value.testBit j = decide (j ∈ qs)) ∧
  assemble (.reconExact none) = some 0x000000F2 ∧ assemble (.reconHeur none) = none ∧
  assemble (.reconInpaint none) = none ∧
  (∀ v, assemble (.word v) = some v)

/-! ### The step -/

/-- The engine's turn runs the decoded command: with the script empty, or with the engine's turn at its head, a step of a
busy machine is `exec` of the command that the word in flight decodes to; and a word placed by `withFetchWord` is the one
that the next step runs. The script of steps and `withFetchWord` are the model's (log 8, log 9). -/
def Obligations.EngineStepRunsTheDecodedCommand : Prop :=
  (∀ (st : State) (w : Word) (i : Instr), st.phase.word? = some w → decode w = .ok i →
    (st.inputs = [] → step st = exec i st) ∧
    (∀ rest, st.inputs = .engine :: rest → step st = exec i { st with inputs := rest })) ∧
  (∀ (st : State) (i : Instr), step (st.withFetchWord 32 (encode i).toNat) =
    exec i { st with
      regs := { st.regs with cmd := encode i, err := .ok, fillCount := 0, blackCount := 0 }
      phase := .pending (encode i)
      work := .empty })

/-- R187 and R21: in IDLE the engine takes no step, and it "never starts a command by itself": only a host write to CMD
takes the machine out of IDLE. The engine has the turn where the script is empty or its turn is at the head (log 8). -/
def Obligations.OnlyACmdWriteStartsACommand : Prop :=
  (∀ st : State, st.phase = .idle → (st.inputs = [] → step st = .next st) ∧
    ∀ rest, st.inputs = .engine :: rest → step st = .next { st with inputs := rest }) ∧
  ∀ st t : State, step st = .next t → st.phase = .idle → t.phase ≠ .idle →
    ∃ w rest, st.inputs = .sw 0x008 4 w :: rest ∧ t.phase = .pending w

/-- R172: the launch step, the whole next state; and a write to CMD while BUSY = 1 is no launch. -/
def Obligations.CmdWriteLaunches : Prop :=
  ∀ (st : State) (w : Word) (rest : List Event), st.inputs = .sw 0x008 4 w :: rest →
    (st.phase = .idle → step st = .next
      { st with
        inputs := rest
        answer := some .writeOk
        regs := { st.regs with cmd := w, err := .ok, fillCount := 0, blackCount := 0 }
        phase := .pending w
        work := .empty }) ∧
    (st.phase ≠ .idle → ∃ t, step st = .next t ∧ t.phase = st.phase ∧ t.regs.cmd = st.regs.cmd ∧ t.work = st.work)

/-- R37: while BUSY = 1 a write to CMD or to a descriptor register is ignored, completes OK and sets WBUSY; writes to CTRL,
IRQ_STATUS and IRQ_ENABLE take effect in every phase; writes to read-only or unmapped offsets are ignored in every phase and
never set WBUSY. -/
def Obligations.BusyWritesAreIgnored : Prop :=
  ∀ (st : State) (off : BitVec 8) (v : Word) (rest : List Event), off.toNat % 4 = 0 → st.inputs = .sw off 4 v :: rest →
    (st.phase.busy = true → off = 0x008 ∨ (0x020 ≤ off.toNat ∧ off.toNat ≤ 0x06F) → step st = .next
      { st with
        inputs := rest
        answer := some .writeOk
        regs := { st.regs with irqStatus := st.regs.irqStatus ||| 0b100 } }) ∧
    (off = 0x004 → v.getLsbD 0 = true → ∃ t, step st = .next t ∧ t.regs = Regs.reset ∧ t.phase = .idle) ∧
    (off = 0x004 → v.getLsbD 0 = false → step st = .next { st with inputs := rest, answer := some .writeOk }) ∧
    (off = 0x010 → step st = .next
      { st with
        inputs := rest
        answer := some .writeOk
        regs := { st.regs with irqStatus := st.regs.irqStatus &&& ~~~(v.extractLsb' 0 3) } }) ∧
    (off = 0x014 → step st = .next
      { st with
        inputs := rest
        answer := some .writeOk
        regs := { st.regs with irqEnable := v.extractLsb' 0 3 } }) ∧
    (off = 0x000 ∨ off = 0x00C ∨ off = 0x018 ∨ off = 0x01C ∨ 0x070 ≤ off.toNat →
      step st = .next { st with inputs := rest, answer := some .writeOk })

/-- R25, but for writes while busy (R37): a transaction of another size or alignment completes with ERR and changes
nothing; a mapped offset reads the word of its register; an unmapped offset reads 0 and ignores writes; read-only registers
ignore writes; reserved bits read 0, and two writes that differ in reserved bits only do the same. -/
def Obligations.PortAccessRules : Prop :=
  ∀ (st : State) (off : BitVec 8) (size : Nat) (v : Word) (rest : List Event),
    (st.inputs = .sw off size v :: rest → size ≠ 4 ∨ off.toNat % 4 ≠ 0 →
      step st = .next { st with inputs := rest, answer := some .err }) ∧
    (st.inputs = .lw off size :: rest → size ≠ 4 ∨ off.toNat % 4 ≠ 0 →
      step st = .next { st with inputs := rest, answer := some .err }) ∧
    (st.inputs = .lw off size :: rest → size = 4 → off.toNat % 4 = 0 →
      ∃ u, step st = .next { st with inputs := rest, answer := some (.readOk u) } ∧
        (∀ n, regAt off = some n → u = st.readReg n) ∧
        (0x070 ≤ off.toNat → u = 0) ∧
        (off = 0x004 → u = 0) ∧
        (off = 0x00C → u &&& 0xFFFFFF0E = 0) ∧
        (off = 0x010 ∨ off = 0x014 → u &&& 0xFFFFFFF8 = 0) ∧
        (0x020 ≤ off.toNat → off.toNat % 16 = 4 ∨ off.toNat % 16 = 8 → u &&& 0xFFFF0000 = 0)) ∧
    (st.inputs = .sw off size v :: rest → size = 4 → off.toNat % 4 = 0 →
      off = 0x000 ∨ off = 0x00C ∨ off = 0x018 ∨ off = 0x01C ∨ 0x070 ≤ off.toNat →
      step st = .next { st with inputs := rest, answer := some .writeOk }) ∧
    (st.inputs = .sw off size v :: rest → size = 4 → off.toNat % 4 = 0 → ∀ v' : Word,
      (off = 0x004 ∧ v &&& 0x00000001 = v' &&& 0x00000001) ∨
        ((off = 0x010 ∨ off = 0x014) ∧ v &&& 0x00000007 = v' &&& 0x00000007) ∨
        (0x020 ≤ off.toNat ∧ off.toNat ≤ 0x06F ∧ (off.toNat % 16 = 4 ∨ off.toNat % 16 = 8) ∧
          v &&& 0x0000FFFF = v' &&& 0x0000FFFF) →
      step st = step { st with inputs := .sw off size v' :: rest })

/-- R33: "any 32-bit value (BASE, STRIDE) or 16-bit value (WIDTH, HEIGHT) can be written and read back" while the engine is
not busy; a write to one register of one descriptor changes nothing else. -/
def Obligations.DescriptorWriteReadsBack : Prop :=
  ∀ (st : State) (off : BitVec 8) (v : Word) (rest : List Event) (d : DescName) (f : DescField),
    st.phase = .idle → off.toNat % 4 = 0 → regAt off = some (.desc d f) → st.inputs = .sw off 4 v :: rest →
    ∃ t, step st = .next t ∧
      t.readReg (.desc d f) = (match f with | .base | .stride => v | .width | .height => v &&& 0x0000FFFF) ∧
      (∀ n, n ≠ .desc d f → t.readReg n = st.readReg n) ∧
      t.answer = some .writeOk ∧ t.inputs = rest ∧ t.phase = .idle ∧ t.work = st.work ∧ t.mem = st.mem ∧ t.bus = st.bus ∧
      t.hostFault = st.hostFault ∧ t.draws = st.draws

/-- R197, with the registers of R26 to R36: a register write takes effect in its own step, and a read of the same offset in
the next step returns the new value. The exceptions: read-only registers and reserved bits keep what they read, bits of
IRQ_STATUS are cleared by writing 1, CTRL reads 0, and while busy CMD and the descriptors keep their values. -/
def Obligations.NextReadReturnsTheNewValue : Prop :=
  ∀ (st : State) (off : BitVec 8) (v : Word) (rest : List Event), off.toNat % 4 = 0 →
    st.inputs = .sw off 4 v :: .lw off 4 :: rest →
    ∃ t s u, step st = .next t ∧ step t = .next s ∧ s.answer = some (.readOk u) ∧ s.inputs = rest ∧
      (off = 0x000 → u = 0x49503207) ∧
      (off = 0x004 → u = 0) ∧
      (off = 0x008 → u = if st.phase = .idle then v else st.regs.cmd) ∧
      (off = 0x00C → u = st.readReg .status) ∧
      (off = 0x010 → u = st.regs.irqStatus.zeroExtend 32 &&& ~~~v) ∧
      (off = 0x014 → u = v &&& 0x00000007) ∧
      (off = 0x018 → u = st.regs.fillCount) ∧
      (off = 0x01C → u = st.regs.blackCount) ∧
      (∀ d f, regAt off = some (.desc d f) → u =
        if st.phase = .idle then (match f with | .base | .stride => v | .width | .height => v &&& 0x0000FFFF)
        else st.readReg (.desc d f)) ∧
      (0x070 ≤ off.toNat → u = 0)

/-- R26: the offsets of the map, and the reset value every offset reads. -/
def Obligations.RegisterMapAndResetValues : Prop :=
  regAt 0x000 = some .id ∧ regAt 0x004 = some .ctrl ∧ regAt 0x008 = some .cmd ∧ regAt 0x00C = some .status ∧
  regAt 0x010 = some .irqStatus ∧ regAt 0x014 = some .irqEnable ∧ regAt 0x018 = some .fillCount ∧
  regAt 0x01C = some .blackCount ∧
  regAt 0x020 = some (.desc .s .base) ∧ regAt 0x024 = some (.desc .s .width) ∧ regAt 0x028 = some (.desc .s .height) ∧
  regAt 0x02C = some (.desc .s .stride) ∧
  (∀ i : Quad, regAt (0x030 + 16 * BitVec.ofNat 8 i) = some (.desc (.q i) .base) ∧
    regAt (0x034 + 16 * BitVec.ofNat 8 i) = some (.desc (.q i) .width) ∧
    regAt (0x038 + 16 * BitVec.ofNat 8 i) = some (.desc (.q i) .height) ∧
    regAt (0x03C + 16 * BitVec.ofNat 8 i) = some (.desc (.q i) .stride)) ∧
  (∀ off : BitVec 8, 0x070 ≤ off.toNat → regAt off = none) ∧
  (∀ off : BitVec 8, off.toNat % 4 = 0 →
    (State.reset.portRead off 4).answer = some (.readOk (if off = 0 then 0x49503207 else 0)))

/-- R30: the layout of STATUS in every state: BUSY in bit 0, the number of the error code in bits [7:4], the rest 0; and
while BUSY = 1 in a state of the invariant, ERR reads 0. -/
def Obligations.StatusWordLayout : Prop :=
  ∀ st : State,
    ((st.readReg .status).getLsbD 0 = true ↔ st.phase ≠ .idle) ∧
    (st.readReg .status).extractLsb' 4 4 = st.regs.err.code ∧
    st.readReg .status &&& 0xFFFFFF0E = 0 ∧
    (st.Inv → st.phase ≠ .idle → st.readReg .status = 0x00000001)

/-- R160: the numbers of the error codes; they are told apart by their number, and 9-15 are never reported. -/
def Obligations.ErrorCodeTable : Prop :=
  ErrCode.ok.code = 0 ∧ ErrCode.invalidDimensions.code = 1 ∧ ErrCode.noInput.code = 2 ∧
  ErrCode.dimensionMismatch.code = 3 ∧ ErrCode.incompleteInput.code = 4 ∧ ErrCode.illegalCmd.code = 5 ∧
  ErrCode.invalidDescriptor.code = 6 ∧ ErrCode.overlap.code = 7 ∧ ErrCode.busError.code = 8 ∧
  ∀ e f : ErrCode, e.code.toNat ≤ 8 ∧ (e.code = f.code → e = f)

/-- R32: `irq` is the level of the masked OR, in every state; bits [2:0] of IRQ_ENABLE are written in every phase, and
clearing an enable bit leaves the event bits alone. -/
def Obligations.IrqLevelIsMaskedOr : Prop :=
  (∀ st : State, st.regs.irq = true ↔ ∃ k < 3, st.regs.irqStatus.getLsbD k = true ∧ st.regs.irqEnable.getLsbD k = true) ∧
  ∀ (st : State) (v : Word) (rest : List Event), st.inputs = .sw 0x014 4 v :: rest →
    ∃ t, step st = .next t ∧ (∀ k < 3, t.regs.irqEnable.getLsbD k = v.getLsbD k) ∧ t.regs.irqStatus = st.regs.irqStatus ∧
      t.readReg .irqEnable = v &&& 0x00000007

/-- R31 and R41, over every step: an event bit is cleared only by a host write of 1 to it or by a reset; DONE is set only by
a completion, ERROR only by the end of a command with an error, WBUSY only by an ignored write. -/
def Obligations.IrqStatusBitsAreSticky : Prop :=
  ∀ st t : State, step st = .next t → ∀ k < 3,
    (st.regs.irqStatus.getLsbD k = true → t.regs.irqStatus.getLsbD k = false →
      (∃ rest, st.inputs = .rst :: rest) ∨
      (∃ v rest, st.inputs = .sw 0x004 4 v :: rest ∧ v.getLsbD 0 = true) ∨
      (∃ v rest, st.inputs = .sw 0x010 4 v :: rest ∧ v.getLsbD k = true)) ∧
    (st.regs.irqStatus.getLsbD k = false → t.regs.irqStatus.getLsbD k = true →
      (k = 0 ∧ (∃ w, st.phase = .running w) ∧ t.phase = .idle ∧ t.regs.err = .ok) ∨
      (k = 1 ∧ st.phase ≠ .idle ∧ t.phase = .idle ∧ t.regs.err ≠ .ok) ∨
      (k = 2 ∧ st.phase ≠ .idle ∧ t.phase = st.phase ∧ ∃ off v rest, st.inputs = .sw off 4 v :: rest ∧
        (off = 0x008 ∨ (0x020 ≤ off.toNat ∧ off.toNat ≤ 0x06F))))

/-! ### Reset -/

/-- R191, R193, R194 and R44, for both reset sources of R190: one step gives every register its reset value, phase IDLE, no
working state and `irq` = 0; memory is unchanged unless a command was RUNNING; `host_fault` stays. -/
def Obligations.ResetStep : Prop :=
  ∀ (st : State) (rest : List Event) (a : Option PortAnswer),
    ((st.inputs = .rst :: rest ∧ a = st.answer) ∨
      (∃ v, v.getLsbD 0 = true ∧ st.inputs = .sw 0x004 4 v :: rest ∧ a = some .writeOk)) →
    ∃ m, step st = .next { st with
        inputs := rest, answer := a, regs := Regs.reset, phase := .idle, work := .empty, mem := m } ∧
      ((∀ w, st.phase ≠ .running w) → m = st.mem) ∧
      Regs.reset.irq = false ∧ Regs.reset.irqEnable = 0 ∧ Regs.reset.irqStatus = 0

/-- R192: a reset in RUNNING leaves each output pixel word with its value from before or its final value, and every other
byte unchanged; no DONE or ERROR event is recorded. -/
def Obligations.ResetDuringRunMixes : Prop :=
  ∀ (st t : State) (i : Instr), st.Running i → Validated i st.regs → Memory.wf st.mem = true → st.Safe →
    (∃ rest, st.inputs = .rst :: rest) ∨ (∃ v rest, st.inputs = .sw 0x004 4 v :: rest ∧ v.getLsbD 0 = true) →
    step st = .next t →
    (∀ a v, st.Final i a v → t.mem.readWord a = v ∨ t.mem.readWord a = st.mem.readWord a) ∧
    (∀ a, ¬ InOutput i st.regs a → t.mem.read a = st.mem.read a) ∧
    t.regs.irqStatus = 0

/-! ### Memory and pixels -/

/-- R61: the word at an address is its four bytes, least significant first; a written word puts byte k of the value at
address + k and leaves every other byte alone. -/
def Obligations.LittleEndianWords : Prop :=
  (∀ (m : Memory) (a : Nat), (m.readWord a).toNat = (m.read a).toNat + 2 ^ 8 * (m.read (a + 1)).toNat +
    2 ^ 16 * (m.read (a + 2)).toNat + 2 ^ 24 * (m.read (a + 3)).toNat) ∧
  ∀ (m : Memory) (a : Nat) (v : Word), Memory.wf m = true → a + 4 ≤ 2 ^ 32 →
    (∀ k < 4, (m.writeWord a v).read (a + k) = v.extractLsb' (8 * k) 8) ∧
    (∀ b, b < a ∨ a + 4 ≤ b → (m.writeWord a v).read b = m.read b) ∧
    Memory.wf (m.writeWord a v) = true

/-- R62: a pixel word is `{a, r, g, b}`, a in bits [31:24] down to b in bits [7:0]; every word is a pixel and back; in memory
the byte at the pixel's address holds b, then g, r and a follow. -/
def Obligations.PixelWordLayout : Prop :=
  (∀ p : Pixel, (wordOf p).extractLsb' 24 8 = p.a ∧ (wordOf p).extractLsb' 16 8 = p.r ∧ (wordOf p).extractLsb' 8 8 = p.g ∧
    (wordOf p).extractLsb' 0 8 = p.b ∧ pixelOf (wordOf p) = p) ∧
  (∀ w : Word, wordOf (pixelOf w) = w) ∧
  ∀ (m : Memory) (a : Nat) (p : Pixel), Memory.wf m = true → a + 4 ≤ 2 ^ 32 →
    (m.writeWord a (wordOf p)).read a = p.b ∧ (m.writeWord a (wordOf p)).read (a + 1) = p.g ∧
    (m.writeWord a (wordOf p)).read (a + 2) = p.r ∧ (m.writeWord a (wordOf p)).read (a + 3) = p.a

/-! ### Validation -/

/-- R171, both branches: the code reported is that of the first check that fails, in the order of the rule. -/
def Obligations.ValidationOrder : Prop :=
  (∀ w r k, decode w = .error k → validateWord w r = .illegalCmd) ∧
  (∀ w r, decode w = .ok .split → ∀ dims desc ov : Prop,
    (dims ↔ r.s.width.toNat = 0 ∨ r.s.height.toNat = 0 ∨ r.s.width.toNat % 2 = 1 ∨ r.s.height.toNat % 2 = 1) →
    (desc ↔ ¬ Legal r.s r.s.width.toNat r.s.height.toNat ∨
      ∃ i, ¬ Legal (r.q i) (r.s.width.toNat / 2) (r.s.height.toNat / 2)) →
    (ov ↔ (∃ i, spanLo r.s < spanHi (r.q i) (r.s.width.toNat / 2) (r.s.height.toNat / 2) ∧
        spanLo (r.q i) < spanHi r.s r.s.width.toNat r.s.height.toNat) ∨
      ∃ i j, i ≠ j ∧ spanLo (r.q i) < spanHi (r.q j) (r.s.width.toNat / 2) (r.s.height.toNat / 2) ∧
        spanLo (r.q j) < spanHi (r.q i) (r.s.width.toNat / 2) (r.s.height.toNat / 2)) →
    (dims → validateWord w r = .invalidDimensions) ∧ (¬ dims → desc → validateWord w r = .invalidDescriptor) ∧
    (¬ dims → ¬ desc → ov → validateWord w r = .overlap) ∧ (¬ dims → ¬ desc → ¬ ov → validateWord w r = .ok)) ∧
  (∀ w r p, decode w = .ok (.reconExact p) ∨ decode w = .ok (.reconHeur p) ∨ decode w = .ok (.reconInpaint p) →
    ∀ (qw qh : Nat) (exactNeedsAll mismatch dims desc ov : Prop),
    (∀ i, present p i = true → (∀ j, present p j = true → i ≤ j) → (r.q i).width.toNat = qw ∧ (r.q i).height.toNat = qh) →
    (exactNeedsAll ↔ decode w = .ok (.reconExact p) ∧ p ≠ 0b1111) →
    (mismatch ↔ ∃ i j, present p i = true ∧ present p j = true ∧
      ((r.q i).width ≠ (r.q j).width ∨ (r.q i).height ≠ (r.q j).height)) →
    (dims ↔ qw = 0 ∨ qh = 0 ∨ 0x7FFF < qw ∨ 0x7FFF < qh) →
    (desc ↔ (∃ i, present p i = true ∧ ¬ Legal (r.q i) qw qh) ∨ ¬ Legal r.s (2 * qw) (2 * qh)) →
    (ov ↔ ∃ i, present p i = true ∧ spanLo r.s < spanHi (r.q i) qw qh ∧ spanLo (r.q i) < spanHi r.s (2 * qw) (2 * qh)) →
    (p = 0 → validateWord w r = .noInput) ∧ (p ≠ 0 → exactNeedsAll → validateWord w r = .incompleteInput) ∧
    (p ≠ 0 → ¬ exactNeedsAll → mismatch → validateWord w r = .dimensionMismatch) ∧
    (p ≠ 0 → ¬ exactNeedsAll → ¬ mismatch → dims → validateWord w r = .invalidDimensions) ∧
    (p ≠ 0 → ¬ exactNeedsAll → ¬ mismatch → ¬ dims → desc → validateWord w r = .invalidDescriptor) ∧
    (p ≠ 0 → ¬ exactNeedsAll → ¬ mismatch → ¬ dims → ¬ desc → ov → validateWord w r = .overlap) ∧
    (p ≠ 0 → ¬ exactNeedsAll → ¬ mismatch → ¬ dims → ¬ desc → ¬ ov → validateWord w r = .ok))

/-- R173 and R175: the validation step of every command, the whole next state. An error ends the command and touches neither
memory nor any other register; otherwise the output dimensions are written back and the phase becomes RUNNING. -/
def Obligations.ValidationStep : Prop :=
  ∀ (st : State) (w : Word) (i : Instr), st.phase = .pending w → decode w = .ok i →
    (validate i st.regs ≠ .ok → exec i st = .next
      { st with
        phase := .idle
        work := .empty
        regs := { st.regs with err := validate i st.regs, irqStatus := st.regs.irqStatus ||| 0b010 } }) ∧
    (validate i st.regs = .ok → ∃ r, exec i st = .next
        { st with phase := .running w, work := ⟨st.draws, none⟩, draws := st.draws + 1, regs := r } ∧
      (i = .split → (∀ j, r.q j = { st.regs.q j with
          width := BitVec.ofNat 16 (st.regs.s.width.toNat / 2), height := BitVec.ofNat 16 (st.regs.s.height.toNat / 2) }) ∧
        r = { st.regs with q0 := r.q0, q1 := r.q1, q2 := r.q2, q3 := r.q3 }) ∧
      (∀ p, i = .reconExact p ∨ i = .reconHeur p ∨ i = .reconInpaint p → r = { st.regs with
        s := { st.regs.s with
          width := BitVec.ofNat 16 (2 * (quadDims p st.regs).1), height := BitVec.ofNat 16 (2 * (quadDims p st.regs).2) } }))

/-! ### The commands -/

/-- R100: the run of SPLIT completes where every pixel word answers OK. Pixel (qx, qy) of Qi becomes pixel
(2·qx + (i & 1), 2·qy + (i >> 1)) of S; every byte outside the output pixel words, row padding included, is unchanged (R69);
of the registers only IRQ_STATUS.DONE and STATUS change (R174). -/
def Obligations.SplitCompletes : Prop :=
  ∀ st : State, st.Running .split → Validated .split st.regs → Memory.wf st.mem = true → st.Safe → st.PixelsAnswer .split →
    ∃ m, exec .split st = .next
        { st with
          mem := m
          phase := .idle
          work := .empty
          regs := { st.regs with err := .ok, irqStatus := st.regs.irqStatus ||| 0b001 } } ∧
      (∀ (i : Quad) (qx qy : Nat), qx < st.regs.s.width.toNat / 2 → qy < st.regs.s.height.toNat / 2 →
        m.readWord (addr (st.regs.q i) qx qy) =
          st.mem.readWord (addr st.regs.s (2 * qx + i.val % 2) (2 * qy + i.val / 2))) ∧
      (∀ a, (∀ (i : Quad) (qx qy : Nat), qx < st.regs.s.width.toNat / 2 → qy < st.regs.s.height.toNat / 2 →
        a < addr (st.regs.q i) qx qy ∨ addr (st.regs.q i) qx qy + 4 ≤ a) → m.read a = st.mem.read a)

/-- R103: the run of RECON.EXACT completes where every pixel word answers OK. Pixel (x, y) of S becomes pixel
(x >> 1, y >> 1) of the quadrant phase(x, y); every other byte is unchanged; of the registers only IRQ_STATUS.DONE and
STATUS change. -/
def Obligations.ExactCompletes : Prop :=
  ∀ (p : BitVec 4) (st : State), st.Running (.reconExact p) → Validated (.reconExact p) st.regs →
    Memory.wf st.mem = true → st.Safe → st.PixelsAnswer (.reconExact p) →
    p = 0b1111 ∧ ∃ m, exec (.reconExact p) st = .next
        { st with
          mem := m
          phase := .idle
          work := .empty
          regs := { st.regs with err := .ok, irqStatus := st.regs.irqStatus ||| 0b001 } } ∧
      (∀ x y, x < 2 * st.regs.q0.width.toNat → y < 2 * st.regs.q0.height.toNat →
        m.readWord (addr st.regs.s x y) = st.mem.readWord (addr (st.regs.q (phaseOf x y)) (x / 2) (y / 2))) ∧
      (∀ a, (∀ x y, x < 2 * st.regs.q0.width.toNat → y < 2 * st.regs.q0.height.toNat →
        a < addr st.regs.s x y ∨ addr st.regs.s x y + 4 ≤ a) → m.read a = st.mem.read a)

/-- R115 and R116: the run of RECON.HEUR completes where every pixel word answers OK. Corner j of block (bx, by) of S becomes
`heur_block` of the block's candidates; every other byte is unchanged; of the registers only IRQ_STATUS.DONE and STATUS
change. -/
def Obligations.HeurCompletes : Prop :=
  ∀ (p : BitVec 4) (st : State), st.Running (.reconHeur p) → Validated (.reconHeur p) st.regs →
    Memory.wf st.mem = true → st.Safe → st.PixelsAnswer (.reconHeur p) →
    ∃ m, exec (.reconHeur p) st = .next
        { st with
          mem := m
          phase := .idle
          work := .empty
          regs := { st.regs with err := .ok, irqStatus := st.regs.irqStatus ||| 0b001 } } ∧
      (∀ (bx cy : Nat) (j : Quad), bx < (quadDims p st.regs).1 → cy < (quadDims p st.regs).2 →
        m.readWord (addr st.regs.s (2 * bx + j.val % 2) (2 * cy + j.val / 2)) =
          wordOf (heurBlock p (fun i => pixRead st.mem (st.regs.q i) bx cy) j)) ∧
      (∀ a, (∀ x y, x < 2 * (quadDims p st.regs).1 → y < 2 * (quadDims p st.regs).2 →
        a < addr st.regs.s x y ∨ addr st.regs.s x y + 4 ≤ a) → m.read a = st.mem.read a)

/-- R128: the complete case table of `heur_block`, corner by corner (TL, TR, BL, BR), for any candidates. -/
def Obligations.HeurBlockTable : Prop :=
  ∀ c : Quad → Pixel,
    let row (p : BitVec 4) (tl tr bl br : Pixel) : Prop :=
      heurBlock p c 0 = tl ∧ heurBlock p c 1 = tr ∧ heurBlock p c 2 = bl ∧ heurBlock p c 3 = br
    row 0b0000 .black .black .black .black ∧
    row 0b0001 (c 0) (c 0) (c 0) (c 0) ∧
    row 0b0010 (c 1) (c 1) (c 1) (c 1) ∧
    row 0b0011 (c 0) (c 1) (c 0) (c 1) ∧
    row 0b0100 (c 2) (c 2) (c 2) (c 2) ∧
    row 0b0101 (c 0) (c 0) (c 2) (c 2) ∧
    row 0b0110 (mean2 (c 1) (c 2)) (c 1) (c 2) (mean2 (c 1) (c 2)) ∧
    row 0b0111 (c 0) (c 1) (c 2) (mean3 (c 0) (c 1) (c 2)) ∧
    row 0b1000 (c 3) (c 3) (c 3) (c 3) ∧
    row 0b1001 (c 0) (mean2 (c 0) (c 3)) (mean2 (c 0) (c 3)) (c 3) ∧
    row 0b1010 (c 1) (c 1) (c 3) (c 3) ∧
    row 0b1011 (c 0) (c 1) (mean3 (c 0) (c 1) (c 3)) (c 3) ∧
    row 0b1100 (c 2) (c 3) (c 2) (c 3) ∧
    row 0b1101 (c 0) (mean3 (c 0) (c 2) (c 3)) (c 2) (c 3) ∧
    row 0b1110 (mean3 (c 1) (c 2) (c 3)) (c 1) (c 2) (c 3) ∧
    row 0b1111 (c 0) (c 1) (c 2) (c 3)

/-- R125 and R126: the means of each of the four channels are the exact integer sums divided and truncated, lie between the
smallest and the largest operand, and do not depend on the order of the operands. -/
def Obligations.ChannelMeansTruncate : Prop :=
  (∀ x y : Byte, (chanMean2 x y).toNat = (x.toNat + y.toNat) / 2 ∧
    min x.toNat y.toNat ≤ (chanMean2 x y).toNat ∧ (chanMean2 x y).toNat ≤ max x.toNat y.toNat ∧
    chanMean2 x y = chanMean2 y x) ∧
  (∀ x y z : Byte, (chanMean3 x y z).toNat = (x.toNat + y.toNat + z.toNat) / 3 ∧
    min x.toNat (min y.toNat z.toNat) ≤ (chanMean3 x y z).toNat ∧
    (chanMean3 x y z).toNat ≤ max x.toNat (max y.toNat z.toNat) ∧
    chanMean3 x y z = chanMean3 y x z ∧ chanMean3 x y z = chanMean3 x z y) ∧
  (∀ p q : Pixel, mean2 p q = ⟨chanMean2 p.a q.a, chanMean2 p.r q.r, chanMean2 p.g q.g, chanMean2 p.b q.b⟩) ∧
  (∀ p q s : Pixel, mean3 p q s =
    ⟨chanMean3 p.a q.a s.a, chanMean3 p.r q.r s.r, chanMean3 p.g q.g s.g, chanMean3 p.b q.b s.b⟩)

/-- R137: phase 1 of RECON.INPAINT, the first of the two steps of its run in this model (log 7). Where every pixel word
answers OK, every full-size pixel of a present phase takes its quadrant's pixel and becomes valid, the others stay invalid,
and nothing but the working state changes. -/
def Obligations.InpaintScatters : Prop :=
  ∀ (p : BitVec 4) (st : State), st.Running (.reconInpaint p) → Validated (.reconInpaint p) st.regs →
    st.work.canvas = none → st.PixelsAnswer (.reconInpaint p) →
    ∃ cv : Canvas, exec (.reconInpaint p) st = .next { st with work := { st.work with canvas := some cv } } ∧
      cv.length = 2 * (quadDims p st.regs).2 * (2 * (quadDims p st.regs).1) ∧
      ∀ x y, x < 2 * (quadDims p st.regs).1 → y < 2 * (quadDims p st.regs).2 →
        Canvas.at cv (2 * (quadDims p st.regs).1) x y =
          if present p (phaseOf x y) then some (pixRead st.mem (st.regs.q (phaseOf x y)) (x / 2) (y / 2)) else none

/-- R135 and R140-R149: phase 2 of RECON.INPAINT, which is a step of its own by the model's choice (log 7), completes the
command where every pixel word answers OK. The image F that S
holds afterwards keeps every pixel of a present phase, and every other pixel is the weighted mean, as R142 computes it, of
the pixels of F in its window that are of a present phase or come earlier in raster order (R146): the in-place raster order
of R145. Every other byte is unchanged; FILL_COUNT and BLACK_COUNT are as R148 says; of the other registers only
IRQ_STATUS.DONE and STATUS change. -/
def Obligations.InpaintCompletes : Prop :=
  ∀ (p : BitVec 4) (st : State) (cv : Canvas), st.Running (.reconInpaint p) → Validated (.reconInpaint p) st.regs →
    Memory.wf st.mem = true → st.Safe → st.PixelsAnswer (.reconInpaint p) → st.work.canvas = some cv →
    cv.length = 2 * (quadDims p st.regs).2 * (2 * (quadDims p st.regs).1) →
    (∀ x y, x < 2 * (quadDims p st.regs).1 → y < 2 * (quadDims p st.regs).2 →
      Canvas.mask cv (2 * (quadDims p st.regs).1) x y = present p (phaseOf x y)) →
    ∃ (m : Memory) (F : Nat → Nat → Pixel),
      exec (.reconInpaint p) st = .next
        { st with
          mem := m
          phase := .idle
          work := .empty
          regs := { st.regs with
            err := .ok
            irqStatus := st.regs.irqStatus ||| 0b001
            fillCount := BitVec.ofNat 32 ((4 - popcount p) * (quadDims p st.regs).1 * (quadDims p st.regs).2)
            blackCount := 0 } } ∧
      (4 - popcount p) * (quadDims p st.regs).1 * (quadDims p st.regs).2 < 2 ^ 32 ∧
      (∀ x y, x < 2 * (quadDims p st.regs).1 → y < 2 * (quadDims p st.regs).2 →
        m.readWord (addr st.regs.s x y) = wordOf (F x y) ∧
        (present p (phaseOf x y) = true → Canvas.at cv (2 * (quadDims p st.regs).1) x y = some (F x y)) ∧
        (present p (phaseOf x y) = false →
          rasterNeighbours p (2 * (quadDims p st.regs).1) (2 * (quadDims p st.regs).2) F x y ≠ [] ∧
          F x y = weightedMean
            (rasterNeighbours p (2 * (quadDims p st.regs).1) (2 * (quadDims p st.regs).2) F x y))) ∧
      (∀ a, (∀ x y, x < 2 * (quadDims p st.regs).1 → y < 2 * (quadDims p st.regs).2 →
        a < addr st.regs.s x y ∨ addr st.regs.s x y + 4 ≤ a) → m.read a = st.mem.read a)

/-- R104: RECON.EXACT undoes SPLIT. A SPLIT that ends with ERR = 0 leaves quadrants from which RECON.EXACT p = 0b1111, run
into a buffer S' after the host has left the quadrant words and descriptors alone, gives back every pixel word of the
original S, with the original dimensions, and writes no padding byte of S'. -/
def Obligations.SplitThenExactIsIdentity : Prop :=
  ∀ st t u v : State, st.Running .split → Validated .split st.regs → Memory.wf st.mem = true → st.Safe →
    exec .split st = .next t → t.phase = .idle → t.regs.err = .ok →
    (∀ i, u.regs.q i = t.regs.q i) →
    (∀ (i : Quad) (qx qy : Nat), qx < st.regs.s.width.toNat / 2 → qy < st.regs.s.height.toNat / 2 →
      u.mem.readWord (addr (u.regs.q i) qx qy) = t.mem.readWord (addr (t.regs.q i) qx qy)) →
    u.Running (.reconExact 0b1111) → Validated (.reconExact 0b1111) u.regs → Memory.wf u.mem = true → u.Safe →
    exec (.reconExact 0b1111) u = .next v → v.phase = .idle → v.regs.err = .ok →
    v.regs.s.width = st.regs.s.width ∧ v.regs.s.height = st.regs.s.height ∧
    (∀ x y, x < st.regs.s.width.toNat → y < st.regs.s.height.toNat →
      v.mem.readWord (addr v.regs.s x y) = st.mem.readWord (addr st.regs.s x y)) ∧
    ∀ a, (∀ x y, x < st.regs.s.width.toNat → y < st.regs.s.height.toNat →
      a < addr v.regs.s x y ∨ addr v.regs.s x y + 4 ≤ a) → v.mem.read a = u.mem.read a

/-- R105: with p = 0b1111, RECON.EXACT and RECON.HEUR report the same validation code for the same registers, and where they
run they end in the same state, memory included; they differ only for another p. -/
def Obligations.ExactAgreesWithHeur : Prop :=
  (∀ r : Regs, validate (.reconExact 0b1111) r = validate (.reconHeur 0b1111) r) ∧
  (∀ st : State, (∃ w, st.phase = .running w) → Validated (.reconExact 0b1111) st.regs → Memory.wf st.mem = true → st.Safe →
    st.PixelsAnswer (.reconExact 0b1111) →
    ∃ t, exec (.reconExact 0b1111) st = .next t ∧ exec (.reconHeur 0b1111) st = .next t ∧ t.regs.err = .ok) ∧
  (∀ (p : BitVec 4) (r : Regs), p ≠ 0 → p ≠ 0b1111 → validate (.reconExact p) r = .incompleteInput ∧
    validate (.reconHeur p) r ≠ .incompleteInput)

/-- R106: source pixel fidelity. Every RECON.* command that ends with ERR = 0 leaves each pixel of each present quadrant
unchanged at its full-size place. RECON.INPAINT is taken at the second step of its run in this model (log 7), its canvas
being the one of phase 1. -/
def Obligations.SourcePixelFidelity : Prop :=
  ∀ (p : BitVec 4) (i : Instr) (st t : State), i = .reconExact p ∨ i = .reconHeur p ∨ i = .reconInpaint p →
    st.Running i → Validated i st.regs → Memory.wf st.mem = true → st.Safe →
    (i = .reconInpaint p → st.work.canvas = some (scatter p st.regs st.mem)) →
    exec i st = .next t → t.phase = .idle → t.regs.err = .ok →
    ∀ (j : Quad) (qx qy : Nat), present p j = true → qx < (st.regs.q j).width.toNat → qy < (st.regs.q j).height.toNat →
      t.mem.readWord (addr st.regs.s (2 * qx + j.val % 2) (2 * qy + j.val / 2)) =
        st.mem.readWord (addr (st.regs.q j) qx qy)

/-! ### The fill of RECON.INPAINT -/

/-- R146: the closed form of the mask. When the fill pass, started from a canvas of phase 1, reaches pixel (x, y), mask entry
(x', y') is true exactly when (x', y') is of a present phase or comes earlier in raster order. -/
def Obligations.MaskClosedForm : Prop :=
  ∀ (p : BitVec 4) (r : Regs) (m : Memory) (x y x' y' : Nat),
    let W := 2 * (quadDims p r).1
    let H := 2 * (quadDims p r).2
    x < W → y < H → x' < W → y' < H →
    (Canvas.mask (((grid W H fun a b => (a, b)).take (y * W + x)).foldl (fillAt W H) ⟨scatter p r m, 0, 0⟩).canvas W x' y' = true ↔
      present p (phaseOf x' y') = true ∨ y' < y ∨ (y' = y ∧ x' < x))

/-- R147: with p ≠ 0, at every moment of the fill pass every invalid pixel has at least one valid neighbour; so the BLACK
case never occurs, and BLACK_COUNT is 0 after every successful RECON.INPAINT (taken at its second run step, log 7). -/
def Obligations.BlackCaseNeverOccurs : Prop :=
  (∀ (p : BitVec 4) (r : Regs) (m : Memory) (n : Nat), p ≠ 0 →
    let W := 2 * (quadDims p r).1
    let H := 2 * (quadDims p r).2
    let fs := ((grid W H fun a b => (a, b)).take n).foldl (fillAt W H) ⟨scatter p r m, 0, 0⟩
    Canvas.Fillable fs.canvas W H ∧ fs.blacked = 0) ∧
  ∀ (p : BitVec 4) (st t : State), st.Running (.reconInpaint p) → Validated (.reconInpaint p) st.regs →
    st.work.canvas = some (scatter p st.regs st.mem) → exec (.reconInpaint p) st = .next t → t.phase = .idle →
    t.regs.err = .ok → t.regs.blackCount = 0

/-- R147 and R148: with p ≠ 0 no pixel is blacked, FILL_COUNT is (4 − popcount(p)) · qw · qh, the counters and the supplied
pixels add up to the image, and after the fill pass every mask entry is true. -/
def Obligations.InpaintTotalCoverage : Prop :=
  ∀ (p : BitVec 4) (r : Regs) (m : Memory), p ≠ 0 →
    let qw := (quadDims p r).1
    let qh := (quadDims p r).2
    let fs := inpaintFill p r (scatter p r m)
    fs.blacked = 0 ∧ fs.filled = (4 - popcount p) * qw * qh ∧
    fs.filled + fs.blacked + popcount p * qw * qh = 2 * qw * (2 * qh) ∧
    ∀ x y, x < 2 * qw → y < 2 * qh → Canvas.mask fs.canvas (2 * qw) x y = true

/-- R150: a synthesized channel lies in [max(lo − 1, 0), hi], for at most 24 contributing neighbours with kernel weights and
channel values in [lo, hi]. -/
def Obligations.WeightedMeanBounds : Prop :=
  ∀ (c : Pixel → Byte) (ns : List (F64 × Pixel)) (lo hi : Nat), ns ≠ [] → ns.length ≤ 24 →
    (∀ e ∈ ns, (∃ d2 ∈ [1, 2, 4, 5, 8], e.1 = kernel d2) ∧ lo ≤ (c e.2).toNat ∧ (c e.2).toNat ≤ hi) →
    lo - 1 ≤ (channelMean c ns).toNat ∧ (channelMean c ns).toNat ≤ hi

/-- R139: rounding to nearest, ties to even. The result for n/d is a multiple q of the spacing of 53-bit numbers at n/d, at
most half a spacing away, and q is even in a tie. -/
def Obligations.RoundsToNearestEven : Prop :=
  ∀ n d : Nat, 0 < d →
    let u := 2 ^ (Nat.log2 (n / d) - 52)
    ∃ q, roundDiv n d = q * u ∧ q ≤ 2 ^ 53 ∧
      2 * n ≤ (2 * q + 1) * (u * d) ∧ 2 * q * (u * d) ≤ 2 * n + u * d ∧
      (2 * n = (2 * q + 1) * (u * d) ∨ 2 * q * (u * d) = 2 * n + u * d → q % 2 = 0)

/-- R138: KSUM and the table K(d2) are what steps 2 and 3 compute from the RAW values, and the 25 weights, added in the order
of step 2, give 0.9999999999999998. -/
def Obligations.KernelTableIsComputed : Prop :=
  kernelSum = .ofBits 0x4018ACFA6F2E1A85 ∧
  (∀ d2 ∈ [0, 1, 2, 4, 5, 8], fdiv (.ofBits (rawBits d2)) kernelSum = kernel d2) ∧
  (offsets.flatMap fun dy => offsets.map fun dx => kernel (dist2 dx dy)).foldl fadd .zero = .ofBits 0x3FEFFFFFFFFFFFFE

/-- R138, step 1: RAW(d2) is the binary64 value nearest to exp(−d2/2): its 53-bit significand is within half a unit in the
last place of the real number. -/
def Obligations.RawWeightsAreNearestToExp : Prop :=
  ∀ d2 ∈ [0, 1, 2, 4, 5, 8], ∃ m e : Nat, (F64.ofBits (rawBits d2)).units = m * 2 ^ e ∧ 2 ^ 52 ≤ m ∧ m < 2 ^ 53 ∧
    2 * |Real.exp (-(d2 : ℝ) / 2) * 2 ^ 1074 - (m : ℝ) * 2 ^ e| ≤ 2 ^ e

/-- R151 and R143, the examples: a single neighbour of value 11 at d2 = 1 gives the quotient 10.999999999999998 and the
result 10; all 24 window positions at 255 give 255.00000000000009, clamped to 255, and all at 0 give 0. -/
def Obligations.TruncationArtefact : Prop :=
  fdiv (channelSum Pixel.b [(kernel 1, ⟨0, 0, 0, 11⟩)]) (weightSum [(kernel 1, ⟨0, 0, 0, 11⟩)]) = .ofBits 0x4025FFFFFFFFFFFF ∧
  channelMean Pixel.b [(kernel 1, ⟨0, 0, 0, 11⟩)] = 10 ∧
  (let ns := neighbours (List.replicate 25 (some ⟨255, 255, 255, 255⟩)) 5 5 2 2
   ns.length = 24 ∧ fdiv (channelSum Pixel.a ns) (weightSum ns) = .ofBits 0x406FE00000000003 ∧
   channelMean Pixel.a ns = 255) ∧
  channelMean Pixel.a (neighbours (List.replicate 25 (some ⟨0, 0, 0, 0⟩)) 5 5 2 2) = 0

/-! ### Accesses, errors, ends -/

/-- R64, R69 and R188: after validation, every word a command reads is a pixel word of a legal input descriptor, and every
word it writes is one of a legal output descriptor. It is 4-byte aligned, inside the span and inside the memory space; row
padding is no pixel word, so it is neither read nor written. The reads are those a command must make; a command may read back
its output words besides (R74, log 6). -/
def Obligations.AccessesAlignedAndInSpan : Prop :=
  ∀ (i : Instr) (st : State), validate i st.regs = .ok →
    (∀ a ∈ (jobOf i st).reads, a % 4 = 0 ∧ a + 4 ≤ 2 ^ 32 ∧ ∃ part ∈ parts i st.regs, part.Legal ∧ part.out = false ∧
      (∃ x y, x < part.w ∧ y < part.h ∧ a = addr part.desc x y) ∧ spanLo part.desc ≤ a ∧ a + 4 ≤ spanHi part.desc part.w part.h) ∧
    (∀ e ∈ (jobOf i st).writes, e.1 % 4 = 0 ∧ e.1 + 4 ≤ 2 ^ 32 ∧ ∃ part ∈ parts i st.regs, part.Legal ∧ part.out = true ∧
      (∃ x y, x < part.w ∧ y < part.h ∧ e.1 = addr part.desc x y) ∧ spanLo part.desc ≤ e.1 ∧ e.1 + 4 ≤ spanHi part.desc part.w part.h)

/-- R69 and R176: in a state of the invariant, no step of the engine, however it ends, changes a byte outside the output
pixel words of the command in flight; and only a step in RUNNING changes memory at all. -/
def Obligations.EngineStoresOnlyOutputPixels : Prop :=
  ∀ (st t : State) (i : Instr), st.Inv → engineStep st = .next t →
    (st.Running i → ∀ a, ¬ InOutput i st.regs a → t.mem.read a = st.mem.read a) ∧
    ((∀ w, st.phase ≠ .running w) → t.mem = st.mem)

/-- R170, R175, R176 and R180: where an access that the running command must make answers ERR and none fails to answer, the
command ends with BUS_ERROR: each output pixel word holds its value from before or its final value, a word whose write
answered ERR its value from before (R80), every other byte is unchanged, the written-back dimensions stay, and the counters
change only for RECON.INPAINT. Two things here are the model's choice. That such a run ends with BUS_ERROR and sets no
`host_fault`, although R195 makes `bus_ok` a must, is log 10. That BLACK_COUNT stays within the full count is log 4: R36 calls
its value unspecified, and I4 of `93_implementation_defined.md` gives it the range that R35 gives FILL_COUNT. -/
def Obligations.BusErrorEndsTheCommand : Prop :=
  ∀ (st : State) (i : Instr), st.Running i → Validated i st.regs → Memory.wf st.mem = true → st.Safe →
    (∃ part ∈ parts i st.regs, ∃ x y, x < part.w ∧ y < part.h ∧
      st.busAnswer (addr part.desc x y) (if part.out then .write else .read) = .err) →
    (∀ part ∈ parts i st.regs, ∀ x y k, x < part.w → y < part.h → st.busAnswer (addr part.desc x y) k ≠ .never) →
    ∃ (m : Memory) (f b : Word), exec i st = .next
        { st with
          mem := m
          phase := .idle
          work := .empty
          regs := { st.regs with
            err := .busError
            irqStatus := st.regs.irqStatus ||| 0b010
            fillCount := f
            blackCount := b } } ∧
      (∀ a v, st.Final i a v → m.readWord a = v ∨ m.readWord a = st.mem.readWord a) ∧
      (∀ a v, st.Final i a v → st.busAnswer a .write = .err → m.readWord a = st.mem.readWord a) ∧
      (∀ a, ¬ InOutput i st.regs a → m.read a = st.mem.read a) ∧
      (∀ p, i = .reconInpaint p → f.toNat ≤ fullCount p st.regs ∧ b.toNat ≤ fullCount p st.regs) ∧
      ((∀ p, i ≠ .reconInpaint p) → f = st.regs.fillCount ∧ b = st.regs.blackCount)

/-- R205: every launched command ends after finitely many engine steps if every memory access answers; where an access that
it must make never answers and no access errs, the engine stays BUSY, its state unchanged. That three steps are enough is
the model's (log 7): the spec gives no bound. -/
def Obligations.CommandsEnd : Prop :=
  (∀ st : State, st.Inv → st.inputs = [] →
    (∀ a k, st.busAnswer a k ≠ .never) →
    ∃ n ≤ 3, ∃ t, core.run n st = .next t ∧ t.phase = .idle) ∧
  (∀ (st : State) (i : Instr), st.Running i → Validated i st.regs →
    (∃ part ∈ parts i st.regs, ∃ x y, x < part.w ∧ y < part.h ∧
      st.busAnswer (addr part.desc x y) (if part.out then .write else .read) = .never) →
    (∀ part ∈ parts i st.regs, ∀ x y k, x < part.w → y < part.h → st.busAnswer (addr part.desc x y) k ≠ .err) →
    exec i st = .next st)

/-- R38: what the engine's steps may write among the registers. -/
def Obligations.EngineWritesOnlyTheseRegisters : Prop :=
  ∀ st t : State, engineStep st = .next t →
    t.regs.cmd = st.regs.cmd ∧ t.regs.irqEnable = st.regs.irqEnable ∧
    t.readReg .id = 0x49503207 ∧
    (∀ d, (t.regs.desc d).base = (st.regs.desc d).base ∧ (t.regs.desc d).stride = (st.regs.desc d).stride) ∧
    (∀ k < 3, st.regs.irqStatus.getLsbD k = true → t.regs.irqStatus.getLsbD k = true) ∧
    t.regs.irqStatus.getLsbD 2 = st.regs.irqStatus.getLsbD 2 ∧
    ((∃ d, t.regs.desc d ≠ st.regs.desc d) → ∃ w, st.phase = .pending w ∧ t.phase = .running w ∧
      (decode w = .ok .split → t.regs.s = st.regs.s) ∧ (decode w ≠ .ok .split → ∀ i, t.regs.q i = st.regs.q i)) ∧
    (t.regs.fillCount ≠ st.regs.fillCount ∨ t.regs.blackCount ≠ st.regs.blackCount →
      ∃ p, st.Running (.reconInpaint p) ∧ t.phase = .idle) ∧
    (t.regs.err ≠ st.regs.err → st.phase ≠ .idle ∧ t.phase = .idle)

/-! ### Host violations, and what does not matter -/

/-- R79: while a command is in flight, a write by another agent to a byte inside the span of a legal descriptor taking part,
or a read of the span of its output descriptor, sets `host_fault`; and no step whatever clears it. That the span is that of
R166 in phase PENDING too is the model's reading (log 5). -/
def Obligations.HostViolationSetsFault : Prop :=
  (∀ (st : State) (w : Word) (i : Instr) (part : Part) (rest : List Event), st.phase.word? = some w → decode w = .ok i →
    part ∈ parts i st.regs → 1 ≤ part.w → 1 ≤ part.h → part.Legal →
    (∀ (a : Word) (b : Byte), spanLo part.desc ≤ a.toNat → a.toNat < spanHi part.desc part.w part.h →
      (st.inputs = .mwByte a b :: rest → ∃ t, step st = .next t ∧ t.hostFault = true) ∧
      (part.out = true → st.inputs = .mrByte a :: rest → ∃ t, step st = .next t ∧ t.hostFault = true)) ∧
    (∀ (n : BitVec 30) (v : Word) (k : Nat), k < 4 → spanLo part.desc ≤ 4 * n.toNat + k →
      4 * n.toNat + k < spanHi part.desc part.w part.h →
      (st.inputs = .mw n v :: rest → ∃ t, step st = .next t ∧ t.hostFault = true) ∧
      (part.out = true → st.inputs = .mr n :: rest → ∃ t, step st = .next t ∧ t.hostFault = true))) ∧
  ∀ st t : State, step st = .next t → st.hostFault = true → t.hostFault = true

/-- R95 and R79: a memory access of another agent that is no violation does what it says. `mw` stores the word and a byte
write the byte, and no other byte changes; `mr` and a byte read answer what memory holds; `host_fault` and everything else of
the machine stay. Byte accesses, and that these accesses always complete, are the model's choice (log 18); so is that the
spans of R166 count from the launch on (log 5). -/
def Obligations.QuietHostAccesses : Prop :=
  ∀ (st : State) (rest : List Event), Memory.wf st.mem = true → st.Safe →
    (∀ (n : BitVec 30) (v : Word), st.inputs = .mw n v :: rest → st.QuietWrite (4 * n.toNat) 4 →
      ∃ m, step st = .next { st with inputs := rest, answer := some .writeOk, mem := m } ∧
        m.readWord (4 * n.toNat) = v ∧
        ∀ a, a < 4 * n.toNat ∨ 4 * n.toNat + 4 ≤ a → m.read a = st.mem.read a) ∧
    (∀ (a : Word) (b : Byte), st.inputs = .mwByte a b :: rest → st.QuietWrite a.toNat 1 →
      ∃ m, step st = .next { st with inputs := rest, answer := some .writeOk, mem := m } ∧
        m.read a.toNat = b ∧ ∀ c, c ≠ a.toNat → m.read c = st.mem.read c) ∧
    (∀ n : BitVec 30, st.inputs = .mr n :: rest → st.QuietRead (4 * n.toNat) 4 →
      step st = .next { st with inputs := rest, answer := some (.readOk (st.mem.readWord (4 * n.toNat))) }) ∧
    (∀ a : Word, st.inputs = .mrByte a :: rest → st.QuietRead a.toNat 1 →
      step st = .next { st with inputs := rest, answer := some (.readOk ((st.mem.read a.toNat).zeroExtend 32)) })

/-- R79 and R22: only a host protocol violation sets `host_fault`, or a breach of one of the musts of R195 that the engine
cannot see; no other step of the host, of the reset input or of the engine does. That a breach is an entry of the script that
sets `host_fault` is the model's choice (log 10). -/
def Obligations.HostFaultOnlyByViolation : Prop :=
  (∀ st t : State, step st = .next t → t.hostFault = st.hostFault ∨
    (∃ n v rest, st.inputs = .mw n v :: rest ∧ ¬ st.QuietWrite (4 * n.toNat) 4) ∨
    (∃ a b rest, st.inputs = .mwByte a b :: rest ∧ ¬ st.QuietWrite a.toNat 1) ∨
    (∃ n rest, st.inputs = .mr n :: rest ∧ ¬ st.QuietRead (4 * n.toNat) 4) ∨
    (∃ a rest, st.inputs = .mrByte a :: rest ∧ ¬ st.QuietRead a.toNat 1) ∨
    (∃ d rest, st.inputs = .breach d :: rest)) ∧
  ∀ (st : State) (d : HostDuty) (rest : List Event), st.inputs = .breach d :: rest →
    step st = .next { st with inputs := rest, hostFault := true }

/-- R73: the launch snapshot stands. A memory write by another agent while a command that passes validation is in flight,
if it sets no `host_fault`, leaves every pixel word of the buffers taking part as it was. -/
def Obligations.QuietHostKeepsPixelWords : Prop :=
  ∀ (st t : State) (w : Word) (i : Instr), st.phase.word? = some w → decode w = .ok i → validate i st.regs = .ok →
    ((∃ n v rest, st.inputs = .mw n v :: rest) ∨ (∃ a b rest, st.inputs = .mwByte a b :: rest)) →
    step st = .next t → t.hostFault = false →
    ∀ part ∈ parts i st.regs, ∀ x y, x < part.w → y < part.h →
      t.mem.readWord (addr part.desc x y) = st.mem.readWord (addr part.desc x y)

/-- R166 and R87: the descriptor of an absent quadrant is never read, checked or written: RECON.HEUR and RECON.INPAINT, in
every phase and however they end, do the same whatever it holds. -/
def Obligations.AbsentDescriptorsDoNotMatter : Prop :=
  ∀ (p : BitVec 4) (i : Instr) (st t : State) (j : Quad) (d : Desc), i = .reconHeur p ∨ i = .reconInpaint p → p ≠ 0 →
    present p j = false → exec i st = .next t →
    exec i { st with regs := st.regs.setQ j d } = .next { t with regs := t.regs.setQ j d }

/-- R129 and R73: the output words of a command depend on memory only through the words it must read, which are pixel words of
its input buffers (`AccessesAlignedAndInSpan`): neither on the old contents of the output buffer nor on anything else. -/
def Obligations.OutputDependsOnInputPixelsOnly : Prop :=
  ∀ (i : Instr) (st : State) (m : Memory), validate i st.regs = .ok →
    (∀ a ∈ (jobOf i st).reads, m.readWord a = st.mem.readWord a) →
    (jobOf i { st with mem := m }).writes = (jobOf i st).writes

/-! ### The invariant -/

/-- The invariant holds at reset. -/
def Obligations.InvAtReset : Prop := State.reset.Inv

/-- Every step of the machine, of the host, the reset input or the engine, keeps the invariant: memory stays in its
canonical form, working state does not outlive its command, the counters and ERR are 0 while busy, and in RUNNING the
registers stay those that validation checked. -/
def Obligations.StepKeepsInv : Prop :=
  ∀ st t : State, st.Inv → step st = .next t → t.Inv

/-- No state of the invariant faults or refuses: every step of the machine, whoever takes it, gives a next state. So no
instruction ever stops a run. -/
def Obligations.EveryStepGoesOn : Prop :=
  ∀ st : State, st.Inv → ∃ t, step st = .next t
end

