-- ==== Sys2Proof/Laws/Decode.lean ====
section
/-! SUPPORT. The laws of the decoder: a command word by its three fields, and what it decodes to. -/

namespace Sys2Proof

/-- A word is its three fields (R86). -/
theorem word_fields (w : Word) : rsvdField w ++ presentField w ++ opField w = w := by
  apply BitVec.eq_of_getLsbD_eq
  intro i hi
  simp only [rsvdField, presentField, opField, BitVec.getLsbD_append, BitVec.getLsbD_extractLsb']
  split
  · simp [*]
  · split
    · rw [show 4 + (i - 4) = i by omega]; simp; omega
    · rw [show 8 + (i - 4 - 4) = i by omega]; simp; omega

theorem fields_of_append (r : BitVec 24) (p o : BitVec 4) :
    rsvdField (r ++ p ++ o) = r ∧ presentField (r ++ p ++ o) = p ∧ opField (r ++ p ++ o) = o := by
  refine ⟨?_, ?_, ?_⟩ <;> apply BitVec.eq_of_getLsbD_eq <;> intro i hi <;>
    simp only [rsvdField, presentField, opField, BitVec.getLsbD_append, BitVec.getLsbD_extractLsb']
  · rw [if_neg (by omega), if_neg (by omega), show 8 + i - 4 - 4 = i by omega]; simp [hi]
  · rw [if_neg (by omega), if_pos (by omega), show 4 + i - 4 = i by omega]; simp [hi]
  · rw [if_pos (by omega)]; simp [hi]

theorem append_inj {a b : Nat} {x x' : BitVec a} {y y' : BitVec b} : x ++ y = x' ++ y' ↔ x = x' ∧ y = y' := by
  constructor
  · intro h
    have h1 := congrArg (BitVec.extractLsb' b a) h
    have h2 := congrArg (BitVec.extractLsb' 0 b) h
    simp only [BitVec.extractLsb'_append_eq_left, BitVec.extractLsb'_append_eq_right] at h1 h2
    exact ⟨h1, h2⟩
  · rintro ⟨rfl, rfl⟩; rfl

/-- A word fits the row of SPLIT exactly when its fields are those of R88. -/
theorem fits_split (w : Word) : w &&& 0xFFFFFFFF = 0x00000001 ↔ rsvdField w = 0 ∧ presentField w = 0 ∧ opField w = 1 := by
  rw [show (0xFFFFFFFF : Word) = BitVec.allOnes 32 by decide, BitVec.and_allOnes]
  conv_lhs => rw [← word_fields w, show (1 : Word) = 0#24 ++ 0#4 ++ 1#4 by decide]
  rw [append_inj, append_inj, and_assoc]
  rfl

/-- A word fits the row of a RECON.* command exactly when OP is the row's and RSVD is 0. -/
theorem fits_recon (w : Word) (o : BitVec 4) : w &&& 0xFFFFFF0F = 0#24 ++ 0#4 ++ o ↔ rsvdField w = 0 ∧ opField w = o := by
  conv_lhs => rw [← word_fields w, show (0xFFFFFF0F : Word) = BitVec.allOnes 24 ++ 0#4 ++ BitVec.allOnes 4 by decide]
  rw [BitVec.and_append, BitVec.and_append, BitVec.and_allOnes, BitVec.and_allOnes, BitVec.and_zero, append_inj, append_inj]
  simp

/-- What a word decodes to, by its fields. -/
theorem decode_fields (w : Word) : decode w =
    if rsvdField w = 0 ∧ presentField w = 0 ∧ opField w = 1 then .ok .split
    else if rsvdField w = 0 ∧ opField w = 2 then .ok (.reconExact (presentField w))
    else if rsvdField w = 0 ∧ opField w = 3 then .ok (.reconHeur (presentField w))
    else if rsvdField w = 0 ∧ opField w = 4 then .ok (.reconInpaint (presentField w))
    else .error (whyIllegal w) := by
  have h1 := fits_split w
  have h2 : w &&& 0xFFFFFF0F = 2 ↔ rsvdField w = 0 ∧ opField w = 2 := fits_recon w 2
  have h3 : w &&& 0xFFFFFF0F = 3 ↔ rsvdField w = 0 ∧ opField w = 3 := fits_recon w 3
  have h4 : w &&& 0xFFFFFF0F = 4 ↔ rsvdField w = 0 ∧ opField w = 4 := fits_recon w 4
  simp only [decode, opcodeRows, List.find?, beq_eq_decide, h1, h2, h3, h4]
  by_cases c1 : rsvdField w = 0 ∧ presentField w = 0 ∧ opField w = 1
  · rw [if_pos c1, decide_eq_true c1]
  rw [if_neg c1, decide_eq_false c1]
  by_cases c2 : rsvdField w = 0 ∧ opField w = 2
  · rw [if_pos c2, decide_eq_true c2]
  rw [if_neg c2, decide_eq_false c2]
  by_cases c3 : rsvdField w = 0 ∧ opField w = 3
  · rw [if_pos c3, decide_eq_true c3]
  rw [if_neg c3, decide_eq_false c3]
  by_cases c4 : rsvdField w = 0 ∧ opField w = 4
  · rw [if_pos c4, decide_eq_true c4]
  rw [if_neg c4, decide_eq_false c4]

/-- The word of a command by its fields. -/
theorem encode_fields (i : Instr) : rsvdField (encode i) = 0 ∧
    opField (encode i) = (match i with | .split => 1 | .reconExact _ => 2 | .reconHeur _ => 3 | .reconInpaint _ => 4) ∧
    presentField (encode i) = (match i with | .split => 0 | .reconExact p | .reconHeur p | .reconInpaint p => p) := by
  cases i <;> simp only [encode, commandWord] <;>
    exact ⟨(fields_of_append _ _ _).1, (fields_of_append _ _ _).2.2, (fields_of_append _ _ _).2.1⟩

/-- Words with the same fields are the same word. -/
theorem word_ext {v w : Word} (hr : rsvdField v = rsvdField w) (hp : presentField v = presentField w)
    (ho : opField v = opField w) : v = w := by
  rw [← word_fields v, ← word_fields w, hr, hp, ho]

end Sys2Proof
end

