-- ==== Sys2Proof/Laws/Float.lean ====
section
/-! SUPPORT. The laws of the binary64 arithmetic: the logarithm, the rounding step and the constants. -/

namespace Sys2Proof.Machine

/-- The widths 2^(j-1), …, 2, 1. -/
def halvings : Nat → List Nat
  | 0 => []
  | j + 1 => 2 ^ j :: halvings j

theorem leadingBit_halvings (j n : Nat) (hn : n < 2 ^ 2 ^ j) : leadingBit (halvings j) n = n.log2 := by
  induction j generalizing n with
  | zero =>
    have : n = 0 ∨ n = 1 := by simp at hn; omega
    rcases this with rfl | rfl
    · rfl
    · simp [halvings, leadingBit, Nat.log2_def]
  | succ j ih =>
    have h2 : 2 ^ 2 ^ (j + 1) = 2 ^ 2 ^ j * 2 ^ 2 ^ j := by rw [← Nat.pow_add]; congr 1; ring
    unfold halvings leadingBit
    split
    · rename_i hle
      have hpos : 0 < 2 ^ 2 ^ j := Nat.two_pow_pos _
      rw [Nat.shiftRight_eq_div_pow, ih _ (by rw [Nat.div_lt_iff_lt_mul hpos]; rwa [h2] at hn)]
      have hn0 : n ≠ 0 := by omega
      have hd0 : n / 2 ^ 2 ^ j ≠ 0 := by
        exact (Nat.div_pos hle hpos).ne'
      symm
      rw [Nat.log2_eq_iff hn0]
      obtain ⟨hl, hu⟩ := (Nat.log2_eq_iff hd0 (k := (n / 2 ^ 2 ^ j).log2)).1 rfl
      constructor
      · rw [Nat.pow_add, Nat.mul_comm]
        exact (Nat.le_div_iff_mul_le hpos).1 hl
      · rw [Nat.div_lt_iff_lt_mul hpos] at hu
        have he : 2 ^ j + (n / 2 ^ 2 ^ j).log2 + 1 = ((n / 2 ^ 2 ^ j).log2 + 1) + 2 ^ j := by ring
        rwa [he, Nat.pow_add]
    · exact ih n (by omega)

/-- `floorLog2` is ⌊log2 n⌋. -/
theorem floorLog2_eq (n : Nat) : floorLog2 n = n.log2 := by
  unfold floorLog2
  split
  · rename_i h
    exact leadingBit_halvings 12 n h
  · rfl

/-- A rounded quotient is the truncated one in units of its spacing, or the next number of that spacing (R139). -/
theorem roundDiv_cases (n d : Nat) :
    (roundDiv n d = n / (d * 2 ^ ((n / d).log2 - 52)) * 2 ^ ((n / d).log2 - 52) ∧
      2 * (n % (d * 2 ^ ((n / d).log2 - 52))) ≤ d * 2 ^ ((n / d).log2 - 52)) ∨
    (roundDiv n d = (n / (d * 2 ^ ((n / d).log2 - 52)) + 1) * 2 ^ ((n / d).log2 - 52) ∧
      d * 2 ^ ((n / d).log2 - 52) ≤ 2 * (n % (d * 2 ^ ((n / d).log2 - 52)))) := by
  unfold roundDiv
  simp only [floorLog2_eq, Nat.shiftLeft_eq]
  split
  · rename_i h; right; exact ⟨rfl, by rcases h with h | h <;> omega⟩
  · rename_i h; left; exact ⟨rfl, by omega⟩

/-- A quotient of exactly representable size rounds to itself when it is whole: `f64` of a channel value, for one. -/
theorem roundDiv_one (n : Nat) (hn : n < 2 ^ 53) : roundDiv n 1 = n := by
  have hlog : n.log2 - 52 = 0 := by
    rcases Nat.eq_zero_or_pos n with rfl | h
    · rfl
    · have := (Nat.log2_lt (by omega : n ≠ 0)).2 hn
      omega
  unfold roundDiv
  simp [floorLog2_eq, hlog, Nat.mod_one]

end Sys2Proof.Machine
end

