-- ==== Sys2Proof/Laws/Heuristic.lean ====
section
/-! SUPPORT. The laws of the block multiplexer. -/

namespace Sys2Proof.Machine

/-- No case of `heur_block` looks at the slot of an absent quadrant (R115, R116). -/
theorem heurBlock_congr {p : BitVec 4} {c c' : Quad → Pixel} (h : ∀ i, present p i = true → c i = c' i) (j : Quad) :
    heurBlock p c j = heurBlock p c' j := by
  have h0 := h 0; have h1 := h 1; have h2 := h 2; have h3 := h 3
  obtain ⟨p⟩ := p
  obtain ⟨n, hn⟩ := p
  simp at hn
  interval_cases n <;> fin_cases j <;> simp [present] at h0 h1 h2 h3 <;>
    simp [heurBlock, popcount, presentQuads, quads, present, presentMean, lowest, *]

/-- A present quadrant's candidate goes unchanged to its own corner (R106, R127). -/
theorem heurBlock_present {p : BitVec 4} {j : Quad} (h : present p j = true) (c : Quad → Pixel) : heurBlock p c j = c j := by
  obtain ⟨p⟩ := p
  obtain ⟨n, hn⟩ := p
  simp at hn
  interval_cases n <;> fin_cases j <;> simp [present] at h <;>
    simp [heurBlock, popcount, presentQuads, quads, present, lowest] <;> rfl

end Sys2Proof.Machine
end

