-- ==== Sys2Proof/Laws/Memory.lean ====
section
/-! SUPPORT. The laws of memory: a read after a write, what a write leaves alone, the canonical form. -/

namespace Sys2Proof.Machine

/-! ### The canonical form -/

theorem wf_cons (c : Nat) (x : Byte) (t : Memory) :
    Memory.wf ((c, x) :: t) = true ↔
      c < 2 ^ 32 ∧ x ≠ Config.unlistedByte ∧ (∀ e ∈ t, c < e.1) ∧ Memory.wf t = true := by
  simp [Memory.wf, and_assoc]

theorem mem_of_write {m : Memory} {a : Nat} {b : Byte} {e : Host.Cell} (h : e ∈ m.write a b) : e ∈ m ∨ e.1 = a := by
  induction m with
  | nil =>
    simp only [Memory.write] at h
    split at h
    · simp at h
    · simp at h; simp [h]
  | cons hd t ih =>
    obtain ⟨c, x⟩ := hd
    simp only [Memory.write] at h
    split at h
    · split at h
      · exact .inl h
      · rcases List.mem_cons.1 h with h | h
        · simp [h]
        · exact .inl h
    · split at h
      · split at h
        · exact .inl (List.mem_cons_of_mem _ h)
        · rcases List.mem_cons.1 h with h | h
          · simp [h]
          · exact .inl (List.mem_cons_of_mem _ h)
      · rcases List.mem_cons.1 h with h | h
        · simp [h]
        · rcases ih h with h | h
          · exact .inl (List.mem_cons_of_mem _ h)
          · exact .inr h

/-- Every byte write inside the space keeps the canonical form. -/
theorem wf_write {m : Memory} (hm : Memory.wf m = true) {a : Nat} (ha : a < 2 ^ 32) (b : Byte) :
    Memory.wf (m.write a b) = true := by
  induction m with
  | nil =>
    simp only [Memory.write]
    split
    · rfl
    · exact (wf_cons _ _ _).2 ⟨ha, ‹_›, by simp, rfl⟩
  | cons hd t ih =>
    obtain ⟨c, x⟩ := hd
    obtain ⟨hc, hx, hlt, ht⟩ := (wf_cons _ _ _).1 hm
    simp only [Memory.write]
    split
    · split
      · exact hm
      · refine (wf_cons _ _ _).2 ⟨ha, ‹_›, ?_, hm⟩
        intro e he
        rcases List.mem_cons.1 he with he | he
        · subst he; assumption
        · have := hlt e he; omega
    · split
      · split
        · exact ht
        · exact (wf_cons _ _ _).2 ⟨ha, ‹_›, by intro e he; have := hlt e he; omega, ht⟩
      · refine (wf_cons _ _ _).2 ⟨hc, hx, ?_, ih ht⟩
        intro e he
        rcases mem_of_write he with he | he
        · exact hlt e he
        · omega

theorem wf_writeWord {m : Memory} (hm : Memory.wf m = true) {a : Nat} (ha : a + 4 ≤ 2 ^ 32) (v : Word) :
    Memory.wf (m.writeWord a v) = true :=
  wf_write (wf_write (wf_write (wf_write hm (by omega) _) (by omega) _) (by omega) _) (by omega) _

theorem wf_writeAll {ws : List (Nat × Word)} {m : Memory} (hm : Memory.wf m = true)
    (hws : ∀ e ∈ ws, e.1 + 4 ≤ 2 ^ 32) : Memory.wf (m.writeAll ws) = true := by
  induction ws generalizing m with
  | nil => exact hm
  | cons e t ih =>
    exact ih (wf_writeWord hm (hws e (by simp)) _) (fun e he => hws e (List.mem_cons_of_mem _ he))

/-! ### Reads -/

theorem read_of_lt {m : Memory} {a : Nat} (h : ∀ e ∈ m, a < e.1) : m.read a = Config.unlistedByte := by
  induction m with
  | nil => rfl
  | cons hd t ih =>
    have := h hd (by simp)
    simp only [Memory.read]
    rw [if_neg (by omega)]
    exact ih fun e he => h e (List.mem_cons_of_mem _ he)

/-- A byte reads back as it was written. -/
theorem read_write_same {m : Memory} (hm : Memory.wf m = true) (a : Nat) (b : Byte) : (m.write a b).read a = b := by
  induction m with
  | nil =>
    simp only [Memory.write]
    split
    · simp [Memory.read, *]
    · simp [Memory.read]
  | cons hd t ih =>
    obtain ⟨c, x⟩ := hd
    obtain ⟨hc, hx, hlt, ht⟩ := (wf_cons _ _ _).1 hm
    simp only [Memory.write]
    split
    · split
      · rw [read_of_lt]
        · simp [*]
        · intro e he
          rcases List.mem_cons.1 he with he | he
          · subst he; assumption
          · have := hlt e he; omega
      · simp [Memory.read]
    · split
      · split
        · rw [read_of_lt]
          · simp [*]
          · intro e he; have := hlt e he; omega
        · simp [Memory.read]
      · simp only [Memory.read]
        rw [if_neg (by omega)]
        exact ih ht

/-- A byte write leaves every other byte alone. -/
theorem read_write_other (m : Memory) {a a' : Nat} (h : a' ≠ a) (b : Byte) : (m.write a b).read a' = m.read a' := by
  induction m with
  | nil =>
    simp only [Memory.write]
    split
    · rfl
    · simp [Memory.read, h]
  | cons hd t ih =>
    obtain ⟨c, x⟩ := hd
    simp only [Memory.write]
    split
    · split
      · rfl
      · simp [Memory.read, h]
    · split
      · subst_vars
        split
        · simp [Memory.read, h]
        · simp [Memory.read, h]
      · simp only [Memory.read]
        rw [ih]

theorem read_writeWord_other (m : Memory) {a a' : Nat} (h : a' < a ∨ a + 4 ≤ a') (v : Word) :
    (m.writeWord a v).read a' = m.read a' := by
  unfold Memory.writeWord
  rw [read_write_other _ (by omega), read_write_other _ (by omega), read_write_other _ (by omega),
    read_write_other _ (by omega)]

/-- The bytes of a written word (R61): byte[addr + k] is v[8k+7 : 8k]. -/
theorem read_writeWord_byte {m : Memory} (hm : Memory.wf m = true) {a : Nat} (ha : a + 4 ≤ 2 ^ 32) (v : Word) :
    (m.writeWord a v).read a = v.extractLsb' 0 8 ∧ (m.writeWord a v).read (a + 1) = v.extractLsb' 8 8 ∧
      (m.writeWord a v).read (a + 2) = v.extractLsb' 16 8 ∧ (m.writeWord a v).read (a + 3) = v.extractLsb' 24 8 := by
  have h0 := wf_write hm (a := a) (by omega) (v.extractLsb' 0 8)
  have h1 := wf_write h0 (a := a + 1) (by omega) (v.extractLsb' 8 8)
  have h2 := wf_write h1 (a := a + 2) (by omega) (v.extractLsb' 16 8)
  unfold Memory.writeWord
  refine ⟨?_, ?_, ?_, ?_⟩
  · rw [read_write_other _ (by omega), read_write_other _ (by omega), read_write_other _ (by omega), read_write_same hm]
  · rw [read_write_other _ (by omega), read_write_other _ (by omega), read_write_same h0]
  · rw [read_write_other _ (by omega), read_write_same h1]
  · rw [read_write_same h2]

/-- The four bytes of a word, put together again. -/
theorem bytes_append (v : Word) :
    (v.extractLsb' 24 8 ++ v.extractLsb' 16 8 ++ v.extractLsb' 8 8 ++ v.extractLsb' 0 8 : BitVec 32) = v := by
  apply BitVec.eq_of_getLsbD_eq
  intro i hi
  simp only [BitVec.getLsbD_append, BitVec.getLsbD_extractLsb']
  split
  · simp [*]
  · split
    · rw [show 8 + (i - 8) = i by omega]; simp; omega
    · split
      · rw [show 16 + (i - 8 - 8) = i by omega]; simp; omega
      · rw [show 24 + (i - 8 - 8 - 8) = i by omega]; simp; omega

/-- A word reads back as it was written. -/
theorem readWord_writeWord_same {m : Memory} (hm : Memory.wf m = true) {a : Nat} (ha : a + 4 ≤ 2 ^ 32) (v : Word) :
    (m.writeWord a v).readWord a = v := by
  obtain ⟨h0, h1, h2, h3⟩ := read_writeWord_byte hm ha v
  unfold Memory.readWord
  rw [h0, h1, h2, h3, bytes_append]

theorem readWord_congr {m m' : Memory} {a : Nat} (h : ∀ k < 4, m.read (a + k) = m'.read (a + k)) :
    m.readWord a = m'.readWord a := by
  unfold Memory.readWord
  rw [h 3 (by omega), h 2 (by omega), h 1 (by omega), show m.read a = m'.read a from h 0 (by omega)]

theorem readWord_writeWord_other (m : Memory) {a a' : Nat} (h : a' + 4 ≤ a ∨ a + 4 ≤ a') (v : Word) :
    (m.writeWord a v).readWord a' = m.readWord a' :=
  readWord_congr fun k hk => read_writeWord_other m (by omega) v

/-! ### Several words -/

/-- Writing words leaves every byte outside them alone. -/
theorem read_writeAll_other {ws : List (Nat × Word)} {m : Memory} {a : Nat}
    (h : ∀ e ∈ ws, a < e.1 ∨ e.1 + 4 ≤ a) : (m.writeAll ws).read a = m.read a := by
  induction ws generalizing m with
  | nil => rfl
  | cons e t ih =>
    have := ih (m := m.writeWord e.1 e.2) fun e he => h e (List.mem_cons_of_mem _ he)
    exact this.trans (read_writeWord_other m (h e (by simp)) e.2)

theorem readWord_writeAll_other {ws : List (Nat × Word)} {m : Memory} {a : Nat}
    (h : ∀ e ∈ ws, a + 4 ≤ e.1 ∨ e.1 + 4 ≤ a) : (m.writeAll ws).readWord a = m.readWord a :=
  readWord_congr fun k hk => read_writeAll_other fun e he => by have := h e he; omega

/-- Two words that share no byte. -/
abbrev Apart (e f : Nat × Word) : Prop := e.1 + 4 ≤ f.1 ∨ f.1 + 4 ≤ e.1

/-- Words that share no byte read back as they were written. -/
theorem readWord_writeAll_mem {ws : List (Nat × Word)} {m : Memory} (hm : Memory.wf m = true)
    (hsp : ∀ e ∈ ws, e.1 + 4 ≤ 2 ^ 32) (hap : ws.Pairwise Apart) {e : Nat × Word} (he : e ∈ ws) :
    (m.writeAll ws).readWord e.1 = e.2 := by
  induction ws generalizing m with
  | nil => simp at he
  | cons f t ih =>
    obtain ⟨hft, hap⟩ := List.pairwise_cons.1 hap
    have hf := hsp f (by simp)
    have hw := wf_writeWord hm hf f.2
    rcases List.mem_cons.1 he with rfl | he
    · exact (readWord_writeAll_other (m := m.writeWord e.1 e.2) fun f' hf' => hft f' hf').trans
        (readWord_writeWord_same hm hf e.2)
    · exact ih hw (fun e he => hsp e (List.mem_cons_of_mem _ he)) hap he

/-- The same, for a word given by its address and value. -/
theorem readWord_writeAll {ws : List (Nat × Word)} {m : Memory} (hm : Memory.wf m = true)
    (hsp : ∀ e ∈ ws, e.1 + 4 ≤ 2 ^ 32) (hap : ws.Pairwise Apart) {a : Nat} {v : Word} (h : (a, v) ∈ ws) :
    (m.writeAll ws).readWord a = v :=
  readWord_writeAll_mem (e := (a, v)) hm hsp hap h

/-- Memories in canonical form that read alike are equal. -/
theorem memory_ext {m m' : Memory} (hm : Memory.wf m = true) (hm' : Memory.wf m' = true)
    (h : ∀ a, m.read a = m'.read a) : m = m' := by
  induction m generalizing m' with
  | nil =>
    cases m' with
    | nil => rfl
    | cons hd t =>
      obtain ⟨c, x⟩ := hd
      obtain ⟨_, hx, _, _⟩ := (wf_cons _ _ _).1 hm'
      have := h c
      simp [Memory.read] at this
      exact absurd this.symm hx
  | cons hd t ih =>
    obtain ⟨c, x⟩ := hd
    obtain ⟨hc, hx, hlt, ht⟩ := (wf_cons _ _ _).1 hm
    cases m' with
    | nil =>
      have := h c
      simp [Memory.read] at this
      exact absurd this hx
    | cons hd' t' =>
      obtain ⟨c', x'⟩ := hd'
      obtain ⟨hc', hx', hlt', ht'⟩ := (wf_cons _ _ _).1 hm'
      have hcc : c = c' := by
        rcases Nat.lt_trichotomy c c' with hlt1 | heq | hgt
        · have := h c
          rw [read_of_lt (m := (c', x') :: t') (a := c)] at this
          · simp [Memory.read] at this; exact absurd this hx
          · intro e he
            rcases List.mem_cons.1 he with rfl | he
            · exact hlt1
            · have := hlt' e he; omega
        · exact heq
        · have := h c'
          rw [read_of_lt (m := (c, x) :: t) (a := c')] at this
          · simp [Memory.read] at this; exact absurd this.symm hx'
          · intro e he
            rcases List.mem_cons.1 he with rfl | he
            · exact hgt
            · have := hlt e he; omega
      subst hcc
      have hxx : x = x' := by simpa [Memory.read] using h c
      subst hxx
      rw [ih ht ht']
      intro a
      by_cases hac : a = c
      · subst hac; rw [read_of_lt hlt, read_of_lt hlt']
      · simpa [Memory.read, hac] using h a

/-! ### Pixels -/

@[simp] theorem wordOf_pixelOf (w : Word) : wordOf (pixelOf w) = w := bytes_append w

@[simp] theorem pixelOf_wordOf (p : Pixel) : pixelOf (wordOf p) = p := by
  obtain ⟨a, r, g, b⟩ := p
  simp only [pixelOf, wordOf, Pixel.mk.injEq]
  refine ⟨?_, ?_, ?_, ?_⟩ <;>
  · apply BitVec.eq_of_getLsbD_eq
    intro i hi
    simp only [BitVec.getLsbD_append, BitVec.getLsbD_extractLsb', hi, decide_true, Bool.true_and]
    interval_cases i <;> rfl

end Sys2Proof.Machine
end

