-- ==== Sys2Proof/Laws/Operands.lean ====
section
/-! SUPPORT. The laws of the operands: the presence mask, the map between full-size pixels and quadrants, grids, pixel
addresses and spans. -/

namespace Sys2Proof.Machine

/-! ### Grids -/

@[simp] theorem mem_grid {α : Type} {w h : Nat} {f : Nat → Nat → α} {a : α} :
    a ∈ grid w h f ↔ ∃ x y, x < w ∧ y < h ∧ f x y = a := by
  simp only [grid, List.mem_flatMap, List.mem_map, List.mem_range]
  constructor
  · rintro ⟨y, hy, x, hx, rfl⟩; exact ⟨x, y, hx, hy, rfl⟩
  · rintro ⟨x, y, hx, hy, rfl⟩; exact ⟨y, hy, x, hx, rfl⟩

/-- Grids with the same value at each position are the same. -/
theorem grid_congr {α : Type} {w h : Nat} {f g : Nat → Nat → α} (hfg : ∀ x y, x < w → y < h → f x y = g x y) :
    grid w h f = grid w h g := by
  unfold grid
  rw [List.flatMap_def, List.flatMap_def]
  congr 1
  apply List.map_congr_left; intro y hy
  apply List.map_congr_left; intro x hx
  exact hfg x y (List.mem_range.1 hx) (List.mem_range.1 hy)

theorem grid_succ {α : Type} (w h : Nat) (f : Nat → Nat → α) :
    grid w (h + 1) f = grid w h f ++ (List.range w).map fun x => f x h := by
  simp [grid, List.range_succ]

@[simp] theorem length_grid {α : Type} (w h : Nat) (f : Nat → Nat → α) : (grid w h f).length = h * w := by
  induction h with
  | zero => simp [grid]
  | succ h ih => simp [grid_succ, ih]; ring

/-- Entry y·w + x of a grid is the value at (x, y). -/
theorem grid_getElem? {α : Type} {w h : Nat} (f : Nat → Nat → α) {x y : Nat} (hx : x < w) (hy : y < h) :
    (grid w h f)[y * w + x]? = some (f x y) := by
  induction h with
  | zero => omega
  | succ h ih =>
    rw [grid_succ]
    by_cases hlt : y < h
    · rw [List.getElem?_append_left, ih hlt]
      rw [length_grid]
      have : (y + 1) * w ≤ h * w := Nat.mul_le_mul_right _ hlt
      have : (y + 1) * w = y * w + w := by ring
      omega
    · obtain rfl : y = h := by omega
      rw [List.getElem?_append_right (by simp)]
      simp [hx]

/-- Two different positions of a grid have different indices. -/
theorem index_inj {w x y x' y' : Nat} (hx : x < w) (hx' : x' < w) (h : y * w + x = y' * w + x') : x = x' ∧ y = y' := by
  have h1 : (y * w + x) % w = x := by rw [Nat.mul_comm, Nat.mul_add_mod]; exact Nat.mod_eq_of_lt hx
  have h2 : (y' * w + x') % w = x' := by rw [Nat.mul_comm, Nat.mul_add_mod]; exact Nat.mod_eq_of_lt hx'
  have hxx : x = x' := h1.symm.trans ((congrArg (· % w) h).trans h2)
  exact ⟨hxx, Nat.eq_of_mul_eq_mul_right (Nat.zero_lt_of_lt hx) (by omega)⟩

/-- Values of a grid are pairwise related if values at different positions are. -/
theorem pairwise_grid {α : Type} {R : α → α → Prop} {w h : Nat} {f : Nat → Nat → α}
    (hR : ∀ x y x' y', x < w → y < h → x' < w → y' < h → (x ≠ x' ∨ y ≠ y') → R (f x y) (f x' y')) :
    (grid w h f).Pairwise R := by
  unfold grid
  rw [List.pairwise_flatMap]
  constructor
  · intro y hy
    rw [List.pairwise_map]
    refine List.pairwise_lt_range.imp_of_mem ?_
    intro x x' hx hx' hlt
    simp only [List.mem_range] at *
    exact hR _ _ _ _ hx hy hx' hy (.inl (by omega))
  · refine List.pairwise_lt_range.imp_of_mem ?_
    intro y y' hy hy' hlt
    simp only [List.mem_range, List.mem_map] at *
    rintro _ ⟨x, hx, rfl⟩ _ ⟨x', hx', rfl⟩
    exact hR _ _ _ _ hx hy hx' hy' (.inr (by omega))

/-! ### The presence mask and the phases -/

theorem mem_presentQuads {p : BitVec 4} {i : Quad} : i ∈ presentQuads p ↔ present p i = true := by
  simp only [presentQuads, List.mem_filter, quads]
  fin_cases i <;> simp

theorem mem_quads (i : Quad) : i ∈ quads := by fin_cases i <;> simp [quads]

theorem present_lowest {p : BitVec 4} (hp : p ≠ 0) : present p (lowest p) = true := by
  revert p; decide

theorem lowest_mem {p : BitVec 4} (hp : p ≠ 0) : lowest p ∈ presentQuads p := mem_presentQuads.2 (present_lowest hp)

@[simp] theorem phaseOf_full (i : Quad) (qx qy : Nat) : phaseOf (fullX i qx) (fullY i qy) = i := by
  obtain ⟨i, hi⟩ := i
  simp only [phaseOf, fullX, fullY, Fin.mk.injEq]
  omega

@[simp] theorem fullX_half (i : Quad) (qx : Nat) : fullX i qx / 2 = qx := by
  unfold fullX; omega

@[simp] theorem fullY_half (i : Quad) (qy : Nat) : fullY i qy / 2 = qy := by
  have := i.isLt
  unfold fullY; omega

/-- The map of R13 is onto: pixel (x, y) is pixel (x >> 1, y >> 1) of quadrant phase(x, y). -/
@[simp] theorem fullX_phase (x y : Nat) : fullX (phaseOf x y) (x / 2) = x := by
  simp only [phaseOf, fullX]; omega

@[simp] theorem fullY_phase (x y : Nat) : fullY (phaseOf x y) (y / 2) = y := by
  simp only [phaseOf, fullY]; omega

theorem fullX_lt {i : Quad} {qx w : Nat} (h : qx < w) : fullX i qx < 2 * w := by unfold fullX; omega

theorem fullY_lt {i : Quad} {qy h : Nat} (hq : qy < h) : fullY i qy < 2 * h := by
  have := i.isLt
  unfold fullY; omega

/-! ### Addresses and spans -/

/-- Every pixel word of a legal descriptor lies inside its span (R66). -/
theorem addr_in_span {d : Desc} {w h x y : Nat} (hd : Legal d w h) (hx : x < w) (hy : y < h) :
    spanLo d ≤ addr d x y ∧ addr d x y + 4 ≤ spanHi d w h := by
  obtain ⟨_, _, hs, _⟩ := hd
  unfold spanLo spanHi addr
  have h1 : y * d.stride.toNat ≤ (h - 1) * d.stride.toNat := Nat.mul_le_mul_right _ (by omega)
  have h2 : d.stride.toNat * (h - 1) = (h - 1) * d.stride.toNat := Nat.mul_comm _ _
  omega

theorem addr_lt {d : Desc} {w h x y : Nat} (hd : Legal d w h) (hx : x < w) (hy : y < h) : addr d x y + 4 ≤ 2 ^ 32 :=
  (addr_in_span hd hx hy).2.trans hd.2.2.2

/-- Every pixel address of a legal descriptor is a multiple of 4 (R64). -/
theorem addr_aligned {d : Desc} {w h : Nat} (x y : Nat) (hd : Legal d w h) : addr d x y % 4 = 0 := by
  obtain ⟨hb, hs, _, _⟩ := hd
  have : (y * d.stride.toNat) % 4 = 0 := by rw [Nat.mul_mod, hs]; simp
  unfold addr
  omega

/-- Different pixels of a legal descriptor are different words. -/
theorem addr_apart {d : Desc} {w h x y x' y' : Nat} (hd : Legal d w h) (hx : x < w) (hx' : x' < w)
    (hne : x ≠ x' ∨ y ≠ y') : addr d x y + 4 ≤ addr d x' y' ∨ addr d x' y' + 4 ≤ addr d x y := by
  obtain ⟨_, _, hs, _⟩ := hd
  unfold addr
  rcases Nat.lt_trichotomy y y' with hlt | rfl | hgt
  · have : (y + 1) * d.stride.toNat ≤ y' * d.stride.toNat := Nat.mul_le_mul_right _ hlt
    have : (y + 1) * d.stride.toNat = y * d.stride.toNat + d.stride.toNat := by ring
    omega
  · omega
  · have : (y' + 1) * d.stride.toNat ≤ y * d.stride.toNat := Nat.mul_le_mul_right _ hgt
    have : (y' + 1) * d.stride.toNat = y' * d.stride.toNat + d.stride.toNat := by ring
    omega

/-- Pixels of two parts whose spans are disjoint are different words. -/
theorem addr_apart_of_disjoint {p q : Part} {x y x' y' : Nat} (hp : p.Legal) (hq : q.Legal) (hpq : ¬ p.Overlaps q)
    (hx : x < p.w) (hy : y < p.h) (hx' : x' < q.w) (hy' : y' < q.h) :
    addr p.desc x y + 4 ≤ addr q.desc x' y' ∨ addr q.desc x' y' + 4 ≤ addr p.desc x y := by
  have h1 := addr_in_span hp hx hy
  have h2 := addr_in_span hq hx' hy'
  by_contra hcon
  exact hpq ⟨by omega, by omega⟩

theorem overlaps_comm {p q : Part} : p.Overlaps q ↔ q.Overlaps p := And.comm

end Sys2Proof.Machine
end

