-- ==== Sys2Proof/Laws/State.lean ====
section
/-! SUPPORT. One lemma per field of State per named update, and per field of the registers per quadrant update. -/

namespace Sys2Proof.Machine

@[simp] theorem setRegs_regs (st : State) (r : Regs) : (st.setRegs r).regs = r := rfl
@[simp] theorem setRegs_phase (st : State) (r : Regs) : (st.setRegs r).phase = st.phase := rfl
@[simp] theorem setRegs_work (st : State) (r : Regs) : (st.setRegs r).work = st.work := rfl
@[simp] theorem setRegs_mem (st : State) (r : Regs) : (st.setRegs r).mem = st.mem := rfl
@[simp] theorem setRegs_bus (st : State) (r : Regs) : (st.setRegs r).bus = st.bus := rfl
@[simp] theorem setRegs_hostFault (st : State) (r : Regs) : (st.setRegs r).hostFault = st.hostFault := rfl
@[simp] theorem setRegs_inputs (st : State) (r : Regs) : (st.setRegs r).inputs = st.inputs := rfl
@[simp] theorem setRegs_answer (st : State) (r : Regs) : (st.setRegs r).answer = st.answer := rfl
@[simp] theorem setRegs_draws (st : State) (r : Regs) : (st.setRegs r).draws = st.draws := rfl

@[simp] theorem setPhase_regs (st : State) (p : Phase) : (st.setPhase p).regs = st.regs := rfl
@[simp] theorem setPhase_phase (st : State) (p : Phase) : (st.setPhase p).phase = p := rfl
@[simp] theorem setPhase_work (st : State) (p : Phase) : (st.setPhase p).work = st.work := rfl
@[simp] theorem setPhase_mem (st : State) (p : Phase) : (st.setPhase p).mem = st.mem := rfl
@[simp] theorem setPhase_bus (st : State) (p : Phase) : (st.setPhase p).bus = st.bus := rfl
@[simp] theorem setPhase_hostFault (st : State) (p : Phase) : (st.setPhase p).hostFault = st.hostFault := rfl
@[simp] theorem setPhase_inputs (st : State) (p : Phase) : (st.setPhase p).inputs = st.inputs := rfl
@[simp] theorem setPhase_answer (st : State) (p : Phase) : (st.setPhase p).answer = st.answer := rfl
@[simp] theorem setPhase_draws (st : State) (p : Phase) : (st.setPhase p).draws = st.draws := rfl

@[simp] theorem setWork_regs (st : State) (w : Work) : (st.setWork w).regs = st.regs := rfl
@[simp] theorem setWork_phase (st : State) (w : Work) : (st.setWork w).phase = st.phase := rfl
@[simp] theorem setWork_work (st : State) (w : Work) : (st.setWork w).work = w := rfl
@[simp] theorem setWork_mem (st : State) (w : Work) : (st.setWork w).mem = st.mem := rfl
@[simp] theorem setWork_bus (st : State) (w : Work) : (st.setWork w).bus = st.bus := rfl
@[simp] theorem setWork_hostFault (st : State) (w : Work) : (st.setWork w).hostFault = st.hostFault := rfl
@[simp] theorem setWork_inputs (st : State) (w : Work) : (st.setWork w).inputs = st.inputs := rfl
@[simp] theorem setWork_answer (st : State) (w : Work) : (st.setWork w).answer = st.answer := rfl
@[simp] theorem setWork_draws (st : State) (w : Work) : (st.setWork w).draws = st.draws := rfl

@[simp] theorem setMem_regs (st : State) (m : Memory) : (st.setMem m).regs = st.regs := rfl
@[simp] theorem setMem_phase (st : State) (m : Memory) : (st.setMem m).phase = st.phase := rfl
@[simp] theorem setMem_work (st : State) (m : Memory) : (st.setMem m).work = st.work := rfl
@[simp] theorem setMem_mem (st : State) (m : Memory) : (st.setMem m).mem = m := rfl
@[simp] theorem setMem_bus (st : State) (m : Memory) : (st.setMem m).bus = st.bus := rfl
@[simp] theorem setMem_hostFault (st : State) (m : Memory) : (st.setMem m).hostFault = st.hostFault := rfl
@[simp] theorem setMem_inputs (st : State) (m : Memory) : (st.setMem m).inputs = st.inputs := rfl
@[simp] theorem setMem_answer (st : State) (m : Memory) : (st.setMem m).answer = st.answer := rfl
@[simp] theorem setMem_draws (st : State) (m : Memory) : (st.setMem m).draws = st.draws := rfl

@[simp] theorem setHostFault_regs (st : State) (b : Bool) : (st.setHostFault b).regs = st.regs := rfl
@[simp] theorem setHostFault_phase (st : State) (b : Bool) : (st.setHostFault b).phase = st.phase := rfl
@[simp] theorem setHostFault_work (st : State) (b : Bool) : (st.setHostFault b).work = st.work := rfl
@[simp] theorem setHostFault_mem (st : State) (b : Bool) : (st.setHostFault b).mem = st.mem := rfl
@[simp] theorem setHostFault_bus (st : State) (b : Bool) : (st.setHostFault b).bus = st.bus := rfl
@[simp] theorem setHostFault_hostFault (st : State) (b : Bool) : (st.setHostFault b).hostFault = b := rfl
@[simp] theorem setHostFault_inputs (st : State) (b : Bool) : (st.setHostFault b).inputs = st.inputs := rfl
@[simp] theorem setHostFault_answer (st : State) (b : Bool) : (st.setHostFault b).answer = st.answer := rfl
@[simp] theorem setHostFault_draws (st : State) (b : Bool) : (st.setHostFault b).draws = st.draws := rfl

@[simp] theorem setInputs_regs (st : State) (es : List Event) : (st.setInputs es).regs = st.regs := rfl
@[simp] theorem setInputs_phase (st : State) (es : List Event) : (st.setInputs es).phase = st.phase := rfl
@[simp] theorem setInputs_work (st : State) (es : List Event) : (st.setInputs es).work = st.work := rfl
@[simp] theorem setInputs_mem (st : State) (es : List Event) : (st.setInputs es).mem = st.mem := rfl
@[simp] theorem setInputs_bus (st : State) (es : List Event) : (st.setInputs es).bus = st.bus := rfl
@[simp] theorem setInputs_hostFault (st : State) (es : List Event) : (st.setInputs es).hostFault = st.hostFault := rfl
@[simp] theorem setInputs_inputs (st : State) (es : List Event) : (st.setInputs es).inputs = es := rfl
@[simp] theorem setInputs_answer (st : State) (es : List Event) : (st.setInputs es).answer = st.answer := rfl
@[simp] theorem setInputs_draws (st : State) (es : List Event) : (st.setInputs es).draws = st.draws := rfl

@[simp] theorem setAnswer_regs (st : State) (a : PortAnswer) : (st.setAnswer a).regs = st.regs := rfl
@[simp] theorem setAnswer_phase (st : State) (a : PortAnswer) : (st.setAnswer a).phase = st.phase := rfl
@[simp] theorem setAnswer_work (st : State) (a : PortAnswer) : (st.setAnswer a).work = st.work := rfl
@[simp] theorem setAnswer_mem (st : State) (a : PortAnswer) : (st.setAnswer a).mem = st.mem := rfl
@[simp] theorem setAnswer_bus (st : State) (a : PortAnswer) : (st.setAnswer a).bus = st.bus := rfl
@[simp] theorem setAnswer_hostFault (st : State) (a : PortAnswer) : (st.setAnswer a).hostFault = st.hostFault := rfl
@[simp] theorem setAnswer_inputs (st : State) (a : PortAnswer) : (st.setAnswer a).inputs = st.inputs := rfl
@[simp] theorem setAnswer_answer (st : State) (a : PortAnswer) : (st.setAnswer a).answer = some a := rfl
@[simp] theorem setAnswer_draws (st : State) (a : PortAnswer) : (st.setAnswer a).draws = st.draws := rfl

@[simp] theorem setDraws_regs (st : State) (n : Nat) : (st.setDraws n).regs = st.regs := rfl
@[simp] theorem setDraws_phase (st : State) (n : Nat) : (st.setDraws n).phase = st.phase := rfl
@[simp] theorem setDraws_work (st : State) (n : Nat) : (st.setDraws n).work = st.work := rfl
@[simp] theorem setDraws_mem (st : State) (n : Nat) : (st.setDraws n).mem = st.mem := rfl
@[simp] theorem setDraws_bus (st : State) (n : Nat) : (st.setDraws n).bus = st.bus := rfl
@[simp] theorem setDraws_hostFault (st : State) (n : Nat) : (st.setDraws n).hostFault = st.hostFault := rfl
@[simp] theorem setDraws_inputs (st : State) (n : Nat) : (st.setDraws n).inputs = st.inputs := rfl
@[simp] theorem setDraws_answer (st : State) (n : Nat) : (st.setDraws n).answer = st.answer := rfl
@[simp] theorem setDraws_draws (st : State) (n : Nat) : (st.setDraws n).draws = n := rfl

@[simp] theorem setQ_cmd (r : Regs) (i : Quad) (d : Desc) : (r.setQ i d).cmd = r.cmd := by
  fin_cases i <;> rfl
@[simp] theorem setQ_err (r : Regs) (i : Quad) (d : Desc) : (r.setQ i d).err = r.err := by
  fin_cases i <;> rfl
@[simp] theorem setQ_irqStatus (r : Regs) (i : Quad) (d : Desc) : (r.setQ i d).irqStatus = r.irqStatus := by
  fin_cases i <;> rfl
@[simp] theorem setQ_irqEnable (r : Regs) (i : Quad) (d : Desc) : (r.setQ i d).irqEnable = r.irqEnable := by
  fin_cases i <;> rfl
@[simp] theorem setQ_fillCount (r : Regs) (i : Quad) (d : Desc) : (r.setQ i d).fillCount = r.fillCount := by
  fin_cases i <;> rfl
@[simp] theorem setQ_blackCount (r : Regs) (i : Quad) (d : Desc) : (r.setQ i d).blackCount = r.blackCount := by
  fin_cases i <;> rfl
@[simp] theorem setQ_s (r : Regs) (i : Quad) (d : Desc) : (r.setQ i d).s = r.s := by
  fin_cases i <;> rfl

theorem setQ_q (r : Regs) (i j : Quad) (d : Desc) : (r.setQ i d).q j = if j = i then d else r.q j := by
  fin_cases i <;> fin_cases j <;> rfl

@[simp] theorem setQ_q_same (r : Regs) (i : Quad) (d : Desc) : (r.setQ i d).q i = d := by simp [setQ_q]

theorem regs_ext_q {r r' : Regs} (hc : r.cmd = r'.cmd) (he : r.err = r'.err) (hs : r.irqStatus = r'.irqStatus)
    (hn : r.irqEnable = r'.irqEnable) (hf : r.fillCount = r'.fillCount) (hb : r.blackCount = r'.blackCount)
    (hS : r.s = r'.s) (hq : ∀ i, r.q i = r'.q i) : r = r' := by
  have h0 := hq 0; have h1 := hq 1; have h2 := hq 2; have h3 := hq 3
  cases r; cases r'; simp_all [Regs.q]

/-! The lifecycle operations, field by field. -/

@[simp] theorem launch_phase (st : State) (w : Word) : (st.launch w).phase = .pending w := rfl
@[simp] theorem launch_work (st : State) (w : Word) : (st.launch w).work = .empty := rfl
@[simp] theorem launch_mem (st : State) (w : Word) : (st.launch w).mem = st.mem := rfl
@[simp] theorem launch_bus (st : State) (w : Word) : (st.launch w).bus = st.bus := rfl
@[simp] theorem launch_hostFault (st : State) (w : Word) : (st.launch w).hostFault = st.hostFault := rfl
@[simp] theorem launch_inputs (st : State) (w : Word) : (st.launch w).inputs = st.inputs := rfl
@[simp] theorem launch_answer (st : State) (w : Word) : (st.launch w).answer = st.answer := rfl
@[simp] theorem launch_draws (st : State) (w : Word) : (st.launch w).draws = st.draws := rfl
@[simp] theorem endWithError_phase (st : State) (e : ErrCode) : (st.endWithError e).phase = .idle := rfl
@[simp] theorem endWithError_work (st : State) (e : ErrCode) : (st.endWithError e).work = .empty := rfl
@[simp] theorem endWithError_mem (st : State) (e : ErrCode) : (st.endWithError e).mem = st.mem := rfl
@[simp] theorem endWithError_bus (st : State) (e : ErrCode) : (st.endWithError e).bus = st.bus := rfl
@[simp] theorem endWithError_hostFault (st : State) (e : ErrCode) : (st.endWithError e).hostFault = st.hostFault := rfl
@[simp] theorem endWithError_inputs (st : State) (e : ErrCode) : (st.endWithError e).inputs = st.inputs := rfl
@[simp] theorem endWithError_answer (st : State) (e : ErrCode) : (st.endWithError e).answer = st.answer := rfl
@[simp] theorem endWithError_draws (st : State) (e : ErrCode) : (st.endWithError e).draws = st.draws := rfl
@[simp] theorem launch_regs (st : State) (w : Word) :
    (st.launch w).regs = { st.regs with cmd := w, err := .ok, fillCount := 0, blackCount := 0 } := rfl
@[simp] theorem endWithError_regs (st : State) (e : ErrCode) :
    (st.endWithError e).regs = { st.regs with irqStatus := st.regs.irqStatus ||| irqError, err := e } := rfl
@[simp] theorem complete_phase (st : State) : st.complete.phase = .idle := rfl
@[simp] theorem complete_work (st : State) : st.complete.work = .empty := rfl
@[simp] theorem complete_mem (st : State) : st.complete.mem = st.mem := rfl
@[simp] theorem complete_bus (st : State) : st.complete.bus = st.bus := rfl
@[simp] theorem complete_hostFault (st : State) : st.complete.hostFault = st.hostFault := rfl
@[simp] theorem complete_inputs (st : State) : st.complete.inputs = st.inputs := rfl
@[simp] theorem complete_answer (st : State) : st.complete.answer = st.answer := rfl
@[simp] theorem complete_draws (st : State) : st.complete.draws = st.draws := rfl
@[simp] theorem complete_regs (st : State) :
    st.complete.regs = { st.regs with irqStatus := st.regs.irqStatus ||| irqDone, err := .ok } := rfl
@[simp] theorem setCounts_phase (st : State) (f b : Word) : (st.setCounts f b).phase = st.phase := rfl
@[simp] theorem setCounts_work (st : State) (f b : Word) : (st.setCounts f b).work = st.work := rfl
@[simp] theorem setCounts_mem (st : State) (f b : Word) : (st.setCounts f b).mem = st.mem := rfl
@[simp] theorem setCounts_bus (st : State) (f b : Word) : (st.setCounts f b).bus = st.bus := rfl
@[simp] theorem setCounts_hostFault (st : State) (f b : Word) : (st.setCounts f b).hostFault = st.hostFault := rfl
@[simp] theorem setCounts_inputs (st : State) (f b : Word) : (st.setCounts f b).inputs = st.inputs := rfl
@[simp] theorem setCounts_answer (st : State) (f b : Word) : (st.setCounts f b).answer = st.answer := rfl
@[simp] theorem setCounts_draws (st : State) (f b : Word) : (st.setCounts f b).draws = st.draws := rfl
@[simp] theorem setCounts_regs (st : State) (f b : Word) :
    (st.setCounts f b).regs = { st.regs with fillCount := f, blackCount := b } := rfl

end Sys2Proof.Machine
end

