-- ==== Sys2Proof/Laws/Validate.lean ====
section
/-! SUPPORT. What a command that passed validation has been checked for, and the laws of the write-back. -/

namespace Sys2Proof.Machine

/-- What SPLIT has been checked for when it passes. -/
structure SplitOk (r : Regs) : Prop where
  wPos : 1 ≤ r.s.width.toNat
  hPos : 1 ≤ r.s.height.toNat
  wEven : r.s.width.toNat % 2 = 0
  hEven : r.s.height.toNat % 2 = 0
  legalS : Legal r.s r.s.width.toNat r.s.height.toNat
  legalQ : ∀ i, Legal (r.q i) (r.s.width.toNat / 2) (r.s.height.toNat / 2)
  apart : (splitParts r).Pairwise fun a b => ¬ a.Overlaps b

theorem validateSplit_ok {r : Regs} : validateSplit r = .ok ↔ SplitOk r := by
  unfold validateSplit
  simp only
  constructor
  · intro h
    split at h
    · simp at h
    · split at h
      · simp at h
      · split at h
        · simp at h
        · rename_i h1 h2 h3
          simp only [not_not] at h2 h3
          refine ⟨by omega, by omega, by omega, by omega, h2 _ (List.mem_cons_self ..), fun i => ?_, h3⟩
          exact h2 ⟨r.q i, _, _, true⟩ (List.mem_cons_of_mem _ (List.mem_map.2 ⟨i, mem_quads i, rfl⟩))
  · intro h
    have h2 : ∀ part ∈ splitParts r, part.Legal := by
      intro part hp
      rcases List.mem_cons.1 hp with rfl | hp
      · exact h.legalS
      · obtain ⟨i, _, rfl⟩ := List.mem_map.1 hp
        exact h.legalQ i
    rw [if_neg (by have := h.wPos; have := h.hPos; have := h.wEven; have := h.hEven; omega), if_neg (not_not.2 h2),
      if_neg (not_not.2 h.apart)]

/-- What RECON.* with mask p has been checked for when it passes. -/
structure ReconOk (exact : Bool) (p : BitVec 4) (r : Regs) : Prop where
  some : p ≠ 0
  all : exact = true → p = 0b1111
  dims : ∀ i, present p i = true → (r.q i).width.toNat = (quadDims p r).1 ∧ (r.q i).height.toNat = (quadDims p r).2
  wPos : 1 ≤ (quadDims p r).1
  hPos : 1 ≤ (quadDims p r).2
  wMax : (quadDims p r).1 ≤ 0x7FFF
  hMax : (quadDims p r).2 ≤ 0x7FFF
  legalS : Legal r.s (2 * (quadDims p r).1) (2 * (quadDims p r).2)
  legalQ : ∀ i, present p i = true → Legal (r.q i) (quadDims p r).1 (quadDims p r).2
  apart : ∀ part ∈ inParts (presentQuads p) p r, ¬ (outPart p r).Overlaps part

theorem validateRecon_ok {e : Bool} {p : BitVec 4} {r : Regs} : validateRecon e p r = .ok ↔ ReconOk e p r := by
  unfold validateRecon
  simp only
  constructor
  · intro h
    split at h
    · simp at h
    split at h
    · simp at h
    split at h
    · simp at h
    split at h
    · simp at h
    split at h
    · simp at h
    split at h
    · simp at h
    rename_i h1 h2 h3 h4 h5 h6
    simp only [not_not, not_exists, not_and, not_or] at h2 h3 h4 h5 h6
    refine ⟨h1, h2, ?_, by omega, by omega, by omega, by omega, h5 _ (List.mem_cons_self ..), ?_,
      fun part hp ho => h6 part hp ho.1 ho.2⟩
    · intro i hi
      have := h3 i (mem_presentQuads.2 hi)
      exact ⟨(Prod.mk.inj this).1, (Prod.mk.inj this).2⟩
    · intro i hi
      exact h5 ⟨r.q i, _, _, false⟩ (List.mem_cons_of_mem _ (List.mem_map.2 ⟨i, mem_presentQuads.2 hi, rfl⟩))
  · intro h
    have h2 : ∀ part ∈ outPart p r :: inParts (presentQuads p) p r, part.Legal := by
      intro part hp
      rcases List.mem_cons.1 hp with rfl | hp
      · exact h.legalS
      · obtain ⟨i, hi, rfl⟩ := List.mem_map.1 hp
        exact h.legalQ i (mem_presentQuads.1 hi)
    have h3 : ¬ ∃ i ∈ presentQuads p, ((r.q i).width.toNat, (r.q i).height.toNat) ≠ ((quadDims p r).1, (quadDims p r).2) := by
      rintro ⟨i, hi, hne⟩
      exact hne (Prod.ext (h.dims i (mem_presentQuads.1 hi)).1 (h.dims i (mem_presentQuads.1 hi)).2)
    have h6 : ¬ ∃ part ∈ inParts (presentQuads p) p r, (outPart p r).Overlaps part := by
      rintro ⟨part, hp, ho⟩
      exact h.apart part hp ho
    rw [if_neg h.some, if_neg (fun hc => hc.2 (h.all hc.1)), if_neg h3,
      if_neg (by have := h.wPos; have := h.hPos; have := h.wMax; have := h.hMax; omega), if_neg (not_not.2 h2), if_neg h6]

/-! ### The write-back -/

@[simp] theorem resize_base (d : Desc) (w h : Nat) : (d.resize w h).base = d.base := rfl
@[simp] theorem resize_stride (d : Desc) (w h : Nat) : (d.resize w h).stride = d.stride := rfl
@[simp] theorem addr_resize (d : Desc) (w h x y : Nat) : addr (d.resize w h) x y = addr d x y := rfl
@[simp] theorem spanLo_resize (d : Desc) (w h : Nat) : spanLo (d.resize w h) = spanLo d := rfl
@[simp] theorem spanHi_resize (d : Desc) (w h w' h' : Nat) : spanHi (d.resize w h) w' h' = spanHi d w' h' := rfl
theorem legal_resize (d : Desc) (w h w' h' : Nat) : Legal (d.resize w h) w' h' ↔ Legal d w' h' := Iff.rfl

/-- The write-back of SPLIT, the four quadrants written out. -/
theorem writeBackSplit_eq (r : Regs) : writeBackSplit r =
    { r with
      q0 := r.q0.resize (r.s.width.toNat / 2) (r.s.height.toNat / 2)
      q1 := r.q1.resize (r.s.width.toNat / 2) (r.s.height.toNat / 2)
      q2 := r.q2.resize (r.s.width.toNat / 2) (r.s.height.toNat / 2)
      q3 := r.q3.resize (r.s.width.toNat / 2) (r.s.height.toNat / 2) } := rfl

theorem writeBackSplit_q (r : Regs) (i : Quad) :
    (writeBackSplit r).q i = (r.q i).resize (r.s.width.toNat / 2) (r.s.height.toNat / 2) := by
  fin_cases i <;> rfl

@[simp] theorem writeBackSplit_s (r : Regs) : (writeBackSplit r).s = r.s := rfl
@[simp] theorem writeBackRecon_s (p : BitVec 4) (r : Regs) :
    (writeBackRecon p r).s = r.s.resize (2 * (quadDims p r).1) (2 * (quadDims p r).2) := rfl
@[simp] theorem writeBackRecon_q (p : BitVec 4) (r : Regs) (i : Quad) : (writeBackRecon p r).q i = r.q i := by
  fin_cases i <;> rfl

@[simp] theorem quadDims_writeBackRecon (p : BitVec 4) (r : Regs) : quadDims p (writeBackRecon p r) = quadDims p r := by
  simp [quadDims]

/-- The registers a write-back may change: the output descriptors only (R38). -/
theorem writeBack_cmd (i : Instr) (r : Regs) :
    (writeBack i r).cmd = r.cmd ∧ (writeBack i r).err = r.err ∧ (writeBack i r).irqStatus = r.irqStatus ∧
      (writeBack i r).irqEnable = r.irqEnable ∧ (writeBack i r).fillCount = r.fillCount ∧
      (writeBack i r).blackCount = r.blackCount := by
  cases i <;> exact ⟨rfl, rfl, rfl, rfl, rfl, rfl⟩

theorem splitOk_writeBack {r : Regs} (h : SplitOk r) : SplitOk (writeBackSplit r) := by
  refine ⟨h.wPos, h.hPos, h.wEven, h.hEven, h.legalS, fun i => ?_, ?_⟩
  · rw [writeBackSplit_q]; exact h.legalQ i
  · have := h.apart
    simp only [splitParts, quads, List.map, List.pairwise_cons, List.mem_cons, List.not_mem_nil, or_false, forall_eq_or_imp,
      forall_eq, writeBackSplit_q, writeBackSplit_s] at this ⊢
    exact this

theorem reconOk_writeBack {e : Bool} {p : BitVec 4} {r : Regs} (h : ReconOk e p r) : ReconOk e p (writeBackRecon p r) := by
  have hq := quadDims_writeBackRecon p r
  refine ⟨h.some, h.all, fun i hi => ?_, ?_, ?_, ?_, ?_, ?_, fun i hi => ?_, fun part hp => ?_⟩
  all_goals try simp only [quadDims_writeBackRecon, writeBackRecon_q]
  · exact h.dims i hi
  · exact h.wPos
  · exact h.hPos
  · exact h.wMax
  · exact h.hMax
  · exact h.legalS
  · exact h.legalQ i hi
  · have : inParts (presentQuads p) p (writeBackRecon p r) = inParts (presentQuads p) p r := by
      simp [inParts]
    rw [this] at hp
    have := h.apart part hp
    simpa [outPart, Part.Overlaps] using this

/-- Validation still passes after the write-back: it reads no output dimension (R92, R201). -/
theorem validate_writeBack {i : Instr} {r : Regs} (h : validate i r = .ok) : validate i (writeBack i r) = .ok := by
  cases i with
  | split => exact validateSplit_ok.2 (splitOk_writeBack (validateSplit_ok.1 h))
  | reconExact p => exact validateRecon_ok.2 (reconOk_writeBack (validateRecon_ok.1 h))
  | reconHeur p => exact validateRecon_ok.2 (reconOk_writeBack (validateRecon_ok.1 h))
  | reconInpaint p => exact validateRecon_ok.2 (reconOk_writeBack (validateRecon_ok.1 h))

theorem resize_resize (d : Desc) (w h : Nat) : (d.resize w h).resize w h = d.resize w h := rfl

theorem writeBackRecon_idem (p : BitVec 4) (r : Regs) : writeBackRecon p (writeBackRecon p r) = writeBackRecon p r := by
  have h := quadDims_writeBackRecon p r
  generalize hr : writeBackRecon p r = r' at h ⊢
  unfold writeBackRecon
  rw [h]
  subst hr
  rfl

theorem writeBack_idem (i : Instr) (r : Regs) : writeBack i (writeBack i r) = writeBack i r := by
  cases i with
  | split =>
    simp only [writeBack]
    rw [writeBackSplit_eq (writeBackSplit r), writeBackSplit_eq r]
    rfl
  | reconExact p => exact writeBackRecon_idem p r
  | reconHeur p => exact writeBackRecon_idem p r
  | reconInpaint p => exact writeBackRecon_idem p r

/-- The write-back of a validated command makes its registers those of phase RUNNING. -/
theorem validated_writeBack {i : Instr} {r : Regs} (h : validate i r = .ok) : Validated i (writeBack i r) :=
  ⟨validate_writeBack h, writeBack_idem i r⟩

end Sys2Proof.Machine
end

