-- ==== Sys2Proof/Laws/Run.lean ====
section
/-! SUPPORT. The laws of a run: how it can end, what memory holds then, and the memory work of each command. -/

namespace Sys2Proof.Machine

/-! ### How the accesses can end -/

theorem fates_ne_nil (need may : List BusAnswer) : fates need may ≠ [] := by
  unfold fates
  by_cases h : ∀ a ∈ need, a = BusAnswer.ok
  · rw [if_pos h]; simp
  · simp only [not_forall] at h
    obtain ⟨a, ha, hne⟩ := h
    cases a with
    | ok => exact absurd rfl hne
    | err => simp [ha]
    | never => simp [ha]

theorem pickFate_mem {l : List Fate} (n : Nat) (h : l ≠ []) : pickFate n l ∈ l := by
  match l, h with
  | [f], _ => simp [pickFate]
  | f :: g :: t, _ =>
    simp only [pickFate, List.getD_eq_getElem?_getD]
    have hlt : n % (f :: g :: t).length < (f :: g :: t).length := Nat.mod_lt _ (by simp)
    rw [List.getElem?_eq_getElem hlt]
    exact List.getElem_mem hlt

theorem fate_mem (st : State) (job : Job) :
    st.fate job ∈ fates ((job.reads.map fun a => st.busAnswer a .read) ++ (job.writes.map fun e => st.busAnswer e.1 .write))
      (job.writes.map fun e => st.busAnswer e.1 .read) :=
  pickFate_mem _ (fates_ne_nil _ _)

/-- A run whose accesses all answer OK, read-back included, completes. -/
theorem fate_eq_done {st : State} {job : Job} (hr : ∀ a ∈ job.reads, st.BusOk a .read)
    (hw : ∀ e ∈ job.writes, st.BusOk e.1 .write ∧ st.BusOk e.1 .read) : st.fate job = .done := by
  have h := fate_mem st job
  generalize st.fate job = f at h ⊢
  cases f with
  | done => rfl
  | failed =>
    exfalso
    simp [fates] at h
    rcases h with ⟨a, ha, h⟩ | ⟨a, ⟨v, ha⟩, h⟩ | ⟨a, ⟨v, ha⟩, h⟩
    · exact absurd ((hr a ha).symm.trans h) (by decide)
    · exact absurd ((hw (a, v) ha).1.symm.trans h) (by decide)
    · exact absurd ((hw (a, v) ha).2.symm.trans h) (by decide)
  | hung =>
    exfalso
    simp [fates] at h
    rcases h with ⟨a, ha, h⟩ | ⟨a, ⟨v, ha⟩, h⟩ | ⟨a, ⟨v, ha⟩, h⟩
    · exact absurd ((hr a ha).symm.trans h) (by decide)
    · exact absurd ((hw (a, v) ha).1.symm.trans h) (by decide)
    · exact absurd ((hw (a, v) ha).2.symm.trans h) (by decide)

/-- A run completes only if every access it must make answered OK. -/
theorem ok_of_fate_done {st : State} {job : Job} (h : st.fate job = .done) :
    (∀ a ∈ job.reads, st.BusOk a .read) ∧ ∀ e ∈ job.writes, st.BusOk e.1 .write := by
  have hm := fate_mem st job
  rw [h] at hm
  simp only [fates, List.mem_append] at hm
  rcases hm with (hm | hm) | hm
  · split at hm
    · rename_i hall
      exact ⟨fun a ha => hall _ (by simp; exact .inl ⟨a, ha, rfl⟩), fun e he => hall _ (by simp; exact .inr ⟨e.1, ⟨e.2, he⟩, rfl⟩)⟩
    · simp at hm
  · split at hm <;> simp at hm
  · split at hm <;> simp at hm

/-- A run ends with BUS_ERROR only if an access answered ERR: one it must make, or the read-back of an output word. -/
theorem err_of_fate_failed {st : State} {job : Job} (h : st.fate job = .failed) :
    (∃ a ∈ job.reads, st.busAnswer a .read = .err) ∨
      ∃ e ∈ job.writes, st.busAnswer e.1 .write = .err ∨ st.busAnswer e.1 .read = .err := by
  have hm := fate_mem st job
  rw [h] at hm
  simp [fates] at hm
  rcases hm with ⟨a, ha, h⟩ | ⟨a, ⟨v, ha⟩, h⟩ | ⟨a, ⟨v, ha⟩, h⟩
  · exact .inl ⟨a, ha, h⟩
  · exact .inr ⟨(a, v), ha, .inl h⟩
  · exact .inr ⟨(a, v), ha, .inr h⟩

/-- A run hangs only if an access never answers. -/
theorem never_of_fate_hung {st : State} {job : Job} (h : st.fate job = .hung) :
    (∃ a ∈ job.reads, st.busAnswer a .read = .never) ∨
      ∃ e ∈ job.writes, st.busAnswer e.1 .write = .never ∨ st.busAnswer e.1 .read = .never := by
  have hm := fate_mem st job
  rw [h] at hm
  simp [fates] at hm
  rcases hm with ⟨a, ha, h⟩ | ⟨a, ⟨v, ha⟩, h⟩ | ⟨a, ⟨v, ha⟩, h⟩
  · exact .inl ⟨a, ha, h⟩
  · exact .inr ⟨(a, v), ha, .inl h⟩
  · exact .inr ⟨(a, v), ha, .inr h⟩

theorem busOk_lt {st : State} {a : Nat} {k : Access} (h : st.BusOk a k) : a + 4 ≤ 2 ^ 32 := by
  unfold State.BusOk State.busAnswer at h
  split at h
  · assumption
  · simp at h

theorem not_err_lt {st : State} {a : Nat} {k : Access} (h : st.busAnswer a k ≠ .err) : a + 4 ≤ 2 ^ 32 := by
  unfold State.busAnswer at h
  split at h
  · assumption
  · exact absurd rfl h

/-! ### Memory after a run -/

theorem zipIdx_map_pair (ws : List (Nat × Word)) (n : Nat) : (ws.zipIdx n).map (fun e => (e.1.1, e.1.2)) = ws := by
  induction ws generalizing n with
  | nil => rfl
  | cons e t ih => simp [List.zipIdx_cons, ih]

/-- Without a host protocol violation every output word ends as its final value. -/
theorem memDone_safe {st : State} (h : st.hostFault = false) (ws : List (Nat × Word)) : st.memDone ws = st.mem.writeAll ws := by
  simp [State.memDone, State.finalWord, h]

theorem apart_of_mem {ws : List (Nat × Word)} (h : ws.Pairwise Apart) {e f : Nat × Word} (he : e ∈ ws) (hf : f ∈ ws)
    (hne : e ≠ f) : Apart e f :=
  haveI : Std.Symm Apart := ⟨fun _ _ h => Or.symm h⟩
  List.Pairwise.forall h he hf hne

/-- The words a command that is cut short has written are output words, each with its final value when no violation has
happened, and the memory port did not refuse them. -/
theorem written_mem {st : State} {ws : List (Nat × Word)} {e : Nat × Word} (he : e ∈ st.written ws) :
    ∃ f ∈ ws, f.1 = e.1 ∧ (st.hostFault = false → f = e) ∧ st.busAnswer e.1 .write ≠ .err := by
  simp only [State.written, List.mem_map, List.mem_filter] at he
  obtain ⟨⟨f, n⟩, ⟨hf, hc⟩, rfl⟩ := he
  refine ⟨f, List.fst_mem_of_mem_zipIdx hf, rfl, fun h => ?_, ?_⟩
  · simp [State.finalWord, h]
  · simp only [Bool.and_eq_true, bne_iff_ne] at hc
    exact hc.2

theorem written_apart {st : State} {ws : List (Nat × Word)} (h : ws.Pairwise Apart) : (st.written ws).Pairwise Apart := by
  unfold State.written
  rw [List.pairwise_map]
  refine List.Pairwise.filter _ ?_
  have : (ws.zipIdx.map Prod.fst).Pairwise Apart := by rw [List.zipIdx_map_fst]; exact h
  rw [List.pairwise_map] at this
  exact this

/-- After a command that is cut short, every output word holds its value from before or its final one. -/
theorem memMixed_word {st : State} (hs : st.hostFault = false) (hm : Memory.wf st.mem = true) {ws : List (Nat × Word)}
    (hap : ws.Pairwise Apart) {e : Nat × Word} (he : e ∈ ws) :
    (st.memMixed ws).readWord e.1 = e.2 ∨ (st.memMixed ws).readWord e.1 = st.mem.readWord e.1 := by
  by_cases hw : e ∈ st.written ws
  · left
    exact readWord_writeAll_mem hm (fun f hf => not_err_lt (written_mem hf).choose_spec.2.2.2) (written_apart hap) hw
  · right
    apply readWord_writeAll_other
    intro f hf
    obtain ⟨g, hg, h1, h2, h3⟩ := written_mem hf
    have hgf := h2 hs
    subst hgf
    have hne : e ≠ g := fun h => hw (h ▸ hf)
    exact apart_of_mem hap he hg hne

/-- After a command that is cut short, every byte outside the output words is unchanged (R176). -/
theorem memMixed_other {st : State} {ws : List (Nat × Word)} {a : Nat} (h : ∀ e ∈ ws, a < e.1 ∨ e.1 + 4 ≤ a) :
    (st.memMixed ws).read a = st.mem.read a := by
  apply read_writeAll_other
  intro e he
  obtain ⟨f, hf, h1, _⟩ := written_mem he
  rw [← h1]
  exact h f hf

theorem wf_memMixed {st : State} (hm : Memory.wf st.mem = true) (ws : List (Nat × Word)) :
    Memory.wf (st.memMixed ws) = true :=
  wf_writeAll hm fun _ hf => not_err_lt (written_mem hf).choose_spec.2.2.2

theorem wf_memDone {st : State} (hm : Memory.wf st.mem = true) {ws : List (Nat × Word)}
    (h : ∀ e ∈ ws, e.1 + 4 ≤ 2 ^ 32) : Memory.wf (st.memDone ws) = true := by
  apply wf_writeAll hm
  intro e he
  simp only [List.mem_map] at he
  obtain ⟨⟨f, n⟩, hf, rfl⟩ := he
  exact h f (List.fst_mem_of_mem_zipIdx hf)

theorem memDone_other {st : State} {ws : List (Nat × Word)} {a : Nat} (h : ∀ e ∈ ws, a < e.1 ∨ e.1 + 4 ≤ a) :
    (st.memDone ws).read a = st.mem.read a := by
  apply read_writeAll_other
  intro e he
  simp only [List.mem_map] at he
  obtain ⟨⟨f, n⟩, hf, rfl⟩ := he
  exact h f (List.fst_mem_of_mem_zipIdx hf)

/-! ### The run step -/

/-- Everything the run step of SPLIT, RECON.EXACT and RECON.HEUR can do. -/
theorem runStep_cases (job : Job) (st : State) :
    (st.fate job = .done ∧ runStep job st = (st.setMem (st.memDone job.writes)).complete) ∨
    (st.fate job = .failed ∧ runStep job st = (st.setMem (st.memMixed job.writes)).endWithError .busError) ∨
    (st.fate job = .hung ∧ runStep job st = st) := by
  unfold runStep
  cases h : st.fate job
  · exact .inl ⟨rfl, rfl⟩
  · exact .inr (.inl ⟨rfl, rfl⟩)
  · exact .inr (.inr ⟨rfl, rfl⟩)

end Sys2Proof.Machine
end

