-- ==== Sys2Proof/Laws/Jobs.lean ====
section
/-! SUPPORT. The memory work of each command: which words it reads and writes, that the written words share no byte, and
what a command that completes leaves in memory. -/

namespace Sys2Proof.Machine

/-- A memory work is that of a validated command: it reads pixel words of input buffers and writes every pixel word of the
output buffers, each inside the space and apart from the others. -/
structure JobFits (i : Instr) (r : Regs) (job : Job) : Prop where
  reads : ∀ a ∈ job.reads, ∃ part ∈ parts i r, part.out = false ∧ ∃ x y, x < part.w ∧ y < part.h ∧ a = addr part.desc x y
  writes : ∀ e ∈ job.writes, ∃ part ∈ parts i r, part.out = true ∧ ∃ x y, x < part.w ∧ y < part.h ∧ e.1 = addr part.desc x y
  space : ∀ e ∈ job.writes, e.1 + 4 ≤ 2 ^ 32
  apart : job.writes.Pairwise Apart

/-! ### SPLIT -/

theorem mem_splitParts_q (r : Regs) (i : Quad) :
    (⟨r.q i, r.s.width.toNat / 2, r.s.height.toNat / 2, true⟩ : Part) ∈ splitParts r :=
  List.mem_cons_of_mem _ (List.mem_map.2 ⟨i, mem_quads i, rfl⟩)

theorem splitJob_writes_mem {r : Regs} {m : Memory} {e : Nat × Word} :
    e ∈ (splitJob r m).writes ↔ ∃ i qx qy, qx < r.s.width.toNat / 2 ∧ qy < r.s.height.toNat / 2 ∧
      e = (addr (r.q i) qx qy, m.readWord (addr r.s (fullX i qx) (fullY i qy))) := by
  simp only [splitJob, List.mem_flatMap, mem_grid, pixWrite, pixRead, wordOf_pixelOf]
  constructor
  · rintro ⟨i, _, x, y, hx, hy, rfl⟩; exact ⟨i, x, y, hx, hy, rfl⟩
  · rintro ⟨i, x, y, hx, hy, rfl⟩; exact ⟨i, mem_quads i, x, y, hx, hy, rfl⟩

/-- The quadrant buffers of a validated SPLIT are apart. -/
theorem splitOk_quads_apart {r : Regs} (h : SplitOk r) {i j : Quad} (hij : i < j) :
    ¬ (⟨r.q i, r.s.width.toNat / 2, r.s.height.toNat / 2, true⟩ : Part).Overlaps
      ⟨r.q j, r.s.width.toNat / 2, r.s.height.toNat / 2, true⟩ := by
  have h1 := (List.pairwise_cons.1 h.apart).2
  rw [List.pairwise_map] at h1
  have hq : quads.Pairwise fun a b => a < b := by decide
  have h2 := List.pairwise_iff_getElem.1 h1
  have hi : quads[i.val]'(by simp [quads]) = i := by clear hij h1 h2; revert i; decide
  have hj : quads[j.val]'(by simp [quads]) = j := by clear hij hi h1 h2; revert j; decide
  have := h2 i.val j.val (by simp [quads]) (by simp [quads]) hij
  rwa [hi, hj] at this

theorem splitJob_fits {r : Regs} (h : SplitOk r) (m : Memory) : JobFits .split r (splitJob r m) where
  reads := by
    intro a ha
    simp only [splitJob, mem_grid] at ha
    obtain ⟨x, y, hx, hy, rfl⟩ := ha
    exact ⟨_, List.mem_cons_self .., rfl, x, y, hx, hy, rfl⟩
  writes := by
    intro e he
    obtain ⟨i, x, y, hx, hy, rfl⟩ := splitJob_writes_mem.1 he
    exact ⟨_, mem_splitParts_q r i, rfl, x, y, hx, hy, rfl⟩
  space := by
    intro e he
    obtain ⟨i, x, y, hx, hy, rfl⟩ := splitJob_writes_mem.1 he
    exact addr_lt (h.legalQ i) hx hy
  apart := by
    unfold splitJob
    simp only
    rw [List.pairwise_flatMap]
    constructor
    · intro i _
      exact pairwise_grid fun x y x' y' hx hy hx' hy' hne => addr_apart (h.legalQ i) hx hx' hne
    · have hq : quads.Pairwise fun a b => a < b := by decide
      refine hq.imp ?_
      intro i j hij e he f hf
      obtain ⟨x, y, hx, hy, rfl⟩ := mem_grid.1 he
      obtain ⟨x', y', hx', hy', rfl⟩ := mem_grid.1 hf
      exact addr_apart_of_disjoint (p := ⟨r.q i, _, _, true⟩) (q := ⟨r.q j, _, _, true⟩) (h.legalQ i) (h.legalQ j)
        (splitOk_quads_apart h hij) hx hy hx' hy'

/-! ### RECON.* -/

theorem parts_recon_out {i : Instr} {p : BitVec 4} {r : Regs} (hp : p ≠ 0)
    (hi : i = .reconExact p ∨ i = .reconHeur p ∨ i = .reconInpaint p) : outPart p r ∈ parts i r := by
  rcases hi with rfl | rfl | rfl <;>
  · simp only [parts]; rw [if_neg hp]; exact List.mem_cons_self ..

theorem parts_recon_in {i : Instr} {p : BitVec 4} {r : Regs} (hp : p ≠ 0)
    (hi : i = .reconExact p ∨ i = .reconHeur p ∨ i = .reconInpaint p) {j : Quad} (hj : present p j = true) :
    (⟨r.q j, (quadDims p r).1, (quadDims p r).2, false⟩ : Part) ∈ parts i r := by
  have h1 : j ∈ presentQuads p := mem_presentQuads.2 hj
  rcases hi with rfl | rfl | rfl <;> simp only [parts] <;> rw [if_neg hp]
  · exact List.mem_cons_of_mem _ (List.mem_map.2 ⟨j, mem_quads j, rfl⟩)
  · exact List.mem_cons_of_mem _ (List.mem_map.2 ⟨j, h1, rfl⟩)
  · exact List.mem_cons_of_mem _ (List.mem_map.2 ⟨j, h1, rfl⟩)

theorem outWords_fit {i : Instr} {p : BitVec 4} {r : Regs} (hp : p ≠ 0)
    (hi : i = .reconExact p ∨ i = .reconHeur p ∨ i = .reconInpaint p)
    (hl : Legal r.s (2 * (quadDims p r).1) (2 * (quadDims p r).2)) {job : Job}
    (hr : ∀ a ∈ job.reads, ∃ j, present p j = true ∧ ∃ x y, x < (quadDims p r).1 ∧ y < (quadDims p r).2 ∧ a = addr (r.q j) x y)
    {f : Nat → Nat → Pixel}
    (hw : job.writes = grid (2 * (quadDims p r).1) (2 * (quadDims p r).2) fun x y => pixWrite r.s x y (f x y)) :
    JobFits i r job where
  reads := by
    intro a ha
    obtain ⟨j, hj, x, y, hx, hy, rfl⟩ := hr a ha
    exact ⟨_, parts_recon_in hp hi hj, rfl, x, y, hx, hy, rfl⟩
  writes := by
    intro e he
    rw [hw] at he
    obtain ⟨x, y, hx, hy, rfl⟩ := mem_grid.1 he
    exact ⟨_, parts_recon_out hp hi, rfl, x, y, hx, hy, rfl⟩
  space := by
    intro e he
    rw [hw] at he
    obtain ⟨x, y, hx, hy, rfl⟩ := mem_grid.1 he
    exact addr_lt hl hx hy
  apart := by
    rw [hw]
    exact pairwise_grid fun x y x' y' hx hy hx' hy' hne => addr_apart hl hx hx' hne

theorem exactJob_fits {p : BitVec 4} {r : Regs} (h : ReconOk true p r) (m : Memory) :
    JobFits (.reconExact p) r (exactJob p r m) := by
  have hp : p = 0b1111 := h.all rfl
  refine outWords_fit h.some (.inl rfl) h.legalS ?_ (f := fun x y => pixRead m (r.q (phaseOf x y)) (x / 2) (y / 2)) rfl
  intro a ha
  simp only [exactJob, List.mem_flatMap, mem_grid] at ha
  obtain ⟨j, _, x, y, hx, hy, rfl⟩ := ha
  exact ⟨j, by subst hp; revert j; decide, x, y, hx, hy, rfl⟩

theorem inpaintReads_mem {p : BitVec 4} {r : Regs} {a : Nat} (ha : a ∈ inpaintReads p r) :
    ∃ j, present p j = true ∧ ∃ x y, x < (quadDims p r).1 ∧ y < (quadDims p r).2 ∧ a = addr (r.q j) x y := by
  simp only [inpaintReads, List.mem_flatMap, mem_grid] at ha
  obtain ⟨j, hj, x, y, hx, hy, rfl⟩ := ha
  exact ⟨j, mem_presentQuads.1 hj, x, y, hx, hy, rfl⟩

theorem inpaintJob_fits {p : BitVec 4} {st : State} (h : ReconOk false p st.regs) :
    JobFits (.reconInpaint p) st.regs (inpaintJob p st) :=
  outWords_fit h.some (.inr (.inr rfl)) h.legalS (fun _ ha => inpaintReads_mem ha) rfl

theorem heurJob_writes_mem {p : BitVec 4} {r : Regs} {m : Memory} {e : Nat × Word} :
    e ∈ (heurJob p r m).writes ↔ ∃ j bx cy, bx < (quadDims p r).1 ∧ cy < (quadDims p r).2 ∧
      e = (addr r.s (fullX j bx) (fullY j cy), wordOf (heurBlock p (candidates p r m bx cy) j)) := by
  simp only [heurJob, List.mem_flatten, mem_grid]
  constructor
  · rintro ⟨_, ⟨x, y, hx, hy, rfl⟩, he⟩
    obtain ⟨j, _, rfl⟩ := List.mem_map.1 he
    exact ⟨j, x, y, hx, hy, rfl⟩
  · rintro ⟨j, x, y, hx, hy, rfl⟩
    exact ⟨_, ⟨x, y, hx, hy, rfl⟩, List.mem_map.2 ⟨j, mem_quads j, rfl⟩⟩

theorem heurJob_fits {p : BitVec 4} {r : Regs} (h : ReconOk false p r) (m : Memory) :
    JobFits (.reconHeur p) r (heurJob p r m) where
  reads := by
    intro a ha
    obtain ⟨j, hj, x, y, hx, hy, rfl⟩ := inpaintReads_mem ha
    exact ⟨_, parts_recon_in h.some (.inr (.inl rfl)) hj, rfl, x, y, hx, hy, rfl⟩
  writes := by
    intro e he
    obtain ⟨j, x, y, hx, hy, rfl⟩ := heurJob_writes_mem.1 he
    exact ⟨_, parts_recon_out h.some (.inr (.inl rfl)), rfl, _, _, fullX_lt hx, fullY_lt hy, rfl⟩
  space := by
    intro e he
    obtain ⟨j, x, y, hx, hy, rfl⟩ := heurJob_writes_mem.1 he
    exact addr_lt h.legalS (fullX_lt hx) (fullY_lt hy)
  apart := by
    unfold heurJob
    simp only
    rw [List.pairwise_flatten]
    constructor
    · intro l hl
      obtain ⟨x, y, hx, hy, rfl⟩ := mem_grid.1 hl
      rw [List.pairwise_map]
      have hq : quads.Pairwise fun a b => a ≠ b := by decide
      refine hq.imp ?_
      intro i j hij
      refine addr_apart h.legalS (fullX_lt hx) (fullX_lt hx) ?_
      by_contra hcon
      simp only [not_or, not_not] at hcon
      have := phaseOf_full i x y
      rw [hcon.1, hcon.2, phaseOf_full] at this
      exact hij this.symm
    · refine pairwise_grid ?_
      intro x y x' y' hx hy hx' hy' hne e he f hf
      obtain ⟨i, _, rfl⟩ := List.mem_map.1 he
      obtain ⟨j, _, rfl⟩ := List.mem_map.1 hf
      refine addr_apart h.legalS (fullX_lt hx) (fullX_lt hx') ?_
      have h1 := fullX_half i x; have h2 := fullX_half j x'
      have h3 := fullY_half i y; have h4 := fullY_half j y'
      rcases hne with hne | hne
      · left; intro hc; rw [hc, h2] at h1; exact hne h1.symm
      · right; intro hc; rw [hc, h4] at h3; exact hne h3.symm

/-- The memory work of every validated command fits it. -/
theorem jobOf_fits {i : Instr} {st : State} (h : validate i st.regs = .ok) : JobFits i st.regs (jobOf i st) := by
  cases i with
  | split => exact splitJob_fits (validateSplit_ok.1 h) _
  | reconExact p => exact exactJob_fits (validateRecon_ok.1 h) _
  | reconHeur p => exact heurJob_fits (validateRecon_ok.1 h) _
  | reconInpaint p => exact inpaintJob_fits (validateRecon_ok.1 h)

/-- Every descriptor that takes part in a validated command is legal for its dimensions, which are not 0 (R167, R168). -/
theorem parts_legal {i : Instr} {r : Regs} (h : validate i r = .ok) :
    ∀ part ∈ parts i r, part.Legal ∧ 1 ≤ part.w ∧ 1 ≤ part.h := by
  have recon : ∀ (e : Bool) (p : BitVec 4) (qs : List Quad), ReconOk e p r → (∀ j ∈ qs, present p j = true) →
      ∀ part ∈ outPart p r :: inParts qs p r, part.Legal ∧ 1 ≤ part.w ∧ 1 ≤ part.h := by
    intro e p qs hok hqs part hp
    have hw := hok.wPos
    have hh := hok.hPos
    rcases List.mem_cons.1 hp with rfl | hp
    · exact ⟨hok.legalS, by simp [outPart]; omega, by simp [outPart]; omega⟩
    · obtain ⟨j, hj, rfl⟩ := List.mem_map.1 hp
      exact ⟨hok.legalQ j (hqs j hj), hw, hh⟩
  cases i with
  | split =>
    have hok := validateSplit_ok.1 h
    have := hok.wPos; have := hok.hPos; have := hok.wEven; have := hok.hEven
    intro part hp
    rcases List.mem_cons.1 hp with rfl | hp
    · exact ⟨hok.legalS, hok.wPos, hok.hPos⟩
    · obtain ⟨j, _, rfl⟩ := List.mem_map.1 hp
      exact ⟨hok.legalQ j, by simp only; omega, by simp only; omega⟩
  | reconExact p =>
    have hok := validateRecon_ok.1 h
    have h15 := hok.all rfl
    simp only [parts]
    rw [if_neg hok.some]
    exact recon _ p quads hok fun j _ => by subst h15; revert j; decide
  | reconHeur p | reconInpaint p =>
    have hok := validateRecon_ok.1 h
    simp only [parts]
    rw [if_neg hok.some]
    exact recon _ p _ hok fun j hj => mem_presentQuads.1 hj

/-- On a platform without a failing region every pixel word of a validated command answers OK. -/
theorem pixelsAnswer_of_no_region {i : Instr} {st : State} (hb : st.bus = []) (h : validate i st.regs = .ok) :
    st.PixelsAnswer i := by
  intro part hp x y hx hy
  have := addr_lt (parts_legal h part hp).1 hx hy
  have key : ∀ k, st.BusOk (addr part.desc x y) k := fun k => by
    unfold State.BusOk State.busAnswer
    rw [if_pos this, hb]; rfl
  exact ⟨key _, fun _ => key _⟩

/-- Where every pixel word answers OK, the run of a validated command completes. -/
theorem fate_done_of_answers {i : Instr} {st : State} {job : Job} (hj : JobFits i st.regs job) (ha : st.PixelsAnswer i) :
    st.fate job = .done := by
  apply fate_eq_done
  · intro a hr
    obtain ⟨part, hp, _, x, y, hx, hy, rfl⟩ := hj.reads a hr
    exact (ha part hp x y hx hy).1
  · intro e he
    obtain ⟨part, hp, ho, x, y, hx, hy, h⟩ := hj.writes e he
    rw [h]
    exact ⟨(ha part hp x y hx hy).2 ho, (ha part hp x y hx hy).1⟩

/-- A byte outside the output pixel words is outside every written word. -/
theorem outside_of_not_inOutput {i : Instr} {r : Regs} {job : Job} (hj : JobFits i r job) {a : Nat} (h : ¬ InOutput i r a) :
    ∀ e ∈ job.writes, a < e.1 ∨ e.1 + 4 ≤ a := by
  intro e he
  obtain ⟨part, hp, ho, x, y, hx, hy, h1⟩ := hj.writes e he
  by_contra hcon
  exact h ⟨part, hp, ho, x, y, hx, hy, by omega, by omega⟩

/-- A completed run without violation: every output word reads its final value, every other byte is unchanged. -/
theorem memDone_word {i : Instr} {st : State} {job : Job} (hj : JobFits i st.regs job) (hm : Memory.wf st.mem = true)
    (hs : st.hostFault = false) {e : Nat × Word} (he : e ∈ job.writes) : (st.memDone job.writes).readWord e.1 = e.2 := by
  rw [memDone_safe hs]
  exact readWord_writeAll_mem hm hj.space hj.apart he

end Sys2Proof.Machine
end

