-- ==== Sys2Proof/Laws/Inpaint.lean ====
section
/-! SUPPORT. The laws of the fill pass: what it leaves alone, what it makes valid, and the value each synthesized pixel
takes. Positions are numbered in raster order, position k being pixel (k mod W, k / W). -/

namespace Sys2Proof.Machine

/-- A grid in raster order, by position number. -/
theorem grid_eq_range {α : Type} (W H : Nat) (f : Nat → Nat → α) :
    grid W H f = (List.range (H * W)).map fun k => f (k % W) (k / W) := by
  apply List.ext_getElem?
  intro k
  by_cases hk : k < H * W
  · have hW : 0 < W := by
      rcases Nat.eq_zero_or_pos W with rfl | h
      · simp at hk
      · exact h
    have hx : k % W < W := Nat.mod_lt _ hW
    have hy : k / W < H := Nat.div_lt_of_lt_mul (by rwa [Nat.mul_comm])
    have := grid_getElem? f hx hy
    rw [Nat.div_add_mod' k W] at this
    rw [this, List.getElem?_map, List.getElem?_range hk]
    rfl
  · rw [List.getElem?_eq_none (by simp; omega), List.getElem?_eq_none (by simp; omega)]

/-- The fill pass after its first k positions. -/
def fillSteps (W H : Nat) (cv : Canvas) (k : Nat) : FillState :=
  ((List.range k).map fun k => (k % W, k / W)).foldl (fillAt W H) ⟨cv, 0, 0⟩

theorem fillPass_eq_steps (W H : Nat) (cv : Canvas) : fillPass W H cv = fillSteps W H cv (H * W) := by
  unfold fillPass fillSteps
  rw [grid_eq_range]

/-- The fill pass under way, as a prefix of the positions in raster order. -/
theorem foldl_take_grid_eq_steps {W H k : Nat} (cv : Canvas) (hk : k ≤ H * W) :
    ((grid W H fun x y => (x, y)).take k).foldl (fillAt W H) ⟨cv, 0, 0⟩ = fillSteps W H cv k := by
  rw [grid_eq_range, ← List.map_take, List.take_range, Nat.min_eq_left hk]
  rfl

theorem fillSteps_succ (W H : Nat) (cv : Canvas) (k : Nat) :
    fillSteps W H cv (k + 1) = fillAt W H (fillSteps W H cv k) (k % W, k / W) := by
  simp [fillSteps, List.range_succ]

/-- The value the fill pass computes at position k. -/
def fillValue (W H : Nat) (cv : Canvas) (k : Nat) : Pixel × Bool :=
  fill (neighbours (fillSteps W H cv k).canvas W H (k % W) (k / W))

theorem canvas_at_index (cv : Canvas) (W k : Nat) : Canvas.at cv W (k % W) (k / W) = (cv[k]?).join := by
  unfold Canvas.at
  rw [Nat.div_add_mod' k W]

theorem fillSteps_canvas_succ (W H : Nat) (cv : Canvas) (k : Nat) :
    (fillSteps W H cv (k + 1)).canvas = if ((fillSteps W H cv k).canvas[k]?).join = none
      then (fillSteps W H cv k).canvas.set k (some (fillValue W H cv k).1) else (fillSteps W H cv k).canvas := by
  rw [fillSteps_succ]
  unfold fillAt fillValue
  simp only [canvas_at_index]
  cases h : ((fillSteps W H cv k).canvas[k]?).join with
  | none => simp [Nat.div_add_mod']
  | some v => simp

@[simp] theorem fillSteps_length (W H : Nat) (cv : Canvas) (k : Nat) : (fillSteps W H cv k).canvas.length = cv.length := by
  induction k with
  | zero => rfl
  | succ k ih => rw [fillSteps_canvas_succ]; split <;> simp [ih]

/-- A position that the pass has not reached is as phase 1 left it. -/
theorem fillSteps_later {W H : Nat} {cv : Canvas} {k j : Nat} (h : k ≤ j) : (fillSteps W H cv k).canvas[j]? = cv[j]? := by
  induction k with
  | zero => rfl
  | succ k ih =>
    rw [fillSteps_canvas_succ]
    split
    · rw [List.getElem?_set_ne (by omega)]; exact ih (by omega)
    · exact ih (by omega)

/-- A position that the pass has passed keeps its value. -/
theorem fillSteps_settled {W H : Nat} {cv : Canvas} {j k : Nat} (h : j < k) :
    (fillSteps W H cv k).canvas[j]? = (fillSteps W H cv (j + 1)).canvas[j]? := by
  induction k with
  | zero => omega
  | succ k ih =>
    by_cases hjk : j = k
    · rw [hjk]
    · rw [fillSteps_canvas_succ]
      split
      · rw [List.getElem?_set_ne (by omega)]; exact ih (by omega)
      · exact ih (by omega)

/-- The entry of position j once the pass has passed it: the value of phase 1 if it had one, else the filled value. -/
theorem fillSteps_entry {W H : Nat} {cv : Canvas} {j k : Nat} (h : j < k) (hj : j < cv.length) :
    (fillSteps W H cv k).canvas[j]? = some (some (((cv[j]?).join).getD (fillValue W H cv j).1)) := by
  rw [fillSteps_settled h, fillSteps_canvas_succ, fillSteps_later (Nat.le_refl j)]
  cases hv : (cv[j]?).join with
  | none => simp [hj]
  | some v =>
    rw [if_neg (by simp), fillSteps_later (Nat.le_refl j)]
    rw [List.getElem?_eq_getElem hj] at hv ⊢
    simpa using hv

/-- A valid position keeps its value through the whole pass (R149). -/
theorem fillSteps_keeps {W H : Nat} {cv : Canvas} {j k : Nat} {v : Pixel} (h : (cv[j]?).join = some v) :
    ((fillSteps W H cv k).canvas[j]?).join = some v := by
  have hj : j < cv.length := by
    by_contra hcon
    rw [List.getElem?_eq_none (by omega)] at h
    simp at h
  by_cases hjk : j < k
  · rw [fillSteps_entry hjk hj, h]; rfl
  · rw [fillSteps_later (by omega), h]

/-- R146: when the pass has done k positions, a position is valid exactly when phase 1 made it so or it is among them. -/
theorem fillSteps_mask {W H : Nat} {cv : Canvas} {j k : Nat} (hj : j < cv.length) :
    ((fillSteps W H cv k).canvas[j]?).join.isSome = ((cv[j]?).join.isSome || decide (j < k)) := by
  by_cases hjk : j < k
  · rw [fillSteps_entry hjk hj]; simp [hjk]
  · rw [fillSteps_later (by omega)]; simp [hjk]

/-- The number of positions below k that phase 1 left invalid. -/
def invalidBelow (cv : Canvas) (k : Nat) : Nat := (List.range k).countP fun j => (cv[j]?).join.isNone

theorem invalidBelow_succ (cv : Canvas) (k : Nat) :
    invalidBelow cv (k + 1) = invalidBelow cv k + if (cv[k]?).join = none then 1 else 0 := by
  simp [invalidBelow, List.range_succ, List.countP_append]

/-- The two counters count every position that was invalid (R148). -/
theorem fillSteps_counts (W H : Nat) (cv : Canvas) (k : Nat) :
    (fillSteps W H cv k).filled + (fillSteps W H cv k).blacked = invalidBelow cv k := by
  induction k with
  | zero => rfl
  | succ k ih =>
    rw [invalidBelow_succ, fillSteps_succ, ← ih]
    unfold fillAt
    simp only [canvas_at_index, fillSteps_later (Nat.le_refl k)]
    cases h : (cv[k]?).join with
    | some v => simp
    | none => simp only; split <;> simp <;> omega

/-- No pixel is blacked if every invalid position has a valid neighbour when it is reached. -/
theorem fillSteps_no_black {W H : Nat} {cv : Canvas} {k : Nat}
    (h : ∀ j < k, (cv[j]?).join = none → neighbours (fillSteps W H cv j).canvas W H (j % W) (j / W) ≠ []) :
    (fillSteps W H cv k).blacked = 0 := by
  induction k with
  | zero => rfl
  | succ k ih =>
    have hk := ih fun j hj => h j (by omega)
    rw [fillSteps_succ]
    unfold fillAt
    simp only [canvas_at_index, fillSteps_later (Nat.le_refl k)]
    cases hc : (cv[k]?).join with
    | some v => exact hk
    | none => simp [fill, h k (by omega) hc, hk]

/-! ### The canvas of phase 1 -/

@[simp] theorem length_scatter (p : BitVec 4) (r : Regs) (m : Memory) :
    (scatter p r m).length = 2 * (quadDims p r).2 * (2 * (quadDims p r).1) := by simp [scatter]

theorem scatter_at {p : BitVec 4} {r : Regs} {m : Memory} {x y : Nat} (hx : x < 2 * (quadDims p r).1)
    (hy : y < 2 * (quadDims p r).2) : Canvas.at (scatter p r m) (2 * (quadDims p r).1) x y =
      if present p (phaseOf x y) then some (pixRead m (r.q (phaseOf x y)) (x / 2) (y / 2)) else none := by
  unfold Canvas.at scatter
  rw [grid_getElem? _ hx hy]
  rfl

/-- R137: after phase 1, `mask[y][x] = ((p >> phase(x, y)) & 1 == 1)`. -/
theorem scatter_mask {p : BitVec 4} {r : Regs} {m : Memory} {x y : Nat} (hx : x < 2 * (quadDims p r).1)
    (hy : y < 2 * (quadDims p r).2) : Canvas.mask (scatter p r m) (2 * (quadDims p r).1) x y = present p (phaseOf x y) := by
  unfold Canvas.mask
  rw [scatter_at hx hy]
  split <;> simp [*]

/-! ### The neighbour set -/

theorem mem_neighbours {cv : Canvas} {W H x y : Nat} {k : F64} {v : Pixel} :
    (k, v) ∈ neighbours cv W H x y ↔ ∃ dx ∈ offsets, ∃ dy ∈ offsets, (dx ≠ 0 ∨ dy ≠ 0) ∧ 0 ≤ (x : Int) + dx ∧
      (x : Int) + dx < W ∧ 0 ≤ (y : Int) + dy ∧ (y : Int) + dy < H ∧ k = kernel (dist2 dx dy) ∧
      Canvas.at cv W ((x : Int) + dx).toNat ((y : Int) + dy).toNat = some v := by
  simp only [neighbours, List.mem_flatMap, List.mem_filterMap]
  constructor
  · rintro ⟨dy, hdy, dx, hdx, h⟩
    split at h
    · rename_i hc
      cases ha : Canvas.at cv W ((x : Int) + dx).toNat ((y : Int) + dy).toNat with
      | none => simp [ha] at h
      | some w =>
        simp only [ha, Option.map_some, Option.some.injEq, Prod.mk.injEq] at h
        exact ⟨dx, hdx, dy, hdy, hc.1, hc.2.1, hc.2.2.1, hc.2.2.2.1, hc.2.2.2.2, h.1.symm, by rw [ha, h.2]⟩
    · simp at h
  · rintro ⟨dx, hdx, dy, hdy, h1, h2, h3, h4, h5, hk, ha⟩
    refine ⟨dy, hdy, dx, hdx, ?_⟩
    rw [if_pos ⟨h1, h2, h3, h4, h5⟩, ha, hk]
    rfl

/-- R147: with a non-empty mask, an invalid pixel has a valid neighbour. -/
theorem neighbours_ne_nil {p : BitVec 4} {cv : Canvas} {qw qh x y : Nat} (hp : p ≠ 0) (hx : x < 2 * qw) (hy : y < 2 * qh)
    (hmask : ∀ x' y', x' < 2 * qw → y' < 2 * qh → present p (phaseOf x' y') = true → (Canvas.at cv (2 * qw) x' y').isSome = true)
    (hinv : present p (phaseOf x y) = false) : neighbours cv (2 * qw) (2 * qh) x y ≠ [] := by
  have hi := present_lowest hp
  generalize lowest p = i at hi
  have key : ∀ n z b : Nat, z < 2 * n → b < 2 → ∃ d ∈ offsets, 0 ≤ (z : Int) + d ∧ (z : Int) + d < (2 * n : Nat) ∧
      ((z : Int) + d).toNat % 2 = b := by
    intro n z b hz hb
    by_cases h0 : z % 2 = b
    · exact ⟨0, by simp [offsets], by omega, by omega, by omega⟩
    · by_cases h1 : z % 2 = 0
      · exact ⟨1, by simp [offsets], by omega, by omega, by omega⟩
      · exact ⟨-1, by simp [offsets], by omega, by omega, by omega⟩
  have hil := i.isLt
  obtain ⟨dx, hdx, hx0, hx1, hx2⟩ := key qw x (i.val % 2) hx (by omega)
  obtain ⟨dy, hdy, hy0, hy1, hy2⟩ := key qh y (i.val / 2) hy (by omega)
  have hph : phaseOf ((x : Int) + dx).toNat ((y : Int) + dy).toNat = i := by
    simp only [phaseOf, hx2, hy2]
    apply Fin.ext
    simp only
    omega
  have hs := hmask ((x : Int) + dx).toNat ((y : Int) + dy).toNat (by omega) (by omega) (by rw [hph]; exact hi)
  obtain ⟨v, hv⟩ := Option.isSome_iff_exists.1 hs
  have hne : dx ≠ 0 ∨ dy ≠ 0 := by
    by_contra hcon
    simp only [not_or, not_not] at hcon
    obtain ⟨rfl, rfl⟩ := hcon
    simp only [Int.add_zero, Int.toNat_natCast] at hph
    rw [hph, hi] at hinv
    simp at hinv
  exact List.ne_nil_of_mem (mem_neighbours.2 ⟨dx, hdx, dy, hdy, hne, hx0, hx1, hy0, hy1, rfl, hv⟩)

/-! ### The pass over the canvas of a command -/

/-- A canvas as phase 1 leaves it: its size, and its mask by phase. -/
structure Scattered (p : BitVec 4) (qw qh : Nat) (cv : Canvas) : Prop where
  length : cv.length = 2 * qh * (2 * qw)
  mask : ∀ x y, x < 2 * qw → y < 2 * qh → Canvas.mask cv (2 * qw) x y = present p (phaseOf x y)

theorem scatter_scattered (p : BitVec 4) (r : Regs) (m : Memory) :
    Scattered p (quadDims p r).1 (quadDims p r).2 (scatter p r m) :=
  ⟨length_scatter p r m, fun _ _ hx hy => scatter_mask hx hy⟩

theorem index_lt {w h x y : Nat} (hx : x < w) (hy : y < h) : y * w + x < h * w := by
  have : (y + 1) * w ≤ h * w := Nat.mul_le_mul_right _ hy
  have : (y + 1) * w = y * w + w := by ring
  omega

theorem index_mod {w x y : Nat} (hx : x < w) : (y * w + x) % w = x := by
  rw [Nat.mul_comm, Nat.mul_add_mod]; exact Nat.mod_eq_of_lt hx

theorem index_div {w x y : Nat} (hx : x < w) : (y * w + x) / w = y := by
  rw [Nat.mul_comm, Nat.mul_add_div (by omega), Nat.div_eq_of_lt hx, Nat.add_zero]

/-- Raster order is the order of position numbers. -/
theorem index_lt_iff {w x y x' y' : Nat} (hx : x < w) (hx' : x' < w) :
    y' * w + x' < y * w + x ↔ y' < y ∨ (y' = y ∧ x' < x) := by
  rcases Nat.lt_trichotomy y' y with h | rfl | h
  · have : (y' + 1) * w ≤ y * w := Nat.mul_le_mul_right _ h
    have : (y' + 1) * w = y' * w + w := by ring
    omega
  · omega
  · have : (y + 1) * w ≤ y' * w := Nat.mul_le_mul_right _ h
    have : (y + 1) * w = y * w + w := by ring
    omega

/-- R147: at every moment of the fill pass every invalid pixel has a valid neighbour. -/
theorem fillSteps_fillable {p : BitVec 4} {qw qh : Nat} {cv : Canvas} (hp : p ≠ 0) (hc : Scattered p qw qh cv) (k : Nat) :
    Canvas.Fillable (fillSteps (2 * qw) (2 * qh) cv k).canvas (2 * qw) (2 * qh) := by
  intro x y hx hy hinv
  have keeps : ∀ x' y', x' < 2 * qw → y' < 2 * qh → present p (phaseOf x' y') = true →
      (Canvas.at (fillSteps (2 * qw) (2 * qh) cv k).canvas (2 * qw) x' y').isSome = true := by
    intro x' y' hx' hy' hpr
    have hm := hc.mask x' y' hx' hy'
    rw [hpr] at hm
    obtain ⟨v, hv⟩ := Option.isSome_iff_exists.1 hm
    exact Option.isSome_iff_exists.2 ⟨v, fillSteps_keeps hv⟩
  refine neighbours_ne_nil hp hx hy keeps ?_
  by_contra hpr
  exact Bool.false_ne_true (hinv.symm.trans (keeps x y hx hy (by simpa using hpr)))

/-- R147: at no moment of the fill pass has a pixel been blacked. -/
theorem fillSteps_blacked {p : BitVec 4} {qw qh k : Nat} {cv : Canvas} (hp : p ≠ 0) (hc : Scattered p qw qh cv)
    (hk : k ≤ 2 * qh * (2 * qw)) : (fillSteps (2 * qw) (2 * qh) cv k).blacked = 0 := by
  apply fillSteps_no_black
  intro j hj hinv
  have hw : 0 < 2 * qw := Nat.pos_of_ne_zero fun h => by rw [h] at hk; simp at hk; omega
  refine fillSteps_fillable hp hc j _ _ (Nat.mod_lt _ hw) (Nat.div_lt_of_lt_mul ?_) ?_
  · rw [Nat.mul_comm]; omega
  · rw [Canvas.mask, canvas_at_index, fillSteps_later (Nat.le_refl j), hinv]; rfl

/-- No pixel is blacked (R147). -/
theorem fillPass_blacked {p : BitVec 4} {qw qh : Nat} {cv : Canvas} (hp : p ≠ 0) (hc : Scattered p qw qh cv) :
    (fillPass (2 * qw) (2 * qh) cv).blacked = 0 := by
  rw [fillPass_eq_steps]
  exact fillSteps_blacked hp hc (Nat.le_refl _)

/-- Total coverage (R148): after the pass every mask entry is true. -/
theorem fillPass_total {p : BitVec 4} {qw qh : Nat} {cv : Canvas} (hc : Scattered p qw qh cv) {x y : Nat} (hx : x < 2 * qw)
    (hy : y < 2 * qh) : Canvas.mask (fillPass (2 * qw) (2 * qh) cv).canvas (2 * qw) x y = true := by
  have hlt := index_lt hx hy
  rw [fillPass_eq_steps, Canvas.mask, Canvas.at, fillSteps_mask (by rw [hc.length]; exact hlt)]
  simp [hlt]

/-- Fidelity (R149): a pixel that phase 1 supplied keeps its value. -/
theorem fillPass_keeps {W H : Nat} {cv : Canvas} {x y : Nat} {v : Pixel} (h : Canvas.at cv W x y = some v) :
    Canvas.at (fillPass W H cv).canvas W x y = some v := by
  rw [fillPass_eq_steps]
  exact fillSteps_keeps h

/-! ### The count of synthesized pixels -/

theorem countP_range_two_mul (n : Nat) (f : Nat → Bool) (a b : Bool) (hf : ∀ k < n, f (2 * k) = a ∧ f (2 * k + 1) = b) :
    (List.range (2 * n)).countP f = n * (a.toNat + b.toNat) := by
  induction n with
  | zero => simp
  | succ n ih =>
    have h1 := hf n (by omega)
    rw [show 2 * (n + 1) = 2 * n + 1 + 1 by ring, List.range_succ, List.range_succ, List.countP_append, List.countP_append,
      ih fun k hk => hf k (by omega)]
    simp only [List.countP_singleton, h1.1, h1.2]
    cases a <;> cases b <;> (simp; try ring)

theorem countP_grid {α : Type} (w h : Nat) (f : Nat → Nat → α) (g : α → Bool) :
    (grid w h f).countP g = ((List.range h).map fun y => (List.range w).countP fun x => g (f x y)).sum := by
  induction h with
  | zero => rfl
  | succ h ih =>
    simp only [grid_succ, List.countP_append, ih, List.range_succ, List.map_append, List.sum_append, List.countP_map,
      List.map_cons, List.map_nil, List.sum_cons, List.sum_nil, Nat.add_zero]
    rfl

theorem sum_range_two_mul (n : Nat) (f : Nat → Nat) (a b : Nat) (hf : ∀ k < n, f (2 * k) = a ∧ f (2 * k + 1) = b) :
    ((List.range (2 * n)).map f).sum = n * (a + b) := by
  induction n with
  | zero => simp
  | succ n ih =>
    have h1 := hf n (by omega)
    rw [show 2 * (n + 1) = 2 * n + 1 + 1 by ring, List.range_succ, List.range_succ]
    simp only [List.map_append, List.sum_append, ih fun k hk => hf k (by omega), List.map_cons, List.map_nil, List.sum_cons,
      List.sum_nil, h1.1, h1.2]
    ring

theorem absent_total (p : BitVec 4) :
    ((!present p 0).toNat + (!present p 1).toNat) + ((!present p 2).toNat + (!present p 3).toNat) = 4 - popcount p := by
  revert p; decide

/-- The positions of an absent phase: `(4 − popcount(p)) · qw · qh` of them (R148). -/
theorem invalid_count {p : BitVec 4} {qw qh : Nat} {cv : Canvas} (hc : Scattered p qw qh cv) :
    invalidBelow cv (2 * qh * (2 * qw)) = (4 - popcount p) * qw * qh := by
  have h1 : invalidBelow cv (2 * qh * (2 * qw)) =
      (grid (2 * qw) (2 * qh) fun x y => (Canvas.at cv (2 * qw) x y).isNone).countP id := by
    rw [grid_eq_range, List.countP_map]
    unfold invalidBelow
    congr 1
    funext j
    simp [canvas_at_index]
  have h2 : (grid (2 * qw) (2 * qh) fun x y => (Canvas.at cv (2 * qw) x y).isNone) =
      grid (2 * qw) (2 * qh) fun x y => !present p (phaseOf x y) := by
    rw [grid_eq_range, grid_eq_range]
    apply List.map_congr_left
    intro j hj
    rw [List.mem_range] at hj
    have hw : 0 < 2 * qw := Nat.pos_of_ne_zero fun h => by rw [h] at hj; simp at hj
    have hx : j % (2 * qw) < 2 * qw := Nat.mod_lt _ hw
    have hy : j / (2 * qw) < 2 * qh := Nat.div_lt_of_lt_mul (by rwa [Nat.mul_comm])
    have := hc.mask _ _ hx hy
    rw [← this, Canvas.mask]
    simp
  rw [h1, h2, countP_grid]
  have hrow : ∀ y i j, phaseOf 0 y = i → phaseOf 1 y = j →
      ((List.range (2 * qw)).countP fun x => id (!present p (phaseOf x y))) = qw * ((!present p i).toNat + (!present p j).toNat) := by
    intro y i j hi hj
    apply countP_range_two_mul
    intro k _
    have e1 : phaseOf (2 * k) y = i := by rw [← hi]; simp only [phaseOf, Fin.mk.injEq]; omega
    have e2 : phaseOf (2 * k + 1) y = j := by rw [← hj]; simp only [phaseOf, Fin.mk.injEq]; omega
    simp [e1, e2]
  rw [sum_range_two_mul qh _ (qw * ((!present p 0).toNat + (!present p 1).toNat))
    (qw * ((!present p 2).toNat + (!present p 3).toNat))]
  · rw [← absent_total]; ring
  · intro k _
    refine ⟨hrow _ 0 1 ?_ ?_, hrow _ 2 3 ?_ ?_⟩ <;> simp only [phaseOf] <;> apply Fin.ext <;> simp

/-- FILL_COUNT (R148). -/
theorem fillPass_filled {p : BitVec 4} {qw qh : Nat} {cv : Canvas} (hp : p ≠ 0) (hc : Scattered p qw qh cv) :
    (fillPass (2 * qw) (2 * qh) cv).filled = (4 - popcount p) * qw * qh := by
  have h1 := fillSteps_counts (2 * qw) (2 * qh) cv (2 * qh * (2 * qw))
  have h2 := fillPass_blacked hp hc
  rw [fillPass_eq_steps] at h2 ⊢
  rw [h2, invalid_count hc] at h1
  omega

end Sys2Proof.Machine
end

