-- ==== Sys2Proof/Laws/Registers.lean ====
section
/-! SUPPORT. The laws of the register port: the offset of each register, what reads and writes of the port do. -/

namespace Sys2Proof.Machine

/-- The number of a descriptor register in its group (R33). -/
def fieldOffset : DescField → Nat
  | .base => 0
  | .width => 4
  | .height => 8
  | .stride => 12

/-- The byte offset of a register (R26, R33, R34). -/
def offsetOf : RegName → BitVec 8
  | .id => 0x000
  | .ctrl => 0x004
  | .cmd => 0x008
  | .status => 0x00C
  | .irqStatus => 0x010
  | .irqEnable => 0x014
  | .fillCount => 0x018
  | .blackCount => 0x01C
  | .desc .s f => BitVec.ofNat 8 (0x020 + fieldOffset f)
  | .desc (.q i) f => BitVec.ofNat 8 (0x030 + 16 * i.val + fieldOffset f)

theorem regAt_offsetOf (n : RegName) : regAt (offsetOf n) = some n := by
  cases n with
  | desc d f =>
    cases d with
    | s => cases f <;> rfl
    | q i => cases f <;> fin_cases i <;> rfl
  | _ => rfl

/-- Among the offsets that are multiples of 4, each register has one. -/
theorem regAt_eq_some {off : BitVec 8} {n : RegName} (h4 : off.toNat % 4 = 0) : regAt off = some n ↔ off = offsetOf n := by
  constructor
  · intro h
    have key : ∀ off : BitVec 8, off.toNat % 4 = 0 → (regAt off).all fun n => off = offsetOf n := by decide +kernel
    have := key off h4
    rw [h] at this
    simpa using this
  · rintro rfl; exact regAt_offsetOf n

theorem regAt_eq_none {off : BitVec 8} : regAt off = none ↔ 0x070 ≤ off.toNat := by
  have key : ∀ off : BitVec 8, (regAt off).isNone = decide (0x070 ≤ off.toNat) := by decide +kernel
  have := key off
  rw [← Option.isNone_iff_eq_none, this, decide_eq_true_eq]

/-- CMD and the descriptor registers are the offsets 0x008 and 0x020 to 0x06F (R37). -/
theorem regAt_guarded {off : BitVec 8} (h4 : off.toNat % 4 = 0) :
    (regAt off = some .cmd ∨ ∃ d f, regAt off = some (.desc d f)) ↔
      off = 0x008 ∨ (0x020 ≤ off.toNat ∧ off.toNat ≤ 0x06F) := by
  have key : ∀ off : BitVec 8, off.toNat % 4 = 0 →
      ((match regAt off with | some .cmd => true | some (.desc _ _) => true | _ => false) =
        decide (off = 0x008 ∨ (0x020 ≤ off.toNat ∧ off.toNat ≤ 0x06F))) := by decide +kernel
  have := key off h4
  rw [← decide_eq_true_eq (p := off = 0x008 ∨ _), ← this]
  cases h : regAt off with
  | none => simp
  | some n => cases n <;> simp

/-! ### Descriptors by name -/

@[simp] theorem desc_setDesc_same (r : Regs) (d : DescName) (x : Desc) : (r.setDesc d x).desc d = x := by
  cases d with
  | s => rfl
  | q i => simp [Regs.setDesc, Regs.desc]

theorem desc_setDesc_other (r : Regs) {d d' : DescName} (h : d' ≠ d) (x : Desc) : (r.setDesc d x).desc d' = r.desc d' := by
  cases d with
  | s => cases d' <;> first | rfl | exact absurd rfl h
  | q i =>
    cases d' with
    | s => simp [Regs.setDesc, Regs.desc]
    | q j =>
      have hij : j ≠ i := fun e => h (by rw [e])
      simp [Regs.setDesc, Regs.desc, setQ_q, hij]

theorem get_set_same (d : Desc) (f : DescField) (v : Word) : (d.set f v).get f =
    (match f with | .base | .stride => v | .width | .height => v &&& 0x0000FFFF) := by
  cases f <;> simp only [Desc.set, Desc.get]
  all_goals
    apply BitVec.eq_of_getLsbD_eq
    intro i hi
    have hm : ∀ i < 32, (0x0000FFFF : Word).getLsbD i = decide (i < 16) := by decide
    simp only [BitVec.getLsbD_setWidth, BitVec.getLsbD_extractLsb', BitVec.getLsbD_and, hm i hi]
    by_cases h : i < 16 <;> simp [h, hi]

theorem get_set_other (d : Desc) {f f' : DescField} (h : f' ≠ f) (v : Word) : (d.set f v).get f' = d.get f' := by
  cases f <;> cases f' <;> simp_all [Desc.set, Desc.get]

/-! ### The transactions -/

/-- What a register-port write does: an ERR answer, an ignored access, or the register's own effect. -/
theorem portWrite_cases (st : State) (off : BitVec 8) (size : Nat) (v : Word) :
    (¬ PortAccepts off size ∧ st.portWrite off size v = st.setAnswer .err) ∨
    (PortAccepts off size ∧ regAt off = none ∧ st.portWrite off size v = st.setAnswer .writeOk) ∨
    (∃ n, PortAccepts off size ∧ regAt off = some n ∧ st.portWrite off size v = (st.writeReg n v).setAnswer .writeOk) := by
  unfold State.portWrite
  by_cases h : PortAccepts off size
  · rw [if_pos h]
    cases hr : regAt off with
    | none => exact .inr (.inl ⟨h, rfl, rfl⟩)
    | some n => exact .inr (.inr ⟨n, h, rfl, rfl⟩)
  · rw [if_neg h]; exact .inl ⟨h, rfl⟩

/-- A register-port read changes only the answer. -/
theorem portRead_answer (st : State) (off : BitVec 8) (size : Nat) : ∃ a, st.portRead off size = st.setAnswer a := by
  unfold State.portRead
  repeat' split
  all_goals exact ⟨_, rfl⟩

end Sys2Proof.Machine
end

