-- ==== Sys2Proof/Laws/Step.lean ====
section
/-! SUPPORT. The laws of a step: what the engine's step does in each phase, what a command's step does, and the
cases of a step of the machine. -/

namespace Sys2Proof.Machine

/-! ### A command's step, by phase -/

theorem exec_idle (i : Instr) {st : State} (h : st.phase = .idle) : exec i st = .next st := by
  cases i <;> simp [exec, execSplit, execReconExact, execReconHeur, execReconInpaint, h]

theorem exec_pending (i : Instr) {st : State} {w : Word} (h : st.phase = .pending w) :
    exec i st = .next (validateStep i w st) := by
  cases i <;> simp [exec, execSplit, execReconExact, execReconHeur, execReconInpaint, h]

/-- The run of SPLIT, RECON.EXACT and RECON.HEUR is the run of their memory work. -/
theorem exec_running (i : Instr) {st : State} {w : Word} (h : st.phase = .running w) (hi : ∀ p, i ≠ .reconInpaint p) :
    exec i st = .next (runStep (jobOf i st) st) := by
  cases i with
  | reconInpaint p => exact absurd rfl (hi p)
  | split => simp [exec, execSplit, jobOf, h]
  | reconExact p => simp [exec, execReconExact, jobOf, h]
  | reconHeur p => simp [exec, execReconHeur, jobOf, h]

theorem exec_inpaint_scatter (p : BitVec 4) {st : State} {w : Word} (h : st.phase = .running w) (hc : st.work.canvas = none) :
    exec (.reconInpaint p) st = .next (scatterStep p st) := by
  simp [exec, execReconInpaint, h, hc]

theorem exec_inpaint_fill (p : BitVec 4) {st : State} {w : Word} {cv : Canvas} (h : st.phase = .running w)
    (hc : st.work.canvas = some cv) : exec (.reconInpaint p) st = .next (fillStep p cv st) := by
  simp [exec, execReconInpaint, h, hc]

/-- A command's step always gives a next state. -/
theorem exec_next (i : Instr) (st : State) : ∃ t, exec i st = .next t := by
  cases hp : st.phase with
  | idle => exact ⟨_, exec_idle i hp⟩
  | pending w => exact ⟨_, exec_pending i hp⟩
  | running w =>
    by_cases hi : ∃ p, i = .reconInpaint p
    · obtain ⟨p, rfl⟩ := hi
      cases hc : st.work.canvas with
      | none => exact ⟨_, exec_inpaint_scatter p hp hc⟩
      | some cv => exact ⟨_, exec_inpaint_fill p hp hc⟩
    · exact ⟨_, exec_running i hp fun p h => hi ⟨p, h⟩⟩

/-! ### The validation step -/

theorem validateStep_ok {i : Instr} {st : State} (w : Word) (h : validate i st.regs = .ok) : validateStep i w st =
    { st with
      regs := writeBack i st.regs, phase := .running w, work := ⟨st.draws, none⟩, draws := st.draws + 1 } := by
  simp only [validateStep, h]; rfl

theorem validateStep_error {i : Instr} {st : State} (w : Word) (h : validate i st.regs ≠ .ok) :
    validateStep i w st = st.endWithError (validate i st.regs) := by
  simp [validateStep]

/-! ### The two run steps of RECON.INPAINT -/

theorem scatterStep_cases (p : BitVec 4) (st : State) :
    (st.fate (inpaintJob p st) = .done ∧
      scatterStep p st = st.setWork { st.work with canvas := some (scatter p st.regs st.mem) }) ∨
    (st.fate (inpaintJob p st) = .failed ∧ scatterStep p st = st.inpaintBusError p) ∨
    (st.fate (inpaintJob p st) = .hung ∧ scatterStep p st = st) := by
  unfold scatterStep
  cases h : st.fate (inpaintJob p st)
  · exact .inl ⟨rfl, rfl⟩
  · exact .inr (.inl ⟨rfl, rfl⟩)
  · exact .inr (.inr ⟨rfl, rfl⟩)

theorem fillStep_cases (p : BitVec 4) (cv : Canvas) (st : State) :
    (st.fate (inpaintJob p st) = .done ∧
      fillStep p cv st = ((st.setMem (st.memDone (inpaintWrites p st.regs cv))).complete).setCounts
        (BitVec.ofNat 32 (inpaintFill p st.regs cv).filled) (BitVec.ofNat 32 (inpaintFill p st.regs cv).blacked)) ∨
    (st.fate (inpaintJob p st) = .failed ∧ fillStep p cv st = st.inpaintBusError p) ∨
    (st.fate (inpaintJob p st) = .hung ∧ fillStep p cv st = st) := by
  unfold fillStep
  cases h : st.fate (inpaintJob p st)
  · exact .inl ⟨rfl, rfl⟩
  · exact .inr (.inl ⟨rfl, rfl⟩)
  · exact .inr (.inr ⟨rfl, rfl⟩)

/-- The full count fits its counter: the output image of a validated command has fewer than 2^32 pixels (R35). -/
theorem fullCount_lt {e : Bool} {p : BitVec 4} {r : Regs} (h : ReconOk e p r) : fullCount p r < 2 ^ 32 := by
  unfold fullCount
  have h1 : (quadDims p r).1 * (quadDims p r).2 ≤ 0x7FFF * 0x7FFF := Nat.mul_le_mul h.wMax h.hMax
  have h2 : 4 - popcount p ≤ 4 := Nat.sub_le _ _
  have h3 : (4 - popcount p) * ((quadDims p r).1 * (quadDims p r).2) ≤ 4 * (0x7FFF * 0x7FFF) := Nat.mul_le_mul h2 h1
  rw [Nat.mul_assoc]
  omega

/-! ### The engine's step -/

theorem engineStep_idle {st : State} (h : st.phase = .idle) : engineStep st = .next st := by
  simp [engineStep, h]

theorem engineStep_legal {st : State} {w : Word} {i : Instr} (h : st.phase.word? = some w) (hd : decode w = .ok i) :
    engineStep st = exec i st := by
  cases hp : st.phase <;> simp_all [engineStep, Phase.word?]

theorem engineStep_illegal {st : State} {w : Word} {k : Illegal} (h : st.phase = .pending w) (hd : decode w = .error k) :
    engineStep st = .next (st.endWithError .illegalCmd) := by
  simp [engineStep, h, hd]

theorem engineStep_runningIllegal {st : State} {w : Word} {k : Illegal} (h : st.phase = .running w) (hd : decode w = .error k) :
    engineStep st = .fault .runningIllegal := by
  simp [engineStep, h, hd]

/-- Everything the engine's step can do. -/
theorem engineStep_cases {st t : State} (h : engineStep st = .next t) :
    (st.phase = .idle ∧ t = st) ∨
    (∃ w k, st.phase = .pending w ∧ decode w = .error k ∧ t = st.endWithError .illegalCmd) ∨
    (∃ w i, st.phase = .pending w ∧ decode w = .ok i ∧ t = validateStep i w st) ∨
    (∃ w i, st.phase = .running w ∧ decode w = .ok i ∧ (∀ p, i ≠ .reconInpaint p) ∧ t = runStep (jobOf i st) st) ∨
    (∃ w p, st.phase = .running w ∧ decode w = .ok (.reconInpaint p) ∧ st.work.canvas = none ∧ t = scatterStep p st) ∨
    (∃ w p cv, st.phase = .running w ∧ decode w = .ok (.reconInpaint p) ∧ st.work.canvas = some cv ∧ t = fillStep p cv st) := by
  cases hp : st.phase with
  | idle => rw [engineStep_idle hp] at h; injection h with h; exact .inl ⟨rfl, h.symm⟩
  | pending w =>
    cases hd : decode w with
    | error k =>
      rw [engineStep_illegal hp hd] at h; injection h with h
      exact .inr (.inl ⟨w, k, rfl, hd, h.symm⟩)
    | ok i =>
      rw [engineStep_legal (by simp [hp, Phase.word?]) hd, exec_pending i hp] at h; injection h with h
      exact .inr (.inr (.inl ⟨w, i, rfl, hd, h.symm⟩))
  | running w =>
    cases hd : decode w with
    | error k => rw [engineStep_runningIllegal hp hd] at h; simp at h
    | ok i =>
      rw [engineStep_legal (by simp [hp, Phase.word?]) hd] at h
      by_cases hi : ∃ p, i = .reconInpaint p
      · obtain ⟨p, rfl⟩ := hi
        cases hc : st.work.canvas with
        | none =>
          rw [exec_inpaint_scatter p hp hc] at h; injection h with h
          exact .inr (.inr (.inr (.inr (.inl ⟨w, p, rfl, hd, rfl, h.symm⟩))))
        | some cv =>
          rw [exec_inpaint_fill p hp hc] at h; injection h with h
          exact .inr (.inr (.inr (.inr (.inr ⟨w, p, cv, rfl, hd, rfl, h.symm⟩))))
      · have hi' : ∀ p, i ≠ .reconInpaint p := fun p h => hi ⟨p, h⟩
        rw [exec_running i hp hi'] at h; injection h with h
        exact .inr (.inr (.inr (.inl ⟨w, i, rfl, hd, hi', h.symm⟩)))

/-! ### A step of the machine, by the event at the head of the script -/

theorem step_nil {st : State} (h : st.inputs = []) : step st = engineStep st := by simp [step, h]
theorem step_engine {st : State} {rest : List Event} (h : st.inputs = .engine :: rest) :
    step st = engineStep (st.setInputs rest) := by simp [step, h]
theorem step_rst {st : State} {rest : List Event} (h : st.inputs = .rst :: rest) :
    step st = .next (st.setInputs rest).resetStep := by simp [step, h]
theorem step_sw {st : State} {rest : List Event} {off : BitVec 8} {n : Nat} {v : Word} (h : st.inputs = .sw off n v :: rest) :
    step st = .next ((st.setInputs rest).portWrite off n v) := by simp [step, h]
theorem step_lw {st : State} {rest : List Event} {off : BitVec 8} {n : Nat} (h : st.inputs = .lw off n :: rest) :
    step st = .next ((st.setInputs rest).portRead off n) := by simp [step, h]
theorem step_mw {st : State} {rest : List Event} {n : BitVec 30} {v : Word} (h : st.inputs = .mw n v :: rest) :
    step st = .next ((st.setInputs rest).hostWrite n v) := by simp [step, h]
theorem step_mr {st : State} {rest : List Event} {n : BitVec 30} (h : st.inputs = .mr n :: rest) :
    step st = .next ((st.setInputs rest).hostRead n) := by simp [step, h]
theorem step_mwByte {st : State} {rest : List Event} {a : Word} {b : Byte} (h : st.inputs = .mwByte a b :: rest) :
    step st = .next ((st.setInputs rest).hostWriteByte a b) := by simp [step, h]
theorem step_mrByte {st : State} {rest : List Event} {a : Word} (h : st.inputs = .mrByte a :: rest) :
    step st = .next ((st.setInputs rest).hostReadByte a) := by simp [step, h]
theorem step_wait {st : State} {rest : List Event} (h : st.inputs = .wait :: rest) :
    step st = .next (st.waitStep rest) := by simp [step, h]
theorem step_breach {st : State} {rest : List Event} {d : HostDuty} (h : st.inputs = .breach d :: rest) :
    step st = .next ((st.setInputs rest).noteViolation true) := by simp [step, h]

/-- Everything a step of the machine can do. -/
theorem step_cases {st t : State} (h : step st = .next t) :
    (st.inputs = [] ∧ engineStep st = .next t) ∨
    (∃ rest, st.inputs = .engine :: rest ∧ engineStep (st.setInputs rest) = .next t) ∨
    (∃ rest, st.inputs = .rst :: rest ∧ t = (st.setInputs rest).resetStep) ∨
    (∃ off n v rest, st.inputs = .sw off n v :: rest ∧ t = (st.setInputs rest).portWrite off n v) ∨
    (∃ off n rest, st.inputs = .lw off n :: rest ∧ t = (st.setInputs rest).portRead off n) ∨
    (∃ n v rest, st.inputs = .mw n v :: rest ∧ t = (st.setInputs rest).hostWrite n v) ∨
    (∃ n rest, st.inputs = .mr n :: rest ∧ t = (st.setInputs rest).hostRead n) ∨
    (∃ a b rest, st.inputs = .mwByte a b :: rest ∧ t = (st.setInputs rest).hostWriteByte a b) ∨
    (∃ a rest, st.inputs = .mrByte a :: rest ∧ t = (st.setInputs rest).hostReadByte a) ∨
    (∃ rest, st.inputs = .wait :: rest ∧ t = st.waitStep rest) ∨
    (∃ d rest, st.inputs = .breach d :: rest ∧ t = (st.setInputs rest).noteViolation true) := by
  unfold step at h
  split at h <;> first | exact .inl ⟨‹_›, h⟩ | skip
  · exact .inr (.inl ⟨_, ‹_›, h⟩)
  all_goals injection h with h; subst h; simp_all

end Sys2Proof.Machine
end

