-- ==== Sys2Proof/Laws/Host.lean ====
section
/-! SUPPORT. The laws of the memory accesses of other agents: what a violation is, in the terms of the statements, and what
each access does. -/

namespace Sys2Proof.Machine

/-! ### Violations (R79) -/

theorem mem_activeParts {st : State} {part : Part} : part ∈ st.activeParts ↔
    ∃ w i, st.phase.word? = some w ∧ decode w = .ok i ∧ part ∈ parts i st.regs := by
  unfold State.activeParts
  cases st.phase.word? with
  | none => simp
  | some w => cases hd : decode w <;> simp [hd]

theorem mem_wordBytes {a b : Nat} : b ∈ wordBytes a ↔ a ≤ b ∧ b < a + 4 := by
  simp only [wordBytes, List.mem_cons, List.not_mem_nil, or_false]; omega

theorem quietWrite_iff {st : State} {lo n : Nat} {as : List Nat} (h : ∀ a, a ∈ as ↔ lo ≤ a ∧ a < lo + n) :
    st.QuietWrite lo n ↔ st.writeViolates as = false := by
  simp only [State.QuietWrite, State.writeViolates, decide_eq_false_iff_not, mem_activeParts, h]
  constructor
  · rintro hq ⟨part, ⟨w, i, hw, hd, hp⟩, a, ha, hc⟩; exact hq w i hw hd part hp a ha.1 ha.2 hc
  · intro hq w i hw hd part hp a h1 h2 hc; exact hq ⟨part, ⟨w, i, hw, hd, hp⟩, a, ⟨h1, h2⟩, hc⟩

theorem quietRead_iff {st : State} {lo n : Nat} {as : List Nat} (h : ∀ a, a ∈ as ↔ lo ≤ a ∧ a < lo + n) :
    st.QuietRead lo n ↔ st.readViolates as = false := by
  simp only [State.QuietRead, State.readViolates, decide_eq_false_iff_not, mem_activeParts, h]
  constructor
  · rintro hq ⟨part, ⟨w, i, hw, hd, hp⟩, ho, a, ha, hc⟩; exact hq w i hw hd part hp ho a ha.1 ha.2 hc
  · intro hq w i hw hd part hp ho a h1 h2 hc; exact hq ⟨part, ⟨w, i, hw, hd, hp⟩, ho, a, ⟨h1, h2⟩, hc⟩

theorem mem_singleton_range {a b : Nat} : b ∈ [a] ↔ a ≤ b ∧ b < a + 1 := by
  rw [List.mem_singleton]; omega

theorem quietWrite_word {st : State} {a : Nat} : st.QuietWrite a 4 ↔ st.writeViolates (wordBytes a) = false :=
  quietWrite_iff fun _ => mem_wordBytes

theorem quietWrite_byte {st : State} {a : Nat} : st.QuietWrite a 1 ↔ st.writeViolates [a] = false :=
  quietWrite_iff fun _ => mem_singleton_range

theorem quietRead_word {st : State} {a : Nat} : st.QuietRead a 4 ↔ st.readViolates (wordBytes a) = false :=
  quietRead_iff fun _ => mem_wordBytes

theorem quietRead_byte {st : State} {a : Nat} : st.QuietRead a 1 ↔ st.readViolates [a] = false :=
  quietRead_iff fun _ => mem_singleton_range

@[simp] theorem writeViolates_setInputs (st : State) (es : List Event) (as : List Nat) :
    (st.setInputs es).writeViolates as = st.writeViolates as := rfl

@[simp] theorem readViolates_setInputs (st : State) (es : List Event) (as : List Nat) :
    (st.setInputs es).readViolates as = st.readViolates as := rfl

/-! ### Accesses without a violation -/

theorem hostWrite_quiet {st : State} {n : BitVec 30} (v : Word) (h : st.QuietWrite (4 * n.toNat) 4) :
    st.hostWrite n v = (st.setMem (st.mem.writeWord (4 * n.toNat) v)).setAnswer .writeOk := by
  simp [State.hostWrite, quietWrite_word.1 h, State.noteViolation, State.setHostFault]

theorem hostWriteByte_quiet {st : State} {a : Word} (b : Byte) (h : st.QuietWrite a.toNat 1) :
    st.hostWriteByte a b = (st.setMem (st.mem.write a.toNat b)).setAnswer .writeOk := by
  simp [State.hostWriteByte, quietWrite_byte.1 h, State.noteViolation, State.setHostFault]

theorem hostRead_quiet {st : State} {n : BitVec 30} (h : st.QuietRead (4 * n.toNat) 4) :
    st.hostRead n = st.setAnswer (.readOk (st.mem.readWord (4 * n.toNat))) := by
  simp [State.hostRead, State.hostReadOf, quietRead_word.1 h]

theorem hostReadByte_quiet {st : State} {a : Word} (h : st.QuietRead a.toNat 1) :
    st.hostReadByte a = st.setAnswer (.readOk ((st.mem.read a.toNat).zeroExtend 32)) := by
  simp [State.hostReadByte, State.hostReadOf, quietRead_byte.1 h]

end Sys2Proof.Machine
end

