-- ==== Sys2Proof/Laws/Invariant.lean ====
section
/-! SUPPORT. What the invariant depends on, and how the runs of a validated command end. -/

namespace Sys2Proof.Machine

/-- Validation and write-back look at the descriptors only. -/
theorem validated_congr {i : Instr} {r r' : Regs} (hs : r.s = r'.s) (hq : ∀ j, r.q j = r'.q j) (h : Validated i r) :
    Validated i r' := by
  have e0 := hq 0; have e1 := hq 1; have e2 := hq 2; have e3 := hq 3
  obtain ⟨hv, hw⟩ := h
  have hqd : ∀ p, quadDims p r' = quadDims p r := by intro p; simp [quadDims, hq]
  cases i with
  | split =>
    refine ⟨?_, ?_⟩
    · rw [← hv]; simp [validate, validateSplit, splitParts, hs, hq]
    · rw [writeBack, writeBackSplit_eq] at hw ⊢
      simp only [Regs.q] at e0 e1 e2 e3
      cases r; cases r'; simp at *; simp_all
  | reconExact p | reconHeur p | reconInpaint p =>
    refine ⟨?_, ?_⟩
    · rw [← hv]; simp [validate, validateRecon, outPart, inParts, hqd, hs, hq]
    · simp only [writeBack, writeBackRecon, hqd] at hw ⊢
      cases r; cases r'; simp at *; simp_all

/-- The invariant passes to a state with the same command, descriptors, working state and counters. -/
theorem inv_congr {st t : State} (h : st.Inv) (hm : Memory.wf t.mem = true) (hp : t.phase = st.phase) (hw : t.work = st.work)
    (hs : t.regs.s = st.regs.s) (hq : ∀ j, t.regs.q j = st.regs.q j) (hf : t.regs.fillCount = st.regs.fillCount)
    (hb : t.regs.blackCount = st.regs.blackCount) (hc : t.regs.cmd = st.regs.cmd) (he : t.regs.err = st.regs.err) : t.Inv := by
  refine ⟨hm, ?_, ?_, ?_, ?_⟩
  · rw [hp, hw]; exact h.discarded
  · rw [hp, hf, hb, hc, he]; exact h.inFlight
  · rw [hp]; intro w hr
    obtain ⟨i, hd, hv⟩ := h.validated w hr
    exact ⟨i, hd, validated_congr hs.symm (fun j => (hq j).symm) hv⟩
  · rw [hw]; intro c hcv
    obtain ⟨p, ⟨w, h1, h2⟩, h3, h4⟩ := h.canvas c hcv
    have hqd : ∀ p, quadDims p t.regs = quadDims p st.regs := by intro p; simp [quadDims, hq]
    exact ⟨p, ⟨w, hp.trans h1, h2⟩, by rw [hqd]; exact h3, by rw [hqd]; exact h4⟩

/-- In phase IDLE the invariant asks for a canonical memory and no working state. -/
theorem inv_of_idle {t : State} (hm : Memory.wf t.mem = true) (hp : t.phase = .idle) (hw : t.work = .empty) : t.Inv := by
  refine ⟨hm, fun _ => hw, ?_, ?_, ?_⟩
  · simp [hp, Phase.word?]
  · simp [hp]
  · simp [hw, Work.empty]

theorem wf_memAfterReset {st : State} (hm : Memory.wf st.mem = true) : Memory.wf st.memAfterReset = true := by
  unfold State.memAfterReset
  repeat' split
  all_goals first | exact hm | exact wf_memMixed hm _

/-- Where every pixel word answers OK, the run step writes every output word and completes. -/
theorem runStep_answers {i : Instr} {st : State} (hv : validate i st.regs = .ok) (ha : st.PixelsAnswer i)
    (hs : st.hostFault = false) : runStep (jobOf i st) st = (st.setMem (st.mem.writeAll (jobOf i st).writes)).complete := by
  have hd := fate_done_of_answers (jobOf_fits hv) ha
  unfold runStep
  rw [hd, memDone_safe hs]

end Sys2Proof.Machine
end

