-- ==== Sys2Proof/Laws/PerInstr.lean ====
section
/-! SUPPORT. The statements made for every constructor of `Instr`. -/

/-- The word of a command decodes to the command. -/
def Sys2Proof.Laws.RoundTrip.Statement (i : Sys2Proof.Instr) : Prop :=
  i.wellFormed = true → Sys2Proof.decode (Sys2Proof.encode i) = .ok i

namespace Sys2Proof.Laws.RoundTrip

theorem split : Statement .split := fun _ => rfl

theorem reconExact (p : BitVec 4) : Statement (.reconExact p) := by
  intro _
  obtain ⟨h1, h2, h3⟩ := encode_fields (.reconExact p)
  rw [decode_fields]; simp_all

theorem reconHeur (p : BitVec 4) : Statement (.reconHeur p) := by
  intro _
  obtain ⟨h1, h2, h3⟩ := encode_fields (.reconHeur p)
  rw [decode_fields]; simp_all

theorem reconInpaint (p : BitVec 4) : Statement (.reconInpaint p) := by
  intro _
  obtain ⟨h1, h2, h3⟩ := encode_fields (.reconInpaint p)
  rw [decode_fields]; simp_all

end Sys2Proof.Laws.RoundTrip
end

