-- ==== Sys2Proof/Tests/Slice0.lean ====
section
/-! SUPPORT. The model's own tests, and a witness for the hypotheses of each statement. Expected values come from
`95_test_vectors.md` or are written out from the rule named. -/

namespace Sys2Proof.Tests

open Sys2Proof.Machine

/-! ### Well-formedness and decoding -/

theorem test_mask_above_15_is_ill_formed : (AsmLine.reconHeur (some (.bits 16))).wellFormed = false := by decide
theorem test_split_with_mask_is_ill_formed : (AsmLine.split (some (.bits 0))).wellFormed = false := by decide
theorem test_heur_without_mask_is_ill_formed : (AsmLine.reconHeur none).wellFormed = false := by decide
theorem test_inpaint_without_mask_is_ill_formed : (AsmLine.reconInpaint none).wellFormed = false := by decide
theorem test_every_command_is_well_formed : ∀ p, (Instr.reconExact p).wellFormed = true ∧ (Instr.reconHeur p).wellFormed = true ∧
    (Instr.reconInpaint p).wellFormed = true ∧ Instr.split.wellFormed = true := by decide

/-- R88: OP = 0x1, PRESENT = 0b0000, RSVD = 0. -/
theorem test_decode_split : decode 0b00000000000000000000000000000001 = .ok .split := by rfl
/-- R94: 0x000000F2. -/
theorem test_decode_exact : decode 0b00000000000000000000000011110010 = .ok (.reconExact 0b1111) := by rfl
/-- E4: 0x00000093, TL and BR present. -/
theorem test_decode_heur : decode 0b00000000000000000000000010010011 = .ok (.reconHeur 0b1001) := by rfl
/-- E7: 0x00000074, TL, TR and BL present. -/
theorem test_decode_inpaint : decode 0b00000000000000000000000001110100 = .ok (.reconInpaint 0b0111) := by rfl
/-- V-SP-3: the illegal words, one of each kind of R90. -/
theorem test_decode_illegal : decode 0x00000011 = .error .splitPresent ∧ decode 0x00000101 = .error .rsvdNonZero ∧
    decode 0x00000000 = .error .opZero ∧ decode 0x00000005 = .error .opReserved ∧ decode 0x0000000F = .error .opReserved :=
  ⟨rfl, rfl, rfl, rfl, rfl⟩
/-- The words as the opcode table numbers them; bits above the row's are 0. -/
theorem test_decode_table_word : decodeTableWord 32 0xF2 = some (.reconExact 0b1111) ∧ decodeTableWord 32 0x11 = none ∧
    decodeTableWord 32 1 = some .split ∧ decodeTableWord 8 0x174 = some (.reconInpaint 0b0111) := by decide
/-- R93: `{TL,BR}` is 0b1001. -/
theorem test_assemble_names : assemble (.reconHeur (some (.names [3, 0]))) = some 0x00000093 := by decide

/-! ### A small machine: a 2 × 2 image S at 0x1000 and four 1 × 1 quadrants at 0x2000, 0x2010, 0x2020, 0x2030 -/

/-- The next state of a step that gives one. -/
def after (o : Host.Outcome State Fault Refusal) : Option State :=
  match o with
  | .next t => some t
  | .fault _ | .refused _ => none

def smallRegs (w : Word) : Regs :=
  { Regs.reset with
    cmd := w
    s := ⟨0x1000, 2, 2, 8⟩
    q0 := ⟨0x2000, 1, 1, 4⟩
    q1 := ⟨0x2010, 1, 1, 4⟩
    q2 := ⟨0x2020, 1, 1, 4⟩
    q3 := ⟨0x2030, 1, 1, 4⟩ }

/-- The addresses of the words of S, and of the words of Q0 to Q3. -/
def sWords : List Nat := [0x1000, 0x1004, 0x1008, 0x100C]
def qWords : List Nat := [0x2000, 0x2010, 0x2020, 0x2030]

/-- The candidates of V-HE-1 as the quadrants, and four words in S. -/
def smallMem : Memory :=
  Memory.writeAll [] ([0xFF0A141E, 0x80FF0001, 0x00000102, 0xFF323C46].zip qWords |>.map fun e => (e.2, e.1)) |>.writeAll
    ([0xA1B2C3D4, 0x00000000, 0xFFFFFFFF, 0x01020304].zip sWords |>.map fun e => (e.2, e.1))

/-- The small machine with command word w in flight. -/
def pending (w : Word) : State := { State.reset with regs := smallRegs w, phase := .pending w, mem := smallMem }
def running (w : Word) : State := { State.reset with regs := smallRegs w, phase := .running w, mem := smallMem }

/-- The small machine, its RECON.INPAINT p at the second step of its run. -/
def filling (p : BitVec 4) (w : Word) : State :=
  { running w with work := ⟨0, some (scatter p (smallRegs w) smallMem)⟩ }

/-- What some words of memory hold after a step. -/
def wordsAfter (o : Host.Outcome State Fault Refusal) (as : List Nat) : Option (List Word) :=
  (after o).map fun t => as.map t.mem.readWord

/-! ### The commands on the small machine -/

/-- V-SP-2: the four pixels of a 2 × 2 image go to Q0, Q1, Q2 and Q3. -/
theorem test_split_run :
    wordsAfter (exec .split (running 0x1)) qWords = some [0xA1B2C3D4, 0x00000000, 0xFFFFFFFF, 0x01020304] := by
  decide +kernel

/-- V-HE-1, p = 1111, and R105: the exact command copies the four candidates. -/
theorem test_exact_run : wordsAfter (exec (.reconExact 0b1111) (running 0xF2)) sWords =
    some [0xFF0A141E, 0x80FF0001, 0x00000102, 0xFF323C46] := by decide +kernel

/-- V-HE-1, p = 0110: the diagonal pair TR, BL. -/
theorem test_heur_run_diagonal : wordsAfter (exec (.reconHeur 0b0110) (running 0x63)) sWords =
    some [0x407F0001, 0x80FF0001, 0x00000102, 0x407F0001] := by decide +kernel

/-- V-HE-1, p = 1011: BL missing. -/
theorem test_heur_run_three : wordsAfter (exec (.reconHeur 0b1011) (running 0xB3)) sWords =
    some [0xFF0A141E, 0x80FF0001, 0xD4691A21, 0xFF323C46] := by decide +kernel

/-- V-IN-5, p = 1001: the b quotient 49.99999999999999 gives 0x31. -/
theorem test_inpaint_run : wordsAfter (exec (.reconInpaint 0b1001) (filling 0b1001 0x94)) sWords =
    some [0xFF0A141E, 0xFF1E2831, 0xFF1E2831, 0xFF323C46] := by decide +kernel

/-- V-IN-1: uniform 0x0B becomes 0x0A, each filled pixel counting for the later ones; FILL_COUNT = 3. -/
theorem test_inpaint_fill : fillPass 2 2 [some ⟨0x0B, 0x0B, 0x0B, 0x0B⟩, none, none, none] =
    ⟨[some ⟨0x0B, 0x0B, 0x0B, 0x0B⟩, some ⟨0x0A, 0x0A, 0x0A, 0x0A⟩, some ⟨0x0A, 0x0A, 0x0A, 0x0A⟩,
      some ⟨0x0A, 0x0A, 0x0A, 0x0A⟩], 3, 0⟩ := by decide +kernel

/-! ### Addresses, memory, registers -/

/-- V-MEM-1 and V-MEM-2. -/
theorem test_pixel_in_memory :
    let m := Memory.writeWord [] 0x1050 (wordOf ⟨255, 10, 20, 30⟩)
    (List.range 4).map (fun k => m.read (0x1050 + k)) = [0x1E, 0x14, 0x0A, 0xFF] ∧
      addr ⟨0x1000, 4, 4, 24⟩ 2 3 = 0x1050 := by decide +kernel

/-- V-MEM-3, at the top of the space, and V-MEM-4. -/
theorem test_legality_and_overlap :
    Legal ⟨0xFFFFFFF0, 0, 0, 16⟩ 4 1 ∧ ¬ Legal ⟨0xFFFFFFF0, 0, 0, 16⟩ 4 2 ∧ ¬ Legal ⟨0x1002, 0, 0, 16⟩ 4 1 ∧
    ¬ Legal ⟨0x1000, 0, 0, 12⟩ 4 1 ∧ ¬ Legal ⟨0x1000, 0, 0, 18⟩ 4 1 ∧
    Part.Overlaps ⟨⟨0x1000, 4, 4, 16⟩, 4, 4, false⟩ ⟨⟨0x103C, 2, 2, 8⟩, 2, 2, true⟩ ∧
    ¬ Part.Overlaps ⟨⟨0x1000, 4, 4, 16⟩, 4, 4, false⟩ ⟨⟨0x1040, 2, 2, 8⟩, 2, 2, true⟩ := by decide

/-- Writing the byte an unlisted address reads as removes the entry. -/
theorem test_memory_is_canonical : Memory.write [(0x10, 0x55)] 0x10 0 = [] ∧
    Memory.write [(0x10, 0x55)] 0x8 0x66 = [(0x8, 0x66), (0x10, 0x55)] := by decide

/-- V-REG-2: the reserved bits of S_WIDTH. -/
theorem test_width_reads_back_16_bits :
    ((State.reset.portWrite 0x024 4 0xFFFFFFFF).portRead 0x024 4).answer = some (.readOk 0x0000FFFF) := by decide

/-- V-REG-3: a halfword write and a misaligned one. -/
theorem test_port_rejects : (State.reset.portWrite 0x020 2 5).answer = some .err ∧
    (State.reset.portWrite 0x022 4 5).answer = some .err ∧ (State.reset.portWrite 0x022 4 5).regs = Regs.reset := by decide

/-- V-REG-4: clearing DONE leaves ERROR. -/
theorem test_irq_clear : (Regs.clearIrq { Regs.reset with irqStatus := 0b011, irqEnable := 0b010 } 1).irqStatus = 0b010 ∧
    (Regs.clearIrq { Regs.reset with irqStatus := 0b011, irqEnable := 0b010 } 1).irq = true ∧
    (Regs.clearIrq { Regs.reset with irqStatus := 0b010, irqEnable := 0b010 } 2).irq = false := by decide

/-- P4: a launched SPLIT of width 3 ends with STATUS = 0x00000010. -/
theorem test_error_status :
    (after (engineStep ({ State.reset with regs := { Regs.reset with s := ⟨0x1000, 3, 4, 16⟩ } }.launch 1))).map
      (fun t => (t.readReg .status, t.regs.irqStatus)) = some (0x00000010, 0b010) := by decide +kernel

/-! ### Witnesses: for each statement, a state and operands that meet its hypotheses together -/

theorem valid_split : Validated .split (smallRegs 0x1) := ⟨by decide +kernel, by decide +kernel⟩
theorem valid_exact : Validated (.reconExact 0b1111) (smallRegs 0xF2) := ⟨by decide +kernel, by decide +kernel⟩
theorem valid_heur : Validated (.reconHeur 0b1001) (smallRegs 0x93) := ⟨by decide +kernel, by decide +kernel⟩
theorem valid_inpaint : Validated (.reconInpaint 0b0111) (smallRegs 0x74) := ⟨by decide +kernel, by decide +kernel⟩
theorem wf_small : Memory.wf smallMem = true := by decide +kernel
theorem running_split : (running 0x1).Running .split := ⟨_, rfl, rfl⟩
theorem running_exact : (running 0xF2).Running (.reconExact 0b1111) := ⟨_, rfl, rfl⟩
theorem running_heur : (running 0x93).Running (.reconHeur 0b1001) := ⟨_, rfl, rfl⟩
theorem running_inpaint : (running 0x74).Running (.reconInpaint 0b0111) := ⟨_, rfl, rfl⟩
theorem filling_inpaint : (filling 0b0111 0x74).Running (.reconInpaint 0b0111) := ⟨_, rfl, rfl⟩
theorem answers_split : (running 0x1).PixelsAnswer .split := pixelsAnswer_of_no_region rfl valid_split.1
theorem answers_exact : (running 0xF2).PixelsAnswer (.reconExact 0b1111) := pixelsAnswer_of_no_region rfl valid_exact.1
theorem answers_heur : (running 0x93).PixelsAnswer (.reconHeur 0b1001) := pixelsAnswer_of_no_region rfl valid_heur.1
theorem answers_inpaint : (running 0x74).PixelsAnswer (.reconInpaint 0b0111) := pixelsAnswer_of_no_region rfl valid_inpaint.1

/-- The small machine satisfies the invariant in every phase. -/
theorem inv_pending (w : Word) : (pending w).Inv where
  memory := wf_small
  discarded := fun _ => rfl
  inFlight := by intro v h; injection h with h; subst h; exact ⟨rfl, rfl, rfl, rfl⟩
  validated := by intro v h; cases h
  canvas := by intro c h; cases h

theorem inv_running : (running 0x1).Inv where
  memory := wf_small
  discarded := fun h => absurd rfl (h 0x1)
  inFlight := by intro v h; injection h with h; subst h; exact ⟨rfl, rfl, rfl, rfl⟩
  validated := by intro v h; injection h with h; subst h; exact ⟨.split, rfl, valid_split⟩
  canvas := by intro c h; cases h

theorem inv_filling : (filling 0b0111 0x74).Inv where
  memory := wf_small
  discarded := fun h => absurd rfl (h 0x74)
  inFlight := by intro v h; injection h with h; subst h; exact ⟨rfl, rfl, rfl, rfl⟩
  validated := by intro v h; injection h with h; subst h; exact ⟨_, rfl, valid_inpaint⟩
  canvas := by
    intro c h
    injection h with h
    subst h
    exact ⟨0b0111, filling_inpaint, length_scatter _ _ _, fun _ _ hx hy => scatter_mask hx hy⟩

/-- The small machine with a script. -/
def scripted (st : State) (es : List Event) : State := { st with inputs := es }

theorem witness_DecodeMatchesTheTable :
    (presentField 0x2 = 0 ∧ 2 ≤ (opField 0x2).toNat ∧ (opField 0x2).toNat ≤ 4 ∧ rsvdField 0x2 = 0) ∧
    (presentField 0x4 = 0 ∧ 2 ≤ (opField 0x4).toNat ∧ (opField 0x4).toNat ≤ 4 ∧ rsvdField 0x4 = 0) := by decide

theorem witness_IllegalWordsEndWithIllegalCmd : (∃ k, decode 0x5 = .error k) ∧
    ((scripted State.reset [.sw 0x008 4 0x5]).phase = .idle ∧
      (scripted State.reset [.sw 0x008 4 0x5]).inputs = [.sw 0x008 4 0x5]) ∧
    (pending 0x5).phase = .pending 0x5 ∧ (pending 0x5).inputs = [] ∧
    (scripted (pending 0x5) [.engine, .rst]).phase = .pending 0x5 ∧
    (scripted (pending 0x5) [.engine, .rst]).inputs = [.engine, .rst] := ⟨⟨_, rfl⟩, ⟨rfl, rfl⟩, rfl, rfl, rfl, rfl⟩

theorem witness_AssemblerWords : (15 : Nat) ≤ 15 ∧ 15 < 16 := by decide

theorem witness_EngineStepRunsTheDecodedCommand : (pending 0x1).phase.word? = some 0x1 ∧ decode 0x1 = .ok .split ∧ (pending 0x1).inputs = [] ∧
    (scripted (running 0x1) [.engine]).phase.word? = some 0x1 ∧ (scripted (running 0x1) [.engine]).inputs = [.engine] :=
  ⟨rfl, rfl, rfl, rfl, rfl⟩

theorem witness_OnlyACmdWriteStartsACommand : State.reset.phase = .idle ∧ State.reset.inputs = [] ∧
    (scripted State.reset [.engine]).phase = .idle ∧ (scripted State.reset [.engine]).inputs = [.engine] ∧
    ∃ t, step (scripted State.reset [.sw 0x008 4 0x1]) = .next t ∧ t.phase ≠ .idle := ⟨rfl, rfl, rfl, rfl, _, rfl, by decide⟩

theorem witness_CmdWriteLaunches : (scripted State.reset [.sw 0x008 4 0x1]).phase = .idle ∧
    (scripted (running 0x1) [.sw 0x008 4 0x1]).phase ≠ .idle := ⟨rfl, by decide⟩

/-- One offset for each clause of R37, at both ends of the descriptor range and of the unmapped range. -/
theorem witness_BusyWritesAreIgnored : (pending 0x1).phase.busy = true ∧
    (∀ off : BitVec 8, (scripted (pending 0x1) [.sw off 4 1]).inputs = [.sw off 4 1]) ∧
    (∀ off ∈ [(0x008 : BitVec 8), 0x020, 0x06C], off.toNat % 4 = 0 ∧ (off = 0x008 ∨ (0x020 ≤ off.toNat ∧ off.toNat ≤ 0x06F))) ∧
    (∀ off ∈ [(0x000 : BitVec 8), 0x00C, 0x018, 0x01C, 0x070, 0x0FC], off.toNat % 4 = 0 ∧
      (off = 0x000 ∨ off = 0x00C ∨ off = 0x018 ∨ off = 0x01C ∨ 0x070 ≤ off.toNat)) ∧
    (∀ off ∈ [(0x004 : BitVec 8), 0x010, 0x014], off.toNat % 4 = 0) ∧
    (0x1 : Word).getLsbD 0 = true ∧ (0x2 : Word).getLsbD 0 = false :=
  ⟨rfl, fun _ => rfl, by decide, by decide, by decide, by decide, by decide⟩

theorem witness_PortAccessRules :
    (∀ (off : BitVec 8) n v, (scripted State.reset [.sw off n v]).inputs = [.sw off n v] ∧
      (scripted State.reset [.lw off n]).inputs = [.lw off n]) ∧
    ((2 : Nat) ≠ 4 ∧ (0x022 : BitVec 8).toNat % 4 ≠ 0 ∧ (0x0FC : BitVec 8).toNat % 4 = 0) ∧
    (∀ off ∈ [(0x024 : BitVec 8), 0x068], off.toNat % 4 = 0 ∧ 0x020 ≤ off.toNat ∧ off.toNat ≤ 0x06F ∧
      (off.toNat % 16 = 4 ∨ off.toNat % 16 = 8)) ∧
    (0xFFFF0001 : Word) &&& 0x0000FFFF = 0x00000001 &&& 0x0000FFFF ∧
    (0xFFFFFFF9 : Word) &&& 0x00000007 = 0x00000001 &&& 0x00000007 ∧
    (0xFFFFFFFF : Word) &&& 0x00000001 = 0x00000001 &&& 0x00000001 :=
  ⟨fun _ _ _ => ⟨rfl, rfl⟩, by decide, by decide, by decide, by decide, by decide⟩

/-- One offset of every kind, idle and busy; the ends of the unmapped range. -/
theorem witness_NextReadReturnsTheNewValue :
    (∀ (st : State) (off : BitVec 8) v, (scripted st [.sw off 4 v, .lw off 4]).inputs = [.sw off 4 v, .lw off 4]) ∧
    (∀ off ∈ [(0x000 : BitVec 8), 0x004, 0x008, 0x00C, 0x010, 0x014, 0x018, 0x01C, 0x020, 0x068, 0x070, 0x0FC],
      off.toNat % 4 = 0) ∧
    regAt 0x020 = some (.desc .s .base) ∧ regAt 0x068 = some (.desc (.q 3) .height) ∧
    (scripted State.reset []).phase = .idle ∧ (scripted (pending 0x1) []).phase ≠ .idle :=
  ⟨fun _ _ _ => rfl, by decide, rfl, rfl, rfl, by decide⟩

theorem witness_DescriptorWriteReadsBack : (scripted State.reset [.sw 0x020 4 5]).phase = .idle ∧ (0x020 : BitVec 8).toNat % 4 = 0 ∧
    regAt 0x020 = some (.desc .s .base) ∧ (scripted State.reset [.sw 0x020 4 5]).inputs = [.sw 0x020 4 5] ∧
    (0x068 : BitVec 8).toNat % 4 = 0 ∧ regAt 0x068 = some (.desc (.q 3) .height) := ⟨rfl, by decide, rfl, rfl, by decide, rfl⟩

theorem witness_RegisterMapAndResetValues : 0x070 ≤ (0x070 : BitVec 8).toNat ∧ 0x070 ≤ (0x0FF : BitVec 8).toNat := by decide

theorem witness_StatusWordLayout : (pending 0x1).Inv ∧ (pending 0x1).phase ≠ .idle := ⟨inv_pending _, by decide⟩

theorem witness_IrqLevelIsMaskedOr : (scripted (running 0x1) [.sw 0x014 4 7]).inputs = [.sw 0x014 4 7] ∧ (2 : Nat) < 3 := ⟨rfl, by decide⟩

/-- DONE cleared by a write of 1; DONE set by a completion, ERROR by an error, WBUSY by an ignored write. -/
theorem witness_IrqStatusBitsAreSticky :
    (∃ t, step (scripted { State.reset with regs := { Regs.reset with irqStatus := 0b001 } } [.sw 0x010 4 1]) = .next t ∧
      t.regs.irqStatus.getLsbD 0 = false) ∧
    (∃ t, step (scripted { State.reset with regs := { Regs.reset with irqStatus := 0b001 } } [.rst]) = .next t ∧
      t.regs.irqStatus.getLsbD 0 = false) ∧
    (∃ t, step (scripted (running 0x1) [.engine]) = .next t ∧ t.regs.irqStatus.getLsbD 0 = true) ∧
    (∃ t, step (pending 0x2) = .next t ∧ t.regs.irqStatus.getLsbD 1 = true) ∧
    (∃ t, step (scripted (running 0x1) [.sw 0x020 4 0]) = .next t ∧ t.regs.irqStatus.getLsbD 2 = true) :=
  ⟨⟨_, rfl, by decide +kernel⟩, ⟨_, rfl, by decide +kernel⟩, ⟨_, rfl, by decide +kernel⟩, ⟨_, rfl, by decide +kernel⟩,
    ⟨_, rfl, by decide +kernel⟩⟩

theorem witness_ResetStep : (scripted (running 0x1) [.rst]).inputs = [.rst] ∧ (0x1 : Word).getLsbD 0 = true ∧
    (∀ w, (pending 0x1).phase ≠ .running w) := ⟨rfl, by decide, by intro w h; cases h⟩

theorem witness_ResetDuringRunMixes : (scripted (running 0x1) [.rst]).Running .split ∧
    Validated .split (scripted (running 0x1) [.rst]).regs ∧ Memory.wf (scripted (running 0x1) [.rst]).mem = true ∧
    (scripted (running 0x1) [.rst]).Safe ∧ (∃ t, step (scripted (running 0x1) [.rst]) = .next t) ∧
    (scripted (running 0x1) [.rst]).Final .split 0x2030 0x01020304 ∧
    ¬ InOutput .split (scripted (running 0x1) [.rst]).regs 0x2034 := by
  refine ⟨running_split, valid_split, wf_small, rfl, ⟨_, rfl⟩, ⟨3, 0, 0, by decide, by decide, by decide, by decide +kernel⟩, ?_⟩
  rintro ⟨part, hp, ho, x, y, hx, hy, h1, h2⟩
  have : ∀ q ∈ parts .split (smallRegs 0x1), q.out = true → q.w = 1 ∧ q.h = 1 ∧ addr q.desc 0 0 + 4 ≤ 0x2034 := by decide +kernel
  obtain ⟨hw, hh, hlt⟩ := this part hp ho
  obtain rfl : x = 0 := by omega
  obtain rfl : y = 0 := by omega
  omega

/-- For the statements about words in memory: the last word of the space. -/
theorem witness_LittleEndianWords_PixelWordLayout : Memory.wf [] = true ∧ 0xFFFFFFFC + 4 ≤ 2 ^ 32 := by decide

/-- R171, SPLIT: registers for each line, the earlier lines' conditions being false (V-SP-3 in small). -/
theorem witness_ValidationOrder_split :
    validateWord 0x1 { smallRegs 0 with s := ⟨0x1000, 65535, 2, 8⟩ } = .invalidDimensions ∧
    validateWord 0x1 { smallRegs 0 with q2 := ⟨0x2020, 1, 1, 0⟩ } = .invalidDescriptor ∧
    validateWord 0x1 { smallRegs 0 with q1 := ⟨0x2030, 1, 1, 4⟩ } = .overlap ∧
    validateWord 0x1 (smallRegs 0) = .ok ∧
    validateWord 0x11 { smallRegs 0 with s := ⟨0x1000, 3, 2, 8⟩ } = .illegalCmd := by decide +kernel

/-- R171, RECON.*: one register setting for each line (V-EX-2 in small), the widest legal quadrant among them. -/
theorem witness_ValidationOrder_recon :
    validateWord 0x2 (smallRegs 0) = .noInput ∧
    validateWord 0x72 { smallRegs 0 with q0 := ⟨0x2000, 3, 1, 4⟩ } = .incompleteInput ∧
    validateWord 0xF2 { smallRegs 0 with q3 := ⟨0x2030, 1, 2, 4⟩ } = .dimensionMismatch ∧
    validateWord 0x13 { smallRegs 0 with q0 := ⟨0x2000, 0x8000, 1, 4⟩ } = .invalidDimensions ∧
    validateWord 0x13 { smallRegs 0 with q0 := ⟨0x00100000, 0x7FFF, 1, 0x1FFFC⟩, s := ⟨0x1000, 0, 0, 0x3FFF8⟩ } = .ok ∧
    validateWord 0xF4 { smallRegs 0 with s := ⟨0x1000, 2, 2, 4⟩ } = .invalidDescriptor ∧
    validateWord 0xF3 { smallRegs 0 with s := ⟨0x2020, 2, 2, 8⟩ } = .overlap ∧
    validateWord 0xF2 { smallRegs 0 with q0 := ⟨0x2010, 1, 1, 4⟩ } = .ok := by decide +kernel

theorem witness_ValidationStep : (pending 0x2).phase = .pending 0x2 ∧ decode 0x2 = .ok (.reconExact 0) ∧
    validate (.reconExact 0) (pending 0x2).regs ≠ .ok ∧ (pending 0x1).phase = .pending 0x1 ∧ decode 0x1 = .ok .split ∧
    validate .split (pending 0x1).regs = .ok := ⟨rfl, rfl, by decide +kernel, rfl, rfl, valid_split.1⟩

theorem witness_SplitCompletes : (running 0x1).Running .split ∧ Validated .split (running 0x1).regs ∧
    Memory.wf (running 0x1).mem = true ∧ (running 0x1).Safe ∧ (running 0x1).PixelsAnswer .split :=
  ⟨running_split, valid_split, wf_small, rfl, answers_split⟩

theorem witness_ExactCompletes : (running 0xF2).Running (.reconExact 0b1111) ∧
    Validated (.reconExact 0b1111) (running 0xF2).regs ∧ Memory.wf (running 0xF2).mem = true ∧ (running 0xF2).Safe ∧
    (running 0xF2).PixelsAnswer (.reconExact 0b1111) := ⟨running_exact, valid_exact, wf_small, rfl, answers_exact⟩

theorem witness_HeurCompletes : (running 0x93).Running (.reconHeur 0b1001) ∧
    Validated (.reconHeur 0b1001) (running 0x93).regs ∧ Memory.wf (running 0x93).mem = true ∧ (running 0x93).Safe ∧
    (running 0x93).PixelsAnswer (.reconHeur 0b1001) := ⟨running_heur, valid_heur, wf_small, rfl, answers_heur⟩

theorem witness_InpaintScatters : (running 0x74).Running (.reconInpaint 0b0111) ∧
    Validated (.reconInpaint 0b0111) (running 0x74).regs ∧ (running 0x74).work.canvas = none ∧
    (running 0x74).PixelsAnswer (.reconInpaint 0b0111) := ⟨running_inpaint, valid_inpaint, rfl, answers_inpaint⟩

/-- With a pixel of a present phase and one of an absent phase. -/
theorem witness_InpaintCompletes : (filling 0b0111 0x74).Running (.reconInpaint 0b0111) ∧
    Validated (.reconInpaint 0b0111) (filling 0b0111 0x74).regs ∧ Memory.wf (filling 0b0111 0x74).mem = true ∧
    (filling 0b0111 0x74).Safe ∧ (filling 0b0111 0x74).PixelsAnswer (.reconInpaint 0b0111) ∧
    (filling 0b0111 0x74).work.canvas = some (scatter 0b0111 (smallRegs 0x74) smallMem) ∧
    (∀ x y, x < 2 * (quadDims 0b0111 (smallRegs 0x74)).1 → y < 2 * (quadDims 0b0111 (smallRegs 0x74)).2 →
      Canvas.mask (scatter 0b0111 (smallRegs 0x74) smallMem) (2 * (quadDims 0b0111 (smallRegs 0x74)).1) x y =
        present 0b0111 (phaseOf x y)) ∧
    present 0b0111 (phaseOf 0 1) = true ∧ present 0b0111 (phaseOf 1 1) = false :=
  ⟨filling_inpaint, valid_inpaint, wf_small, rfl, answers_inpaint, rfl, fun _ _ hx hy => scatter_mask hx hy, rfl, rfl⟩

/-- The state after the small SPLIT, and the machine that then runs RECON.EXACT into another buffer at 0x3000. -/
def splitDone : State := ((running 0x1).setMem ((running 0x1).memDone (jobOf .split (running 0x1)).writes)).complete
def exactNext : State :=
  { splitDone with
    regs := { splitDone.regs with cmd := 0xF2, irqStatus := 0, s := ⟨0x3000, 2, 2, 8⟩ }
    phase := .running 0xF2 }

theorem witness_SplitThenExactIsIdentity : (running 0x1).Running .split ∧ Validated .split (running 0x1).regs ∧
    exec .split (running 0x1) = .next splitDone ∧ splitDone.phase = .idle ∧ splitDone.regs.err = .ok ∧
    (∀ i, exactNext.regs.q i = splitDone.regs.q i) ∧ exactNext.mem = splitDone.mem ∧
    exactNext.Running (.reconExact 0b1111) ∧ Validated (.reconExact 0b1111) exactNext.regs ∧
    Memory.wf exactNext.mem = true ∧ exactNext.Safe ∧
    ∃ v, exec (.reconExact 0b1111) exactNext = .next v ∧ v.phase = .idle ∧ v.regs.err = .ok := by
  have hrun : exec .split (running 0x1) = .next splitDone := by
    rw [exec_running .split rfl (by simp), runStep_answers valid_split.1 answers_split rfl, splitDone, memDone_safe rfl]
  refine ⟨running_split, valid_split, hrun, rfl, rfl, fun i => ?_, rfl, ⟨_, rfl, rfl⟩,
    ⟨by decide +kernel, by decide +kernel⟩, by decide +kernel, rfl, ?_⟩
  · fin_cases i <;> rfl
  · have hv : validate (.reconExact 0b1111) exactNext.regs = .ok := by decide +kernel
    refine ⟨_, exec_running (.reconExact 0b1111) rfl (by simp), ?_⟩
    rw [runStep_answers hv (pixelsAnswer_of_no_region rfl hv) rfl]
    exact ⟨rfl, rfl⟩

theorem witness_ExactAgreesWithHeur : (∃ w, (running 0xF2).phase = .running w) ∧
    Validated (.reconExact 0b1111) (running 0xF2).regs ∧ Memory.wf (running 0xF2).mem = true ∧ (running 0xF2).Safe ∧
    (running 0xF2).PixelsAnswer (.reconExact 0b1111) ∧ (0b0111 : BitVec 4) ≠ 0 ∧ (0b0111 : BitVec 4) ≠ 0b1111 :=
  ⟨⟨_, rfl⟩, valid_exact, wf_small, rfl, answers_exact, by decide, by decide⟩

/-- All three RECON.* commands end with ERR = 0 on the small machine. -/
theorem witness_SourcePixelFidelity :
    ((running 0xF2).Running (.reconExact 0b1111) ∧ Validated (.reconExact 0b1111) (running 0xF2).regs ∧
      (∃ t, exec (.reconExact 0b1111) (running 0xF2) = .next t ∧ t.phase = .idle ∧ t.regs.err = .ok) ∧
      present 0b1111 3 = true ∧ 0 < ((running 0xF2).regs.q 3).width.toNat) ∧
    ((running 0x93).Running (.reconHeur 0b1001) ∧ Validated (.reconHeur 0b1001) (running 0x93).regs ∧
      (∃ t, exec (.reconHeur 0b1001) (running 0x93) = .next t ∧ t.phase = .idle ∧ t.regs.err = .ok) ∧
      present 0b1001 0 = true) ∧
    ((filling 0b0111 0x74).Running (.reconInpaint 0b0111) ∧ Validated (.reconInpaint 0b0111) (filling 0b0111 0x74).regs ∧
      (filling 0b0111 0x74).work.canvas = some (scatter 0b0111 (smallRegs 0x74) smallMem) ∧
      (∃ t, exec (.reconInpaint 0b0111) (filling 0b0111 0x74) = .next t ∧ t.phase = .idle ∧ t.regs.err = .ok) ∧
      present 0b0111 2 = true) ∧
    Memory.wf smallMem = true ∧ (running 0x93).Safe :=
  ⟨⟨running_exact, valid_exact, ⟨_, rfl, by decide +kernel, by decide +kernel⟩, rfl, by decide⟩,
    ⟨running_heur, valid_heur, ⟨_, rfl, by decide +kernel, by decide +kernel⟩, rfl⟩,
    ⟨filling_inpaint, valid_inpaint, rfl, ⟨_, rfl, by decide +kernel, by decide +kernel⟩, rfl⟩, wf_small, rfl⟩

theorem witness_MaskClosedForm : (1 : Nat) < 2 * (quadDims 0b0111 (smallRegs 0)).1 ∧ 1 < 2 * (quadDims 0b0111 (smallRegs 0)).2 := by
  decide

theorem witness_BlackCaseNeverOccurs : (0b0111 : BitVec 4) ≠ 0 ∧
    Canvas.mask (scatter 0b0111 (smallRegs 0x74) smallMem) 2 1 1 = false ∧
    (filling 0b0111 0x74).Running (.reconInpaint 0b0111) ∧ Validated (.reconInpaint 0b0111) (filling 0b0111 0x74).regs ∧
    (filling 0b0111 0x74).work.canvas = some (scatter 0b0111 (smallRegs 0x74) smallMem) ∧
    ∃ t, exec (.reconInpaint 0b0111) (filling 0b0111 0x74) = .next t ∧ t.phase = .idle ∧ t.regs.err = .ok :=
  ⟨by decide, by decide +kernel, filling_inpaint, valid_inpaint, rfl, _, rfl, by decide +kernel, by decide +kernel⟩

theorem witness_InpaintTotalCoverage : (0b0001 : BitVec 4) ≠ 0 ∧ 1 < 2 * (quadDims 0b0001 (smallRegs 0)).1 := by decide

/-- At the bounds: 24 neighbours, and channel values 0 and 255. -/
theorem witness_WeightedMeanBounds :
    let ns := List.replicate 23 (kernel 8, (⟨0, 0, 0, 0⟩ : Pixel)) ++ [(kernel 1, ⟨255, 255, 255, 255⟩)]
    ns ≠ [] ∧ ns.length ≤ 24 ∧ ∀ e ∈ ns, (∃ d2 ∈ [1, 2, 4, 5, 8], e.1 = kernel d2) ∧ 0 ≤ e.2.a.toNat ∧ e.2.a.toNat ≤ 255 := by
  decide +kernel

theorem witness_RoundsToNearestEven : (0 : Nat) < 1 := by decide

theorem witness_AccessesAlignedAndInSpan : validate .split (running 0x1).regs = .ok ∧ (jobOf .split (running 0x1)).reads ≠ [] ∧
    (jobOf .split (running 0x1)).writes ≠ [] := ⟨valid_split.1, by decide +kernel, by decide +kernel⟩

theorem witness_EngineStoresOnlyOutputPixels : (running 0x1).Inv ∧ (∃ t, engineStep (running 0x1) = .next t) ∧ (running 0x1).Running .split ∧
    (pending 0x1).Inv ∧ (∃ t, engineStep (pending 0x1) = .next t) ∧ ∀ w, (pending 0x1).phase ≠ .running w :=
  ⟨inv_running, ⟨_, rfl⟩, running_split, inv_pending _, ⟨_, rfl⟩, by intro w h; cases h⟩

/-- The small machine where the first word of S does not answer OK. -/
def failing (b : BusAnswer) (w : Word) : State := { running w with bus := [⟨0x1000, 0x1004, b, b⟩] }

theorem failing_answers (b : BusAnswer) (w : Word) {a : Nat} (h : a + 4 ≤ 2 ^ 32) (k : Access) :
    (failing b w).busAnswer a k = b ∨ (failing b w).busAnswer a k = .ok := by
  unfold State.busAnswer
  rw [if_pos h]
  simp only [failing, regionAnswer]
  split
  · left; cases k <;> rfl
  · right; rfl

theorem witness_BusErrorEndsTheCommand : (failing .err 0x1).Running .split ∧ Validated .split (failing .err 0x1).regs ∧
    Memory.wf (failing .err 0x1).mem = true ∧ (failing .err 0x1).Safe ∧
    (∃ part ∈ parts .split (failing .err 0x1).regs, ∃ x y, x < part.w ∧ y < part.h ∧
      (failing .err 0x1).busAnswer (addr part.desc x y) (if part.out then .write else .read) = .err) ∧
    (∀ part ∈ parts .split (failing .err 0x1).regs, ∀ x y k, x < part.w → y < part.h →
      (failing .err 0x1).busAnswer (addr part.desc x y) k ≠ .never) := by
  refine ⟨⟨_, rfl, rfl⟩, valid_split, wf_small, rfl,
    ⟨⟨(smallRegs 0x1).s, 2, 2, false⟩, by decide +kernel, 0, 0, by decide, by decide, by decide +kernel⟩, ?_⟩
  intro part hp x y k hx hy h
  rcases failing_answers .err 0x1 (addr_lt (parts_legal valid_split.1 part hp).1 hx hy) k with h1 | h1 <;>
    exact absurd (h1.symm.trans h) (by decide)

/-- The same for RECON.INPAINT, whose first output word then does not answer OK. -/
theorem witness_BusErrorEndsTheCommand_inpaint : (failing .err 0x74).Running (.reconInpaint 0b0111) ∧
    Validated (.reconInpaint 0b0111) (failing .err 0x74).regs ∧ Memory.wf (failing .err 0x74).mem = true ∧
    (failing .err 0x74).Safe ∧
    (∃ part ∈ parts (.reconInpaint 0b0111) (failing .err 0x74).regs, ∃ x y, x < part.w ∧ y < part.h ∧
      (failing .err 0x74).busAnswer (addr part.desc x y) (if part.out then .write else .read) = .err) ∧
    (∀ part ∈ parts (.reconInpaint 0b0111) (failing .err 0x74).regs, ∀ x y k, x < part.w → y < part.h →
      (failing .err 0x74).busAnswer (addr part.desc x y) k ≠ .never) ∧
    ∃ t, exec (.reconInpaint 0b0111) (failing .err 0x74) = .next t ∧ t.regs.err = .busError ∧ t.phase = .idle := by
  refine ⟨⟨_, rfl, rfl⟩, valid_inpaint, wf_small, rfl,
    ⟨⟨(smallRegs 0x74).s, 2, 2, true⟩, by decide +kernel, 0, 0, by decide, by decide, by decide +kernel⟩, ?_,
    _, rfl, by decide +kernel, by decide +kernel⟩
  intro part hp x y k hx hy h
  rcases failing_answers .err 0x74 (addr_lt (parts_legal valid_inpaint.1 part hp).1 hx hy) k with h1 | h1 <;>
    exact absurd (h1.symm.trans h) (by decide)

theorem witness_CommandsEnd : ((pending 0x74).Inv ∧ (pending 0x74).inputs = [] ∧ ∀ a k, (pending 0x74).busAnswer a k ≠ .never) ∧
    ((failing .never 0x1).Running .split ∧ Validated .split (failing .never 0x1).regs ∧
      (∃ part ∈ parts .split (failing .never 0x1).regs, ∃ x y, x < part.w ∧ y < part.h ∧
        (failing .never 0x1).busAnswer (addr part.desc x y) (if part.out then .write else .read) = .never) ∧
      (∀ part ∈ parts .split (failing .never 0x1).regs, ∀ x y k, x < part.w → y < part.h →
        (failing .never 0x1).busAnswer (addr part.desc x y) k ≠ .err)) := by
  refine ⟨⟨inv_pending _, rfl, fun a k => ?_⟩, ⟨_, rfl, rfl⟩, valid_split,
    ⟨⟨(smallRegs 0x1).s, 2, 2, false⟩, by decide +kernel, 0, 0, by decide, by decide, by decide +kernel⟩, ?_⟩
  · unfold State.busAnswer; split <;> simp [pending, State.reset, regionAnswer]
  · intro part hp x y k hx hy h
    rcases failing_answers .never 0x1 (addr_lt (parts_legal valid_split.1 part hp).1 hx hy) k with h1 | h1 <;>
      exact absurd (h1.symm.trans h) (by decide)

/-- A step that writes dimensions back, and one that writes counters. -/
theorem witness_EngineWritesOnlyTheseRegisters :
    (∃ t, engineStep (pending 0x73) = .next t) ∧
    (∃ t, engineStep (filling 0b0111 0x74) = .next t ∧ t.regs.fillCount ≠ (filling 0b0111 0x74).regs.fillCount) ∧
    (∃ t, engineStep (pending 0x2) = .next t ∧ t.regs.err ≠ (pending 0x2).regs.err) :=
  ⟨⟨_, rfl⟩, ⟨_, rfl, by decide +kernel⟩, ⟨_, rfl, by decide +kernel⟩⟩

/-- The last byte of the span of the output of SPLIT Q3, and the word that holds it. -/
theorem witness_HostViolationSetsFault : (running 0x1).phase.word? = some 0x1 ∧ decode 0x1 = .ok .split ∧
    (⟨(smallRegs 0x1).q3, 1, 1, true⟩ : Part) ∈ parts .split (running 0x1).regs ∧
    Part.Legal ⟨(smallRegs 0x1).q3, 1, 1, true⟩ ∧ spanLo (smallRegs 0x1).q3 ≤ (0x2033 : Word).toNat ∧
    (0x2033 : Word).toNat < spanHi (smallRegs 0x1).q3 1 1 ∧ spanLo (smallRegs 0x1).q3 ≤ 4 * (0x80C : BitVec 30).toNat + 3 ∧
    4 * (0x80C : BitVec 30).toNat + 3 < spanHi (smallRegs 0x1).q3 1 1 ∧
    (∃ t, step (scripted (running 0x1) [.mwByte 0x2033 1]) = .next t ∧ t.hostFault = true) := by
  refine ⟨rfl, rfl, by decide +kernel, by decide, by decide, by decide, by decide, by decide, _, rfl, by decide +kernel⟩

/-- Just outside the spans: the word after Q3, the byte before S, and for reads the last word of the input S. In IDLE no access
is a violation. -/
theorem witness_QuietHostAccesses : Memory.wf (running 0x1).mem = true ∧ (running 0x1).Safe ∧
    (running 0x1).QuietWrite (4 * (0x80D : BitVec 30).toNat) 4 ∧ (running 0x1).QuietWrite (0x0FFF : Word).toNat 1 ∧
    (running 0x1).QuietRead (4 * (0x403 : BitVec 30).toNat) 4 ∧ (running 0x1).QuietRead (0x100F : Word).toNat 1 ∧
    State.reset.QuietWrite 0x1000 4 := by
  have hd : decode 0x1 = .ok .split := rfl
  have hall : ∀ part ∈ parts .split (smallRegs 0x1), (spanHi part.desc part.w part.h ≤ 0x2034 ∧ 0x1000 ≤ spanLo part.desc) ∧
      (part.out = true → 0x1010 ≤ spanLo part.desc) := by decide +kernel
  refine ⟨wf_small, rfl, ?_, ?_, ?_, ?_, fun w i h => by simp [State.reset, Phase.word?] at h⟩
  all_goals
    intro w i hw hi part hp
    injection hw with hw
    subst hw
    rw [hd] at hi
    injection hi with hi
    subst hi
    have := hall part hp
  · rintro a h1 h2 ⟨_, _, _, _, h5⟩; simp at h1; omega
  · rintro a h1 h2 ⟨_, _, _, h4, _⟩; simp at h2; omega
  · rintro ho a h1 h2 ⟨_, _, _, h4, _⟩; have := this.2 ho; simp at h2; omega
  · rintro ho a h1 h2 ⟨_, _, _, h4, _⟩; have := this.2 ho; simp at h2; omega

/-- A violating write and read, and a breach, each set `host_fault`. -/
theorem witness_HostFaultOnlyByViolation :
    (∃ t, step (scripted (running 0x1) [.mw 0x400 7]) = .next t ∧ t.hostFault = true) ∧
    (∃ t, step (scripted (running 0x1) [.mr 0x80C]) = .next t ∧ t.hostFault = true) ∧
    (∃ t, step (scripted State.reset [.mw 0x400 7]) = .next t ∧ t.hostFault = false) ∧
    (scripted State.reset [.breach .inputVisible]).inputs = [.breach .inputVisible] :=
  ⟨⟨_, rfl, by decide +kernel⟩, ⟨_, rfl, by decide +kernel⟩, ⟨_, rfl, by decide +kernel⟩, rfl⟩

theorem witness_QuietHostKeepsPixelWords : (running 0x1).phase.word? = some 0x1 ∧ decode 0x1 = .ok .split ∧
    validate .split (running 0x1).regs = .ok ∧
    (∃ t, step (scripted (running 0x1) [.mw 0x80D 7]) = .next t ∧ t.hostFault = false) ∧
    (∃ t, step (scripted (running 0x1) [.mwByte 0x2034 7]) = .next t ∧ t.hostFault = false) :=
  ⟨rfl, rfl, valid_split.1, ⟨_, rfl, by decide +kernel⟩, ⟨_, rfl, by decide +kernel⟩⟩

theorem witness_AbsentDescriptorsDoNotMatter : (0b1001 : BitVec 4) ≠ 0 ∧ present 0b1001 1 = false ∧
    (∃ t, exec (.reconHeur 0b1001) (running 0x93) = .next t) ∧ present 0b0111 3 = false ∧
    ∃ t, exec (.reconInpaint 0b0111) (pending 0x74) = .next t := ⟨by decide, rfl, ⟨_, rfl⟩, rfl, ⟨_, rfl⟩⟩

theorem witness_OutputDependsOnInputPixelsOnly : validate .split (running 0x1).regs = .ok ∧
    (∀ a ∈ (jobOf .split (running 0x1)).reads, (smallMem.writeWord 0x2000 5).readWord a = smallMem.readWord a) ∧
    smallMem.writeWord 0x2000 5 ≠ smallMem := ⟨valid_split.1, by decide +kernel, by decide +kernel⟩

theorem witness_StepKeepsInv : (filling 0b0111 0x74).Inv ∧ (∃ t, step (filling 0b0111 0x74) = .next t) ∧ (running 0x1).Inv ∧
    (∃ t, step (scripted (running 0x1) [.rst]) = .next t) := ⟨inv_filling, ⟨_, rfl⟩, inv_running, ⟨_, rfl⟩⟩

theorem witness_EveryStepGoesOn : (pending 0x11).Inv ∧ (running 0x1).Inv := ⟨inv_pending _, inv_running⟩

end Sys2Proof.Tests
end

section
/-! The effect of each kind of step: what a register write, the engine's turn and a step of the machine can do, said once.
The proofs about the machine's state go through these. -/

namespace Sys2Proof.Machine

theorem busy_iff {p : Phase} : p.busy = true ↔ p ≠ .idle := by cases p <;> simp [Phase.busy]

/-! ### A descriptor update, field by field -/

@[simp] theorem setDesc_cmd (r : Regs) (d : DescName) (x : Desc) : (r.setDesc d x).cmd = r.cmd := by
  cases d <;> simp [Regs.setDesc]
@[simp] theorem setDesc_err (r : Regs) (d : DescName) (x : Desc) : (r.setDesc d x).err = r.err := by
  cases d <;> simp [Regs.setDesc]
@[simp] theorem setDesc_irqStatus (r : Regs) (d : DescName) (x : Desc) : (r.setDesc d x).irqStatus = r.irqStatus := by
  cases d <;> simp [Regs.setDesc]
@[simp] theorem setDesc_irqEnable (r : Regs) (d : DescName) (x : Desc) : (r.setDesc d x).irqEnable = r.irqEnable := by
  cases d <;> simp [Regs.setDesc]
@[simp] theorem setDesc_fillCount (r : Regs) (d : DescName) (x : Desc) : (r.setDesc d x).fillCount = r.fillCount := by
  cases d <;> simp [Regs.setDesc]
@[simp] theorem setDesc_blackCount (r : Regs) (d : DescName) (x : Desc) : (r.setDesc d x).blackCount = r.blackCount := by
  cases d <;> simp [Regs.setDesc]

/-! ### The host's updates, field by field -/

@[simp] theorem resetStep_regs (st : State) : st.resetStep.regs = .reset := rfl
@[simp] theorem resetStep_phase (st : State) : st.resetStep.phase = .idle := rfl
@[simp] theorem resetStep_work (st : State) : st.resetStep.work = .empty := rfl
@[simp] theorem resetStep_mem (st : State) : st.resetStep.mem = st.memAfterReset := rfl
@[simp] theorem ignoreWhileBusy_regs (st : State) :
    st.ignoreWhileBusy.regs = { st.regs with irqStatus := st.regs.irqStatus ||| irqWBusy } := rfl
@[simp] theorem ignoreWhileBusy_phase (st : State) : st.ignoreWhileBusy.phase = st.phase := rfl
@[simp] theorem acknowledge_regs (st : State) (v : Word) :
    (st.acknowledge v).regs = { st.regs with irqStatus := st.regs.irqStatus &&& ~~~(v.extractLsb' 0 3) } := rfl
@[simp] theorem acknowledge_phase (st : State) (v : Word) : (st.acknowledge v).phase = st.phase := rfl

/-! ### A write to a register -/

/-- Offsets whose register a host cannot write (R26). -/
abbrev RegName.ReadOnly (n : RegName) : Prop := n = .id ∨ n = .status ∨ n = .fillCount ∨ n = .blackCount

theorem writeReg_readOnly (st : State) {n : RegName} (h : n.ReadOnly) (v : Word) : st.writeReg n v = st := by
  rcases h with rfl | rfl | rfl | rfl <;> rfl

theorem writeReg_ctrl_reset (st : State) {v : Word} (h : v.getLsbD 0 = true) : st.writeReg .ctrl v = st.resetStep := if_pos h

theorem writeReg_ctrl_ignored (st : State) {v : Word} (h : v.getLsbD 0 = false) : st.writeReg .ctrl v = st :=
  if_neg (by rw [h]; exact Bool.false_ne_true)

theorem writeReg_cmd_idle {st : State} (h : st.phase = .idle) (v : Word) : st.writeReg .cmd v = st.launch v :=
  if_neg (by simp [h, Phase.busy])

theorem writeReg_desc_idle {st : State} (h : st.phase = .idle) (d : DescName) (f : DescField) (v : Word) :
    st.writeReg (.desc d f) v = st.setRegs (st.regs.setDesc d ((st.regs.desc d).set f v)) :=
  if_neg (by simp [h, Phase.busy])

/-- CMD and the descriptor registers: those that a host cannot write while a command is busy (R37). -/
abbrev RegName.Guarded (n : RegName) : Prop := n = .cmd ∨ ∃ d f, n = .desc d f

theorem writeReg_guarded_busy {st : State} (h : st.phase ≠ .idle) {n : RegName} (hn : n.Guarded) (v : Word) :
    st.writeReg n v = st.ignoreWhileBusy := by
  rcases hn with rfl | ⟨d, f, rfl⟩ <;> exact if_pos (busy_iff.2 h)

/-- Everything that a write of `v` to register `n` can do, `t` being the state after it. -/
inductive WriteEffect (st : State) (n : RegName) (v : Word) (t : State) : Prop
  | ignored (ht : t = st)
  | reset (hn : n = .ctrl) (hv : v.getLsbD 0 = true) (ht : t = st.resetStep)
  | launch (hn : n = .cmd) (hi : st.phase = .idle) (ht : t = st.launch v)
  | guarded (hn : n.Guarded) (hb : st.phase ≠ .idle) (ht : t = st.ignoreWhileBusy)
  | clear (hn : n = .irqStatus) (ht : t = st.acknowledge v)
  | enable (hn : n = .irqEnable) (ht : t = st.setRegs { st.regs with irqEnable := v.extractLsb' 0 3 })
  | desc (d : DescName) (f : DescField) (hn : n = .desc d f) (hi : st.phase = .idle)
      (ht : t = st.setRegs (st.regs.setDesc d ((st.regs.desc d).set f v)))

theorem writeReg_effect (st : State) (n : RegName) (v : Word) : WriteEffect st n v (st.writeReg n v) := by
  cases n with
  | id | status | fillCount | blackCount => exact .ignored rfl
  | irqStatus => exact .clear rfl rfl
  | irqEnable => exact .enable rfl rfl
  | ctrl =>
    cases hv : v.getLsbD 0 with
    | true => exact .reset rfl hv (writeReg_ctrl_reset st hv)
    | false => exact .ignored (writeReg_ctrl_ignored st hv)
  | cmd =>
    by_cases hi : st.phase = .idle
    · exact .launch rfl hi (writeReg_cmd_idle hi v)
    · exact .guarded (.inl rfl) hi (writeReg_guarded_busy hi (.inl rfl) v)
  | desc d f =>
    by_cases hi : st.phase = .idle
    · exact .desc d f rfl hi (writeReg_desc_idle hi d f v)
    · exact .guarded (.inr ⟨d, f, rfl⟩) hi (writeReg_guarded_busy hi (.inr ⟨d, f, rfl⟩) v)

/-! ### The engine's step -/

/-- The registers after the end of a command (R174, R175): an event recorded, ERR, and the counters. -/
def Regs.ended (r : Regs) (event : BitVec 3) (e : ErrCode) (filled blacked : Word) : Regs :=
  { r with irqStatus := r.irqStatus ||| event, err := e, fillCount := filled, blackCount := blacked }

/-- Everything that an engine step from `st` to `t` can do to the registers and the phase. -/
inductive EngineEffect (st t : State) : Prop
  | keeps (hr : t.regs = st.regs) (hp : t.phase = st.phase)
  | validated (w : Word) (i : Instr) (hp : st.phase = .pending w) (hd : decode w = .ok i) (hp' : t.phase = .running w)
      (hr : t.regs = writeBack i st.regs)
  | ended (event : BitVec 3) (e : ErrCode) (filled blacked : Word) (hp : st.phase ≠ .idle) (hp' : t.phase = .idle)
      (hr : t.regs = st.regs.ended event e filled blacked)
      (hev : (event = irqDone ∧ e = .ok ∧ ∃ w, st.phase = .running w) ∨ (event = irqError ∧ e ≠ .ok))
      (hc : (filled = st.regs.fillCount ∧ blacked = st.regs.blackCount) ∨ ∃ p, st.Running (.reconInpaint p))

theorem endWithError_effect {st t : State} {e : ErrCode} (hp : st.phase ≠ .idle) (he : e ≠ .ok)
    (ht : t = st.endWithError e) : EngineEffect st t :=
  .ended irqError e _ _ hp (by rw [ht]; rfl) (by rw [ht]; rfl) (.inr ⟨rfl, he⟩) (.inl ⟨rfl, rfl⟩)

theorem validateStep_effect {st : State} {w : Word} {i : Instr} (hp : st.phase = .pending w) (hd : decode w = .ok i) :
    EngineEffect st (validateStep i w st) := by
  by_cases hv : validate i st.regs = .ok
  · rw [validateStep_ok w hv]
    exact .validated w i hp hd rfl rfl
  · exact endWithError_effect (by simp [hp]) hv (validateStep_error w hv)

theorem runStep_effect {st : State} {w : Word} (hp : st.phase = .running w) (job : Job) :
    EngineEffect st (runStep job st) := by
  rcases runStep_cases job st with ⟨-, h⟩ | ⟨-, h⟩ | ⟨-, h⟩ <;> rw [h]
  · exact .ended irqDone .ok _ _ (by simp [hp]) rfl rfl (.inl ⟨rfl, rfl, w, hp⟩) (.inl ⟨rfl, rfl⟩)
  · exact .ended irqError .busError _ _ (by simp [hp]) rfl rfl (.inr ⟨rfl, by decide⟩) (.inl ⟨rfl, rfl⟩)
  · exact .keeps rfl rfl

theorem inpaintBusError_effect {st : State} {p : BitVec 4} (hr : st.Running (.reconInpaint p)) :
    EngineEffect st (st.inpaintBusError p) := by
  obtain ⟨w, hp, hd⟩ := hr
  exact .ended irqError .busError _ _ (by simp [hp]) rfl rfl (.inr ⟨rfl, by decide⟩) (.inr ⟨p, w, hp, hd⟩)

theorem scatterStep_effect {st : State} {p : BitVec 4} (hr : st.Running (.reconInpaint p)) :
    EngineEffect st (scatterStep p st) := by
  rcases scatterStep_cases p st with ⟨-, h⟩ | ⟨-, h⟩ | ⟨-, h⟩ <;> rw [h]
  · exact .keeps rfl rfl
  · exact inpaintBusError_effect hr
  · exact .keeps rfl rfl

theorem fillStep_effect {st : State} {p : BitVec 4} (hr : st.Running (.reconInpaint p)) (cv : Canvas) :
    EngineEffect st (fillStep p cv st) := by
  rcases fillStep_cases p cv st with ⟨-, h⟩ | ⟨-, h⟩ | ⟨-, h⟩ <;> rw [h]
  · obtain ⟨w, hp, hd⟩ := hr
    exact .ended irqDone .ok _ _ (by simp [hp]) rfl rfl (.inl ⟨rfl, rfl, w, hp⟩) (.inr ⟨p, w, hp, hd⟩)
  · exact inpaintBusError_effect hr
  · exact .keeps rfl rfl

theorem engineStep_effect {st t : State} (h : engineStep st = .next t) : EngineEffect st t := by
  obtain ⟨-, rfl⟩ | ⟨w, k, hp, -, ht⟩ | ⟨w, i, hp, hd, rfl⟩ | ⟨w, i, hp, -, -, rfl⟩ | ⟨w, p, hp, hd, -, rfl⟩ |
    ⟨w, p, cv, hp, hd, -, rfl⟩ := engineStep_cases h
  · exact .keeps rfl rfl
  · exact endWithError_effect (by simp [hp]) (by decide) ht
  · exact validateStep_effect hp hd
  · exact runStep_effect hp _
  · exact scatterStep_effect ⟨w, hp, hd⟩
  · exact fillStep_effect ⟨w, hp, hd⟩ cv

/-! ### A step of the machine -/

/-- Everything that a step of the machine can be: the engine's turn, the reset input, a write to a register, or a step that
touches no register (a read, an access of memory, a rejected or unmapped write). -/
inductive StepEffect (st t : State) : Prop
  | engine (es : List Event) (h : engineStep (st.setInputs es) = .next t)
  | reset (rest : List Event) (hin : st.inputs = .rst :: rest) (ht : t = (st.setInputs rest).resetStep)
  | write (n : RegName) (v : Word) (rest : List Event) (hin : st.inputs = .sw (offsetOf n) 4 v :: rest)
      (ht : t = ((st.setInputs rest).writeReg n v).setAnswer .writeOk)
  | quiet (hr : t.regs = st.regs) (hp : t.phase = st.phase) (hw : t.work = st.work)
      (hm : Memory.wf st.mem = true → Memory.wf t.mem = true)

theorem portWrite_effect {st t : State} {off : BitVec 8} {size : Nat} {v : Word} {rest : List Event}
    (hin : st.inputs = .sw off size v :: rest) (ht : t = (st.setInputs rest).portWrite off size v) : StepEffect st t := by
  obtain ⟨-, h⟩ | ⟨-, -, h⟩ | ⟨n, ⟨rfl, h4⟩, hn, h⟩ := portWrite_cases (st.setInputs rest) off size v
  · rw [ht, h]; exact .quiet rfl rfl rfl id
  · rw [ht, h]; exact .quiet rfl rfl rfl id
  · rw [(regAt_eq_some h4).1 hn] at hin
    exact .write n v rest hin (ht.trans h)

theorem hostReadOf_effect (st : State) (es : List Event) (as : List Nat) (v : Word) :
    StepEffect st ((st.setInputs es).hostReadOf as v) := by
  unfold State.hostReadOf
  split <;> exact .quiet rfl rfl rfl id

theorem waitStep_effect (st : State) (rest : List Event) : StepEffect st (st.waitStep rest) := by
  unfold State.waitStep
  simp only
  split <;> exact .quiet rfl rfl rfl id

theorem step_effect {st t : State} (h : step st = .next t) : StepEffect st t := by
  obtain ⟨hin, h⟩ | ⟨rest, -, h⟩ | ⟨rest, hin, ht⟩ | ⟨off, n, v, rest, hin, ht⟩ | ⟨off, n, rest, -, rfl⟩ |
    ⟨n, v, rest, -, rfl⟩ | ⟨n, rest, -, rfl⟩ | ⟨a, b, rest, -, rfl⟩ | ⟨a, rest, -, rfl⟩ | ⟨rest, -, rfl⟩ |
    ⟨d, rest, -, rfl⟩ := step_cases h
  · refine .engine [] ?_
    rw [← hin]
    exact h
  · exact .engine rest h
  · exact .reset rest hin ht
  · exact portWrite_effect hin ht
  · obtain ⟨a, h⟩ := portRead_answer (st.setInputs rest) off n
    rw [h]
    exact .quiet rfl rfl rfl id
  · exact .quiet rfl rfl rfl fun hm => wf_writeWord hm (by have := n.isLt; omega) v
  · exact hostReadOf_effect ..
  · exact .quiet rfl rfl rfl fun hm => wf_write hm a.isLt b
  · exact hostReadOf_effect ..
  · exact waitStep_effect st rest
  · exact .quiet rfl rfl rfl id

end Sys2Proof.Machine
end

section
/-! The invariant of the machine: it holds at reset, and every step keeps it. -/

namespace Sys2Proof.Machine

/-- Settles O49: at reset the phase is IDLE, memory lists nothing and there is no working state. -/
theorem invAtReset : Obligations.InvAtReset := inv_of_idle rfl rfl rfl

/-- The invariant passes to a state that differs in memory, in the event and enable bits and in the model's own fields. -/
theorem inv_of_same {st t : State} {s e : BitVec 3} (h : st.Inv) (hm : Memory.wf t.mem = true)
    (hr : t.regs = { st.regs with irqStatus := s, irqEnable := e }) (hp : t.phase = st.phase) (hw : t.work = st.work) :
    t.Inv :=
  inv_congr h hm hp hw (by rw [hr]) (fun j => by rw [hr]; fin_cases j <;> rfl) (by rw [hr]) (by rw [hr]) (by rw [hr])
    (by rw [hr])

theorem inv_setInputs {st : State} (h : st.Inv) (es : List Event) : (st.setInputs es).Inv := inv_of_same h h.memory rfl rfl rfl

/-! ### The engine's step -/

theorem inv_endWithError {st : State} (hm : Memory.wf st.mem = true) (e : ErrCode) : (st.endWithError e).Inv :=
  inv_of_idle hm rfl rfl

theorem inv_validateStep {st : State} {w : Word} {i : Instr} (h : st.Inv) (hp : st.phase = .pending w)
    (hd : decode w = .ok i) : (validateStep i w st).Inv := by
  by_cases hv : validate i st.regs = .ok
  · obtain ⟨hc, he, -, -, hf, hb⟩ := writeBack_cmd i st.regs
    obtain ⟨hc', he', hf', hb'⟩ := h.inFlight w (by rw [hp]; rfl)
    rw [validateStep_ok w hv]
    exact {
      memory := h.memory
      discarded := fun hn => absurd rfl (hn w)
      inFlight := by rintro _ ⟨⟩; exact ⟨hc.trans hc', he.trans he', hf.trans hf', hb.trans hb'⟩
      validated := by rintro _ ⟨⟩; exact ⟨i, hd, validated_writeBack hv⟩
      canvas := by rintro _ ⟨⟩ }
  · rw [validateStep_error w hv]
    exact inv_endWithError h.memory _

theorem inv_runStep {st : State} {job : Job} (h : st.Inv) (hs : ∀ e ∈ job.writes, e.1 + 4 ≤ 2 ^ 32) :
    (runStep job st).Inv := by
  rcases runStep_cases job st with ⟨-, ht⟩ | ⟨-, ht⟩ | ⟨-, ht⟩ <;> rw [ht]
  · exact inv_of_idle (wf_memDone h.memory hs) rfl rfl
  · exact inv_endWithError (wf_memMixed h.memory _) _
  · exact h

theorem inv_inpaintBusError {st : State} (h : st.Inv) (p : BitVec 4) : (st.inpaintBusError p).Inv :=
  inv_of_idle (wf_memMixed h.memory _) rfl rfl

/-- The canvas that the first run step stores has the size of the output and the mask of phase 1 (R136, R137). -/
theorem inv_setCanvas {st : State} {p : BitVec 4} (h : st.Inv) (hr : st.Running (.reconInpaint p)) :
    (st.setWork { st.work with canvas := some (scatter p st.regs st.mem) }).Inv where
  memory := h.memory
  discarded hn := by
    obtain ⟨w, hp, -⟩ := hr
    exact absurd hp (hn w)
  inFlight := h.inFlight
  validated := h.validated
  canvas := by
    rintro _ ⟨⟩
    exact ⟨p, hr, length_scatter p st.regs st.mem, fun _ _ hx hy => scatter_mask hx hy⟩

theorem inv_scatterStep {st : State} {p : BitVec 4} (h : st.Inv) (hr : st.Running (.reconInpaint p)) :
    (scatterStep p st).Inv := by
  rcases scatterStep_cases p st with ⟨-, ht⟩ | ⟨-, ht⟩ | ⟨-, ht⟩ <;> rw [ht]
  · exact inv_setCanvas h hr
  · exact inv_inpaintBusError h p
  · exact h

theorem inv_fillStep {st : State} {p : BitVec 4} {cv : Canvas} (h : st.Inv)
    (hs : ∀ e ∈ inpaintWrites p st.regs cv, e.1 + 4 ≤ 2 ^ 32) : (fillStep p cv st).Inv := by
  rcases fillStep_cases p cv st with ⟨-, ht⟩ | ⟨-, ht⟩ | ⟨-, ht⟩ <;> rw [ht]
  · exact inv_of_idle (wf_memDone h.memory hs) rfl rfl
  · exact inv_inpaintBusError h p
  · exact h

/-- In a running state of the invariant the output words of the command in flight lie inside the space. -/
theorem job_space {st : State} {w : Word} {i : Instr} (h : st.Inv) (hp : st.phase = .running w) (hd : decode w = .ok i) :
    ∀ e ∈ (jobOf i st).writes, e.1 + 4 ≤ 2 ^ 32 := by
  obtain ⟨i', hd', hv, -⟩ := h.validated w hp
  obtain rfl : i = i' := Except.ok.inj (hd.symm.trans hd')
  exact (jobOf_fits hv).space

theorem inv_engineStep {st t : State} (h : st.Inv) (ht : engineStep st = .next t) : t.Inv := by
  obtain ⟨-, rfl⟩ | ⟨w, k, -, -, rfl⟩ | ⟨w, i, hp, hd, rfl⟩ | ⟨w, i, hp, hd, -, rfl⟩ | ⟨w, p, hp, hd, -, rfl⟩ |
    ⟨w, p, cv, hp, hd, hc, rfl⟩ := engineStep_cases ht
  · exact h
  · exact inv_endWithError h.memory _
  · exact inv_validateStep h hp hd
  · exact inv_runStep h (job_space h hp hd)
  · exact inv_scatterStep h ⟨w, hp, hd⟩
  · have hcv : st.canvas p = cv := by simp [State.canvas, hc]
    exact inv_fillStep h (hcv ▸ job_space h hp hd)

/-! ### The host's steps -/

theorem inv_resetStep {st : State} (hm : Memory.wf st.mem = true) : st.resetStep.Inv :=
  inv_of_idle (wf_memAfterReset hm) rfl rfl

theorem inv_launch {st : State} (hm : Memory.wf st.mem = true) (w : Word) : (st.launch w).Inv where
  memory := hm
  discarded _ := rfl
  inFlight := by rintro _ ⟨⟩; exact ⟨rfl, rfl, rfl, rfl⟩
  validated := by rintro _ ⟨⟩
  canvas := by rintro _ ⟨⟩

theorem inv_writeReg {st : State} (h : st.Inv) (n : RegName) (v : Word) : (st.writeReg n v).Inv := by
  rcases writeReg_effect st n v with ht | ⟨-, -, ht⟩ | ⟨-, -, ht⟩ | ⟨-, -, ht⟩ | ⟨-, ht⟩ | ⟨-, ht⟩ | ⟨d, f, -, hi, ht⟩ <;>
    rw [ht]
  case ignored => exact h
  case reset => exact inv_resetStep h.memory
  case launch => exact inv_launch h.memory v
  case guarded => exact inv_of_same h h.memory rfl rfl rfl
  case clear => exact inv_of_same h h.memory rfl rfl rfl
  case enable => exact inv_of_same h h.memory rfl rfl rfl
  case desc => exact inv_of_idle h.memory hi (h.discarded (by simp [hi]))

/-- Settles O50, by the kinds of step; the step of the engine by the command's phase, the register write by its register. -/
theorem stepKeepsInv : Obligations.StepKeepsInv := by
  intro st t h ht
  rcases step_effect ht with ⟨es, he⟩ | ⟨rest, -, rfl⟩ | ⟨n, v, rest, -, rfl⟩ | ⟨hr, hp, hw, hm⟩
  case engine => exact inv_engineStep (inv_setInputs h es) he
  case reset => exact inv_resetStep h.memory
  case write =>
    have hw := inv_writeReg (inv_setInputs h rest) n v
    exact inv_of_same hw hw.memory rfl rfl rfl
  case quiet => exact inv_of_same h (hm h.memory) hr hp hw

end Sys2Proof.Machine
end

section
/-! What changes the registers, over every step: the launch, the event bits, and what the engine may write (R21, R31, R38). -/

namespace Sys2Proof.Machine

/-! ### The launch -/

theorem eq_of_engineStep_idle {st t : State} (h : engineStep st = .next t) (hi : st.phase = .idle) : t = st := by
  rw [engineStep_idle hi] at h
  injection h with h
  exact h.symm

/-- Only CMD, written in IDLE, makes the engine busy. -/
theorem cmd_of_writeReg_busy {st : State} {n : RegName} {v : Word} (hi : st.phase = .idle)
    (hb : (st.writeReg n v).phase ≠ .idle) : n = .cmd := by
  rcases writeReg_effect st n v with ht | ⟨-, -, ht⟩ | ⟨hn, -, -⟩ | ⟨-, hb', -⟩ | ⟨-, ht⟩ | ⟨-, ht⟩ | ⟨d, f, -, -, ht⟩
  case launch => exact hn
  case guarded => exact absurd hi hb'
  case reset => exact absurd (by rw [ht]; rfl) hb
  all_goals exact absurd (by rw [ht]; exact hi) hb

/-- Settles O7: of the steps from IDLE only a register write can change the phase, and only one to CMD makes it busy. -/
theorem onlyACmdWriteStartsACommand : Obligations.OnlyACmdWriteStartsACommand := by
  refine ⟨fun st hi => ⟨fun hin => ?_, fun rest hin => ?_⟩, fun st t ht hi hb => ?_⟩
  · rw [step_nil hin, engineStep_idle hi]
  · rw [step_engine hin, engineStep_idle (by exact hi)]
    rfl
  · rcases step_effect ht with ⟨es, he⟩ | ⟨rest, -, rfl⟩ | ⟨n, v, rest, hin, rfl⟩ | ⟨-, hp, -, -⟩
    case engine => exact absurd (by rw [eq_of_engineStep_idle he hi]; exact hi) hb
    case reset => exact absurd rfl hb
    case write =>
      obtain rfl : n = .cmd := cmd_of_writeReg_busy (by exact hi) hb
      exact ⟨v, rest, hin, by rw [writeReg_cmd_idle (by exact hi)]; rfl⟩
    case quiet => exact absurd (hp.trans hi) hb

/-! ### The event bits -/

/-- Event bit `k` of IRQ_STATUS is set (R31). -/
abbrev Regs.HasEvent (r : Regs) (k : Nat) : Prop := r.irqStatus.getLsbD k = true

theorem getLsbD_irqDone {k : Nat} : irqDone.getLsbD k = true ↔ k = 0 := by
  rcases k with _ | _ | _ | k <;> simp [irqDone]

theorem getLsbD_irqError {k : Nat} : irqError.getLsbD k = true ↔ k = 1 := by
  rcases k with _ | _ | _ | k <;> simp [irqError]

theorem getLsbD_irqWBusy {k : Nat} : irqWBusy.getLsbD k = true ↔ k = 2 := by
  rcases k with _ | _ | _ | k <;> simp [irqWBusy]

theorem event_ended {r : Regs} {event : BitVec 3} {e : ErrCode} {f b : Word} {k : Nat} :
    (r.ended event e f b).HasEvent k ↔ r.HasEvent k ∨ event.getLsbD k = true := by
  simp [Regs.HasEvent, Regs.ended]

theorem event_ignoreWhileBusy {st : State} {k : Nat} : st.ignoreWhileBusy.regs.HasEvent k ↔ st.regs.HasEvent k ∨ k = 2 := by
  simp [Regs.HasEvent, getLsbD_irqWBusy]

theorem event_acknowledge {st : State} {v : Word} {k : Nat} (hk : k < 3) :
    (st.acknowledge v).regs.HasEvent k ↔ st.regs.HasEvent k ∧ v.getLsbD k = false := by
  simp [Regs.HasEvent, hk]

theorem writeBack_event {i : Instr} {r : Regs} {k : Nat} : (writeBack i r).HasEvent k ↔ r.HasEvent k := by
  obtain ⟨-, -, hs, -⟩ := writeBack_cmd i r
  rw [Regs.HasEvent, hs]

/-- The engine clears no event bit (R38). -/
theorem EngineEffect.event_mono {st t : State} (h : EngineEffect st t) {k : Nat} (hk : st.regs.HasEvent k) : t.regs.HasEvent k := by
  rcases h with ⟨hr, -⟩ | ⟨w, i, -, -, -, hr⟩ | ⟨ev, e, f, b, -, -, hr, -, -⟩ <;> rw [hr]
  case keeps => exact hk
  case validated => exact writeBack_event.2 hk
  case ended => exact event_ended.2 (.inl hk)

/-- The engine sets DONE by a completion and ERROR by the end of a command with an error. -/
theorem EngineEffect.event_set {st t : State} (h : EngineEffect st t) {k : Nat} (hk : ¬ st.regs.HasEvent k)
    (hk' : t.regs.HasEvent k) :
    (k = 0 ∧ (∃ w, st.phase = .running w) ∧ t.phase = .idle ∧ t.regs.err = .ok) ∨
    (k = 1 ∧ st.phase ≠ .idle ∧ t.phase = .idle ∧ t.regs.err ≠ .ok) := by
  rcases h with ⟨hr, -⟩ | ⟨w, i, -, -, -, hr⟩ | ⟨ev, e, f, b, hp, hp', hr, hev, -⟩ <;> rw [hr] at hk' ⊢
  case keeps => exact absurd hk' hk
  case validated => exact absurd (writeBack_event.1 hk') hk
  case ended =>
    have hbit := (event_ended.1 hk').resolve_left hk
    rcases hev with ⟨rfl, he, hrun⟩ | ⟨rfl, he⟩
    · exact .inl ⟨getLsbD_irqDone.1 hbit, hrun, hp', he⟩
    · exact .inr ⟨getLsbD_irqError.1 hbit, hp, hp', he⟩

/-- A register write clears an event bit as a soft reset, or as a write of 1 to it. -/
theorem writeReg_event_clear {st : State} {n : RegName} {v : Word} {k : Nat} (h3 : k < 3) (hk : st.regs.HasEvent k)
    (hk' : ¬ (st.writeReg n v).regs.HasEvent k) :
    (n = .ctrl ∧ v.getLsbD 0 = true) ∨ (n = .irqStatus ∧ v.getLsbD k = true) := by
  rcases writeReg_effect st n v with ht | ⟨hn, hv, -⟩ | ⟨-, -, ht⟩ | ⟨-, -, ht⟩ | ⟨hn, ht⟩ | ⟨-, ht⟩ | ⟨d, f, -, -, ht⟩
  case reset => exact .inl ⟨hn, hv⟩
  case clear =>
    rw [ht, event_acknowledge h3] at hk'
    exact .inr ⟨hn, by simpa using fun hv => hk' ⟨hk, hv⟩⟩
  case guarded => exact absurd (by rw [ht]; exact event_ignoreWhileBusy.2 (.inl hk)) hk'
  case desc => exact absurd (by simpa [ht, Regs.HasEvent] using hk) hk'
  all_goals exact absurd (by rw [ht]; exact hk) hk'

/-- A register write sets no event bit but WBUSY, by an ignored write while busy (R37). -/
theorem writeReg_event_set {st : State} {n : RegName} {v : Word} {k : Nat} (hk : ¬ st.regs.HasEvent k)
    (hk' : (st.writeReg n v).regs.HasEvent k) :
    k = 2 ∧ n.Guarded ∧ st.phase ≠ .idle ∧ (st.writeReg n v).phase = st.phase := by
  rcases writeReg_effect st n v with ht | ⟨-, -, ht⟩ | ⟨-, -, ht⟩ | ⟨hn, hb, ht⟩ | ⟨hn, ht⟩ | ⟨-, ht⟩ | ⟨d, f, -, -, ht⟩ <;>
    rw [ht] at hk' ⊢
  case guarded => exact ⟨(event_ignoreWhileBusy.1 hk').resolve_left hk, hn, hb, rfl⟩
  case reset => simp [Regs.HasEvent, Regs.reset] at hk'
  case clear => exact absurd (by simp [Regs.HasEvent] at hk' ⊢; exact hk'.1) hk
  case desc => exact absurd (by simpa [Regs.HasEvent] using hk') hk
  all_goals exact absurd hk' hk

theorem offsetOf_aligned (n : RegName) : (offsetOf n).toNat % 4 = 0 := by
  cases n with
  | desc d f =>
    cases d with
    | s => cases f <;> rfl
    | q i => cases f <;> fin_cases i <;> rfl
  | _ => rfl

/-- A guarded register is at one of the offsets that R37 lists. -/
theorem offsetOf_guarded {n : RegName} (h : n.Guarded) :
    offsetOf n = 0x008 ∨ (0x020 ≤ (offsetOf n).toNat ∧ (offsetOf n).toNat ≤ 0x06F) := by
  refine (regAt_guarded (offsetOf_aligned n)).1 ?_
  rw [regAt_offsetOf]
  rcases h with rfl | ⟨d, f, rfl⟩
  · exact .inl rfl
  · exact .inr ⟨d, f, rfl⟩

/-- Settles O16, by the kinds of step: the engine only sets bits, a register write clears by CTRL or IRQ_STATUS. -/
theorem irqStatusBitsAreSticky : Obligations.IrqStatusBitsAreSticky := by
  intro st t ht k h3
  rcases step_effect ht with ⟨es, he⟩ | ⟨rest, hin, rfl⟩ | ⟨n, v, rest, hin, rfl⟩ | ⟨hr, -, -, -⟩
  case engine =>
    have heff := engineStep_effect he
    refine ⟨fun hk hk' => absurd (heff.event_mono hk) (ne_true_of_eq_false hk'), fun hk hk' => ?_⟩
    rcases heff.event_set (ne_true_of_eq_false hk) hk' with h | h
    · exact .inl h
    · exact .inr (.inl h)
  case reset => exact ⟨fun _ _ => .inl ⟨rest, hin⟩, fun _ hk' => by simp [Regs.reset] at hk'⟩
  case write =>
    refine ⟨fun hk hk' => .inr ?_, fun hk hk' => .inr (.inr ?_)⟩
    · rcases writeReg_event_clear (st := st.setInputs rest) h3 hk (ne_true_of_eq_false hk') with ⟨rfl, hv⟩ | ⟨rfl, hv⟩
      · exact .inl ⟨v, rest, hin, hv⟩
      · exact .inr ⟨v, rest, hin, hv⟩
    · obtain ⟨h2, hn, hb, hp⟩ := writeReg_event_set (st := st.setInputs rest) (ne_true_of_eq_false hk) hk'
      exact ⟨h2, hb, hp, offsetOf n, v, rest, hin, offsetOf_guarded hn⟩
  case quiet =>
    rw [hr]
    exact ⟨fun hk hk' => absurd hk (ne_true_of_eq_false hk'), fun hk hk' => absurd hk' (ne_true_of_eq_false hk)⟩

/-! ### What the engine may write -/

theorem ended_desc (r : Regs) (event : BitVec 3) (e : ErrCode) (f b : Word) (d : DescName) :
    (r.ended event e f b).desc d = r.desc d := by
  cases d with
  | s => rfl
  | q i => fin_cases i <;> rfl

theorem writeBack_q {i : Instr} (hi : i ≠ .split) (r : Regs) (j : Quad) : (writeBack i r).q j = r.q j := by
  cases i with
  | split => exact absurd rfl hi
  | reconExact p | reconHeur p | reconInpaint p => exact writeBackRecon_q p r j

/-- The write-back changes dimensions only (R38, R173). -/
theorem writeBack_base_stride (i : Instr) (r : Regs) (d : DescName) :
    ((writeBack i r).desc d).base = (r.desc d).base ∧ ((writeBack i r).desc d).stride = (r.desc d).stride := by
  cases d with
  | s => cases i <;> exact ⟨rfl, rfl⟩
  | q j =>
    by_cases hi : i = .split
    · simp [hi, Regs.desc, writeBack, writeBackSplit_q]
    · simp [Regs.desc, writeBack_q hi]

/-- The registers and fields that no engine step writes (R38). -/
theorem EngineEffect.fixed {st t : State} (h : EngineEffect st t) :
    t.regs.cmd = st.regs.cmd ∧ t.regs.irqEnable = st.regs.irqEnable ∧
      ∀ d, (t.regs.desc d).base = (st.regs.desc d).base ∧ (t.regs.desc d).stride = (st.regs.desc d).stride := by
  rcases h with ⟨hr, -⟩ | ⟨w, i, -, -, -, hr⟩ | ⟨ev, e, f, b, -, -, hr, -, -⟩ <;> rw [hr]
  case keeps => exact ⟨rfl, rfl, fun _ => ⟨rfl, rfl⟩⟩
  case validated =>
    obtain ⟨hc, -, -, hn, -, -⟩ := writeBack_cmd i st.regs
    exact ⟨hc, hn, writeBack_base_stride i st.regs⟩
  case ended => exact ⟨rfl, rfl, fun d => by simp [ended_desc]⟩

theorem EngineEffect.wbusy {st t : State} (h : EngineEffect st t) : t.regs.HasEvent 2 ↔ st.regs.HasEvent 2 := by
  refine ⟨fun ht => by_contra fun hs => ?_, h.event_mono⟩
  rcases h.event_set hs ht with ⟨h0, -⟩ | ⟨h1, -⟩ <;> omega

theorem EngineEffect.desc_changed {st t : State} (h : EngineEffect st t) (hd : ∃ d, t.regs.desc d ≠ st.regs.desc d) :
    ∃ w, st.phase = .pending w ∧ t.phase = .running w ∧ (decode w = .ok .split → t.regs.s = st.regs.s) ∧
      (decode w ≠ .ok .split → ∀ i, t.regs.q i = st.regs.q i) := by
  obtain ⟨d, hd⟩ := hd
  rcases h with ⟨hr, -⟩ | ⟨w, i, hp, hi, hp', hr⟩ | ⟨ev, e, f, b, -, -, hr, -, -⟩ <;> rw [hr] at hd
  case keeps => exact absurd rfl hd
  case validated =>
    refine ⟨w, hp, hp', fun hs => ?_, fun hs j => ?_⟩ <;> rw [hr]
    · obtain rfl : i = .split := Except.ok.inj (hi.symm.trans hs)
      rfl
    · exact writeBack_q (fun h => hs (h ▸ hi)) st.regs j
  case ended => exact absurd (ended_desc ..) hd

theorem EngineEffect.counts_changed {st t : State} (h : EngineEffect st t)
    (hc : t.regs.fillCount ≠ st.regs.fillCount ∨ t.regs.blackCount ≠ st.regs.blackCount) :
    ∃ p, st.Running (.reconInpaint p) ∧ t.phase = .idle := by
  rcases h with ⟨hr, -⟩ | ⟨w, i, -, -, -, hr⟩ | ⟨ev, e, f, b, -, hp', hr, -, hkeep | ⟨p, hrun⟩⟩ <;> rw [hr] at hc
  case keeps => simp at hc
  case validated =>
    obtain ⟨-, -, -, -, hf, hb⟩ := writeBack_cmd i st.regs
    simp [hf, hb] at hc
  case ended.inl => simp [Regs.ended, hkeep] at hc
  case ended.inr => exact ⟨p, hrun, hp'⟩

theorem EngineEffect.err_changed {st t : State} (h : EngineEffect st t) (he : t.regs.err ≠ st.regs.err) :
    st.phase ≠ .idle ∧ t.phase = .idle := by
  rcases h with ⟨hr, -⟩ | ⟨w, i, -, -, -, hr⟩ | ⟨ev, e, f, b, hp, hp', -, -, -⟩
  case keeps => exact absurd (by rw [hr]) he
  case validated => exact absurd (by rw [hr]; exact (writeBack_cmd i st.regs).2.1) he
  case ended => exact ⟨hp, hp'⟩

/-- Settles O44, from what an engine step can do to the registers. -/
theorem engineWritesOnlyTheseRegisters : Obligations.EngineWritesOnlyTheseRegisters := by
  intro st t ht
  have h := engineStep_effect ht
  obtain ⟨hcmd, hen, hdesc⟩ := h.fixed
  exact ⟨hcmd, hen, rfl, hdesc, fun _ _ hk => h.event_mono hk, Bool.eq_iff_iff.2 h.wbusy, h.desc_changed, h.counts_changed,
    h.err_changed⟩

end Sys2Proof.Machine
end

section
/-! The register port: which offsets take a write, what each register reads, reserved bits (R25 to R37). -/

namespace Sys2Proof.Machine

/-! ### A port transaction as a step -/

section
variable {st : State} {off : BitVec 8} {v : Word} {rest : List Event}

theorem step_sw_rejected {size : Nat} (hin : st.inputs = .sw off size v :: rest) (h : size ≠ 4 ∨ off.toNat % 4 ≠ 0) :
    step st = .next { st with inputs := rest, answer := some .err } := by
  rw [step_sw hin, State.portWrite, if_neg (by simp only [PortAccepts]; omega)]
  rfl

theorem step_lw_rejected {size : Nat} (hin : st.inputs = .lw off size :: rest) (h : size ≠ 4 ∨ off.toNat % 4 ≠ 0) :
    step st = .next { st with inputs := rest, answer := some .err } := by
  rw [step_lw hin, State.portRead, if_neg (by simp only [PortAccepts]; omega)]
  rfl

variable (h4 : off.toNat % 4 = 0)
include h4

theorem step_sw_mapped {n : RegName} (hin : st.inputs = .sw off 4 v :: rest) (hn : regAt off = some n) :
    step st = .next (((st.setInputs rest).writeReg n v).setAnswer .writeOk) := by
  rw [step_sw hin, State.portWrite, if_pos ⟨rfl, h4⟩, hn]

theorem step_sw_unmapped (hin : st.inputs = .sw off 4 v :: rest) (hn : regAt off = none) :
    step st = .next { st with inputs := rest, answer := some .writeOk } := by
  rw [step_sw hin, State.portWrite, if_pos ⟨rfl, h4⟩, hn]
  rfl

theorem portRead_mapped {n : RegName} (hn : regAt off = some n) : st.portRead off 4 = st.setAnswer (.readOk (st.readReg n)) := by
  rw [State.portRead, if_pos ⟨rfl, h4⟩, hn]

theorem portRead_unmapped (hn : regAt off = none) : st.portRead off 4 = st.setAnswer (.readOk 0) := by
  rw [State.portRead, if_pos ⟨rfl, h4⟩, hn]

/-- A read-only register, or no register at all, ignores a write (R25). -/
theorem step_sw_ignored (hin : st.inputs = .sw off 4 v :: rest)
    (h : off = 0x000 ∨ off = 0x00C ∨ off = 0x018 ∨ off = 0x01C ∨ 0x070 ≤ off.toNat) :
    step st = .next { st with inputs := rest, answer := some .writeOk } := by
  have readOnly : ∀ n : RegName, n.ReadOnly → regAt off = some n →
      step st = .next { st with inputs := rest, answer := some .writeOk } := fun n hro hn => by
    rw [step_sw_mapped h4 hin hn, writeReg_readOnly _ hro]
    rfl
  rcases h with rfl | rfl | rfl | rfl | h
  · exact readOnly .id (.inl rfl) rfl
  · exact readOnly .status (.inr (.inl rfl)) rfl
  · exact readOnly .fillCount (.inr (.inr (.inl rfl))) rfl
  · exact readOnly .blackCount (.inr (.inr (.inr rfl))) rfl
  · exact step_sw_unmapped h4 hin (regAt_eq_none.2 h)

/-- A write to CMD or a descriptor register while busy is ignored and sets WBUSY (R37). -/
theorem step_sw_guarded (hin : st.inputs = .sw off 4 v :: rest) (hb : st.phase ≠ .idle)
    (hg : off = 0x008 ∨ (0x020 ≤ off.toNat ∧ off.toNat ≤ 0x06F)) :
    step st = .next { st with
      inputs := rest, answer := some .writeOk, regs := { st.regs with irqStatus := st.regs.irqStatus ||| irqWBusy } } := by
  have guarded : ∃ n : RegName, n.Guarded ∧ regAt off = some n := by
    rcases (regAt_guarded h4).2 hg with hn | ⟨d, f, hn⟩
    · exact ⟨_, .inl rfl, hn⟩
    · exact ⟨_, .inr ⟨d, f, rfl⟩, hn⟩
  obtain ⟨n, hgn, hn⟩ := guarded
  rw [step_sw_mapped h4 hin hn, writeReg_guarded_busy (by exact hb) hgn]
  rfl

end

/-- Settles O9, clause by clause: the guarded registers, CTRL with and without its reset bit, IRQ_STATUS, IRQ_ENABLE and the
offsets that ignore writes. -/
theorem busyWritesAreIgnored : Obligations.BusyWritesAreIgnored := by
  intro st off v rest h4 hin
  refine ⟨fun hb hg => step_sw_guarded h4 hin (busy_iff.1 hb) hg, ?_, ?_, ?_, ?_, step_sw_ignored h4 hin⟩
  · rintro rfl hv
    refine ⟨_, step_sw_mapped h4 hin rfl, ?_⟩
    rw [writeReg_ctrl_reset _ hv]
    exact ⟨rfl, rfl⟩
  · rintro rfl hv
    rw [step_sw_mapped h4 hin rfl, writeReg_ctrl_ignored _ hv]
    rfl
  · rintro rfl
    exact step_sw_mapped h4 hin rfl
  · rintro rfl
    exact step_sw_mapped h4 hin rfl

/-! ### What the registers read -/

/-- The layout of STATUS (R30). -/
theorem statusWord_fields (busy : Bool) (e : ErrCode) :
    (statusWord busy e).getLsbD 0 = busy ∧ (statusWord busy e).extractLsb' 4 4 = e.code ∧
      statusWord busy e &&& 0xFFFFFF0E = 0 := by
  have layout : ∀ (b : Bool) (c : BitVec 4), (0#24 ++ c ++ 0#3 ++ BitVec.ofBool b).getLsbD 0 = b ∧
      (0#24 ++ c ++ 0#3 ++ BitVec.ofBool b).extractLsb' 4 4 = c ∧
      (0#24 ++ c ++ 0#3 ++ BitVec.ofBool b) &&& 0xFFFFFF0E#32 = 0 := by decide
  exact layout busy e.code

/-- Settles O13, from the layout of the word; while busy the invariant gives ERR. -/
theorem statusWordLayout : Obligations.StatusWordLayout := by
  intro st
  obtain ⟨hbusy, herr, hrest⟩ := statusWord_fields st.phase.busy st.regs.err
  refine ⟨by rw [State.readReg, hbusy, busy_iff], herr, hrest, fun hinv hp => ?_⟩
  obtain ⟨w, hw⟩ : ∃ w, st.phase.word? = some w := by
    cases h : st.phase with
    | idle => exact absurd h hp
    | pending w | running w => exact ⟨w, rfl⟩
  obtain ⟨-, he, -, -⟩ := hinv.inFlight w hw
  rw [State.readReg, busy_iff.2 hp, he]
  rfl

/-- The bits of a register that is narrower than a word: those above its width read 0 (R25). -/
theorem zeroExtend_and_mask {k : Nat} (x : BitVec k) (mask : Word) (h : ∀ i < k, mask.getLsbD i = false) :
    x.zeroExtend 32 &&& mask = 0 := by
  apply BitVec.eq_of_getLsbD_eq
  intro i hi
  by_cases hk : i < k
  · simp [h i hk]
  · simp [BitVec.getLsbD_of_ge x i (by omega)]

theorem readReg_reset (n : RegName) : State.reset.readReg n = if n = .id then 0x49503207 else 0 := by
  cases n with
  | desc d f =>
    cases d with
    | s => cases f <;> rfl
    | q i => cases f <;> fin_cases i <;> rfl
  | _ => rfl

theorem offsetOf_injective {n m : RegName} (h : offsetOf n = offsetOf m) : n = m := by
  have hr := congrArg regAt h
  rw [regAt_offsetOf, regAt_offsetOf] at hr
  exact Option.some.inj hr

/-- Settles O12: the offsets by evaluation, the reset values register by register. -/
theorem registerMapAndResetValues : Obligations.RegisterMapAndResetValues := by
  refine ⟨rfl, rfl, rfl, rfl, rfl, rfl, rfl, rfl, rfl, rfl, rfl, rfl, by decide, fun _ => regAt_eq_none.2, fun off h4 => ?_⟩
  cases hn : regAt off with
  | none =>
    have h0 : off ≠ 0 := by rintro rfl; cases hn
    rw [portRead_unmapped h4 hn, if_neg h0]
    rfl
  | some n =>
    rw [portRead_mapped h4 hn, readReg_reset, (regAt_eq_some h4).1 hn]
    have h0 : offsetOf n = 0 ↔ n = .id := ⟨fun h => offsetOf_injective (m := .id) h, fun h => by rw [h]; rfl⟩
    simp only [h0, setAnswer_answer]

/-- Bits [3:0] of a descriptor register's offset are those of its field (R33). -/
theorem offsetOf_desc_mod (d : DescName) (f : DescField) : (offsetOf (.desc d f)).toNat % 16 = fieldOffset f := by
  cases d with
  | s => cases f <;> rfl
  | q i => cases f <;> fin_cases i <;> rfl

/-- The registers WIDTH and HEIGHT by their offsets (R33). -/
theorem regAt_dimension {off : BitVec 8} (h4 : off.toNat % 4 = 0) (hlo : 0x020 ≤ off.toNat) (hhi : off.toNat ≤ 0x06F)
    (hf : off.toNat % 16 = 4 ∨ off.toNat % 16 = 8) :
    ∃ d f, (f = .width ∨ f = .height) ∧ regAt off = some (.desc d f) := by
  rcases (regAt_guarded h4).2 (.inr ⟨hlo, hhi⟩) with hn | ⟨d, f, hn⟩
  · rw [(regAt_eq_some h4).1 hn] at hlo
    exact absurd hlo (by decide)
  · rw [(regAt_eq_some h4).1 hn, offsetOf_desc_mod] at hf
    refine ⟨d, f, ?_, hn⟩
    cases f <;> simp [fieldOffset] at hf ⊢

/-- The reserved bits of WIDTH and HEIGHT read 0. -/
theorem readReg_dimension (st : State) (d : DescName) {f : DescField} (h : f = .width ∨ f = .height) :
    st.readReg (.desc d f) &&& 0xFFFF0000 = 0 := by
  rcases h with rfl | rfl
  · exact zeroExtend_and_mask (st.regs.desc d).width _ (by decide)
  · exact zeroExtend_and_mask (st.regs.desc d).height _ (by decide)

theorem readReg_irq (st : State) : st.readReg .irqStatus &&& 0xFFFFFFF8 = 0 ∧ st.readReg .irqEnable &&& 0xFFFFFFF8 = 0 :=
  ⟨zeroExtend_and_mask st.regs.irqStatus _ (by decide), zeroExtend_and_mask st.regs.irqEnable _ (by decide)⟩

/-! ### Reserved bits of a write -/

/-- Two words that agree under a mask of their low `k` bits have the same low `k` bits. -/
theorem extractLsb'_eq_of_and {v v' mask : Word} {k : Nat} (hm : mask.extractLsb' 0 k = BitVec.allOnes k)
    (h : v &&& mask = v' &&& mask) : v.extractLsb' 0 k = v'.extractLsb' 0 k := by
  have := congrArg (BitVec.extractLsb' 0 k) h
  simpa [BitVec.extractLsb'_and, hm] using this

theorem writeReg_reserved_irq (st : State) {n : RegName} (hn : n = .irqStatus ∨ n = .irqEnable) {v v' : Word}
    (h : v &&& 0x00000007 = v' &&& 0x00000007) : st.writeReg n v = st.writeReg n v' := by
  have hx := extractLsb'_eq_of_and (k := 3) (by decide) h
  rcases hn with rfl | rfl <;> simp [State.writeReg, State.acknowledge, Regs.clearIrq, hx]

theorem writeReg_reserved_ctrl (st : State) {v v' : Word} (h : v &&& 0x00000001 = v' &&& 0x00000001) :
    st.writeReg .ctrl v = st.writeReg .ctrl v' := by
  have hx := congrArg (·.getLsbD 0) (extractLsb'_eq_of_and (k := 1) (by decide) h)
  have h0 : v.getLsbD 0 = v'.getLsbD 0 := by simpa using hx
  simp only [State.writeReg, h0]

theorem writeReg_reserved_dimension (st : State) (d : DescName) {f : DescField} (hf : f = .width ∨ f = .height) {v v' : Word}
    (h : v &&& 0x0000FFFF = v' &&& 0x0000FFFF) : st.writeReg (.desc d f) v = st.writeReg (.desc d f) v' := by
  have hx := extractLsb'_eq_of_and (k := 16) (by decide) h
  rcases hf with rfl | rfl <;> simp only [State.writeReg, Desc.set, hx]

/-- Settles O10: a rejected access, a read by its register, an ignored write, and writes that differ in reserved bits. -/
theorem portAccessRules : Obligations.PortAccessRules := by
  intro st off size v rest
  refine ⟨step_sw_rejected, step_lw_rejected, ?_, ?_, ?_⟩
  · rintro hin rfl h4
    cases hn : regAt off with
    | none =>
      refine ⟨0, by rw [step_lw hin, portRead_unmapped h4 hn]; rfl, ?_⟩
      simp
    | some n =>
      refine ⟨st.readReg n, by rw [step_lw hin, portRead_mapped h4 hn]; rfl, ?_, ?_, ?_, ?_, ?_, ?_⟩
      · rintro _ ⟨⟩
        rfl
      · intro h
        rw [regAt_eq_none.2 h] at hn
        cases hn
      · rintro rfl
        cases hn
        rfl
      · rintro rfl
        cases hn
        exact (statusWord_fields _ _).2.2
      · rintro (rfl | rfl) <;> cases hn
        · exact (readReg_irq st).1
        · exact (readReg_irq st).2
      · intro hlo hf
        have hhi : off.toNat ≤ 0x06F := by
          by_contra hcon
          rw [regAt_eq_none.2 (by omega)] at hn
          cases hn
        obtain ⟨d, f, hdim, hn'⟩ := regAt_dimension h4 hlo hhi hf
        obtain rfl : n = .desc d f := Option.some.inj (hn.symm.trans hn')
        exact readReg_dimension st d hdim
  · rintro hin rfl h4
    exact step_sw_ignored h4 hin
  · rintro hin rfl h4 v' hv
    have same : ∀ n, regAt off = some n → (st.setInputs rest).writeReg n v = (st.setInputs rest).writeReg n v' →
        step st = step { st with inputs := .sw off 4 v' :: rest } := fun n hn hw => by
      rw [step_sw_mapped h4 hin hn, hw]
      exact (step_sw_mapped (st := { st with inputs := .sw off 4 v' :: rest }) h4 rfl hn).symm
    rcases hv with ⟨rfl, hv⟩ | ⟨rfl | rfl, hv⟩ | ⟨hlo, hhi, hf, hv⟩
    · exact same .ctrl rfl (writeReg_reserved_ctrl _ hv)
    · exact same .irqStatus rfl (writeReg_reserved_irq _ (.inl rfl) hv)
    · exact same .irqEnable rfl (writeReg_reserved_irq _ (.inr rfl) hv)
    · obtain ⟨d, f, hdim, hn⟩ := regAt_dimension h4 hlo hhi hf
      exact same _ hn (writeReg_reserved_dimension _ d hdim hv)

/-! ### A descriptor register -/

/-- A write to one register of a descriptor changes what that register reads and no other. -/
theorem readReg_setDesc_other (st : State) {d : DescName} {f : DescField} (v : Word) {n : RegName} (hn : n ≠ .desc d f) :
    (st.setRegs (st.regs.setDesc d ((st.regs.desc d).set f v))).readReg n = st.readReg n := by
  cases n with
  | desc d' f' =>
    by_cases hd : d' = d
    · have hf : f' ≠ f := by rintro rfl; exact hn (by rw [hd])
      simp [State.readReg, hd, get_set_other _ hf]
    · simp [State.readReg, desc_setDesc_other _ hd]
  | _ => simp [State.readReg]

/-- Settles O11: in IDLE the write is the descriptor update. -/
theorem descriptorWriteReadsBack : Obligations.DescriptorWriteReadsBack := by
  intro st off v rest d f hi h4 hn hin
  refine ⟨_, step_sw_mapped h4 hin hn, ?_⟩
  rw [writeReg_desc_idle (by exact hi)]
  refine ⟨?_, fun n hne => readReg_setDesc_other st v hne, rfl, rfl, hi, rfl, rfl, rfl, rfl, rfl⟩
  have hread := get_set_same (st.regs.desc d) f v
  simp only [State.readReg, setAnswer_regs, setRegs_regs, setInputs_regs, desc_setDesc_same]
  exact hread

/-! ### The interrupt output -/

/-- The low `k` bits of a word, read back as a word. -/
theorem zeroExtend_extractLsb' (v : Word) {mask : Word} {k : Nat} (hm : ∀ i < 32, mask.getLsbD i = decide (i < k)) :
    (v.extractLsb' 0 k).zeroExtend 32 = v &&& mask := by
  apply BitVec.eq_of_getLsbD_eq
  intro i hi
  rw [BitVec.getLsbD_and, hm i hi]
  by_cases hk : i < k <;> simp [hi, hk]

theorem irq_iff (r : Regs) :
    r.irq = true ↔ ∃ k < 3, r.irqStatus.getLsbD k = true ∧ r.irqEnable.getLsbD k = true := by
  rw [Regs.irq, bne_iff_ne]
  constructor
  · intro h
    by_contra hcon
    refine h (BitVec.eq_of_getLsbD_eq fun k hk => ?_)
    simpa using fun hs he => hcon ⟨k, hk, hs, he⟩
  · rintro ⟨k, -, hs, he⟩ h
    have hbit := congrArg (·.getLsbD k) h
    simp [hs, he] at hbit

/-- Settles O15: the level bit by bit, and the write of IRQ_ENABLE in any phase. -/
theorem irqLevelIsMaskedOr : Obligations.IrqLevelIsMaskedOr := by
  refine ⟨fun st => irq_iff st.regs, fun st v rest hin => ?_⟩
  refine ⟨_, step_sw_mapped (by decide) hin rfl, fun k hk => ?_, rfl, ?_⟩
  · simp [State.writeReg, hk]
  · exact zeroExtend_extractLsb' v (by decide)

/-! ### The engine's turn -/

theorem decode_encode (i : Instr) : decode (encode i) = .ok i := by
  cases i with
  | split => exact Laws.RoundTrip.split rfl
  | reconExact p => exact Laws.RoundTrip.reconExact p rfl
  | reconHeur p => exact Laws.RoundTrip.reconHeur p rfl
  | reconInpaint p => exact Laws.RoundTrip.reconInpaint p rfl

/-- Settles O6: the engine's turn in the launched state, whose word decodes back to its command. -/
theorem engineStepRunsTheDecodedCommand : Obligations.EngineStepRunsTheDecodedCommand := by
  refine ⟨fun st w i hw hd => ⟨fun hin => ?_, fun rest hin => ?_⟩, fun st i => ?_⟩
  · rw [step_nil hin, engineStep_legal hw hd]
  · rw [step_engine hin]
    exact engineStep_legal hw hd
  · have hword : BitVec.ofNat 32 ((encode i).toNat % 2 ^ 32) = encode i := by
      rw [Nat.mod_eq_of_lt (encode i).isLt, BitVec.ofNat_toNat, BitVec.setWidth_eq]
    rw [State.withFetchWord, hword, step_engine rfl]
    exact engineStep_legal rfl (decode_encode i)

end Sys2Proof.Machine
end

section
/-! Words and pixels in memory: their bytes, least significant first (R61, R62). -/

namespace Sys2Proof.Machine

/-- The number that two bit strings side by side stand for. -/
theorem toNat_append_add {m n : Nat} (x : BitVec m) (y : BitVec n) : (x ++ y).toNat = 2 ^ n * x.toNat + y.toNat := by
  rw [BitVec.toNat_append, ← Nat.shiftLeft_add_eq_or_of_lt y.isLt, Nat.shiftLeft_eq, Nat.mul_comm]

theorem toNat_readWord (m : Memory) (a : Nat) : (m.readWord a).toNat = (m.read a).toNat + 2 ^ 8 * (m.read (a + 1)).toNat +
    2 ^ 16 * (m.read (a + 2)).toNat + 2 ^ 24 * (m.read (a + 3)).toNat := by
  simp only [Memory.readWord, toNat_append_add]
  omega

/-- Settles O19, from the value of four bytes side by side and the bytes of a written word. -/
theorem littleEndianWords : Obligations.LittleEndianWords := by
  refine ⟨toNat_readWord, fun m a v hm ha => ⟨fun k hk => ?_, fun b hb => read_writeWord_other m hb v, wf_writeWord hm ha v⟩⟩
  obtain ⟨h0, h1, h2, h3⟩ := read_writeWord_byte hm ha v
  interval_cases k
  · exact h0
  · exact h1
  · exact h2
  · exact h3

/-- The bits of the word that stores a pixel (R62). -/
theorem wordOf_channels (p : Pixel) : (wordOf p).extractLsb' 24 8 = p.a ∧ (wordOf p).extractLsb' 16 8 = p.r ∧
    (wordOf p).extractLsb' 8 8 = p.g ∧ (wordOf p).extractLsb' 0 8 = p.b := by
  have h := pixelOf_wordOf p
  exact ⟨congrArg Pixel.a h, congrArg Pixel.r h, congrArg Pixel.g h, congrArg Pixel.b h⟩

/-- Settles O20: the channels are the bytes of the word, and the bytes of a written word stand from its address on. -/
theorem pixelWordLayout : Obligations.PixelWordLayout := by
  refine ⟨fun p => ?_, wordOf_pixelOf, fun m a p hm ha => ?_⟩ <;> obtain ⟨hpa, hpr, hpg, hpb⟩ := wordOf_channels p
  · exact ⟨hpa, hpr, hpg, hpb, pixelOf_wordOf p⟩
  · obtain ⟨h0, h1, h2, h3⟩ := read_writeWord_byte hm ha (wordOf p)
    exact ⟨h0.trans hpb, h1.trans hpg, h2.trans hpr, h3.trans hpa⟩

end Sys2Proof.Machine
end

section
/-! The engine's accesses: to which words they go (R64, R69, R188), and what a step of the engine leaves in memory. -/

namespace Sys2Proof.Machine

/-- A pixel word of a part of a validated command is aligned, inside the space and inside the span of the part, which is
legal. -/
theorem pixelWord_placed {i : Instr} {r : Regs} (hv : validate i r = .ok) {a : Nat} {out : Bool}
    (h : ∃ part ∈ parts i r, part.out = out ∧ ∃ x y, x < part.w ∧ y < part.h ∧ a = addr part.desc x y) :
    a % 4 = 0 ∧ a + 4 ≤ 2 ^ 32 ∧ ∃ part ∈ parts i r, part.Legal ∧ part.out = out ∧
      (∃ x y, x < part.w ∧ y < part.h ∧ a = addr part.desc x y) ∧ spanLo part.desc ≤ a ∧ a + 4 ≤ spanHi part.desc part.w part.h := by
  obtain ⟨part, hp, ho, x, y, hx, hy, rfl⟩ := h
  obtain ⟨hl, -, -⟩ := parts_legal hv part hp
  exact ⟨addr_aligned x y hl, addr_lt hl hx hy, part, hp, hl, ho, ⟨x, y, hx, hy, rfl⟩, addr_in_span hl hx hy⟩

/-- Settles O40: the memory work goes to pixel words of the parts, and those are aligned and in their spans. -/
theorem accessesAlignedAndInSpan : Obligations.AccessesAlignedAndInSpan := by
  intro i st hv
  have hj := jobOf_fits hv
  exact ⟨fun a ha => pixelWord_placed hv (hj.reads a ha), fun e he => pixelWord_placed hv (hj.writes e he)⟩

/-! ### Memory after a step of the engine -/

/-- What the run of a memory work with these output words leaves in memory: nothing written, all of them, or a part. -/
abbrev State.RanTo (st : State) (writes : List (Nat × Word)) (m : Memory) : Prop :=
  m = st.mem ∨ m = st.memDone writes ∨ m = st.memMixed writes

theorem runStep_mem (job : Job) (st : State) : st.RanTo job.writes (runStep job st).mem := by
  rcases runStep_cases job st with ⟨-, h⟩ | ⟨-, h⟩ | ⟨-, h⟩ <;> rw [h]
  · exact .inr (.inl rfl)
  · exact .inr (.inr rfl)
  · exact .inl rfl

theorem scatterStep_mem (p : BitVec 4) (st : State) : st.RanTo (inpaintJob p st).writes (scatterStep p st).mem := by
  rcases scatterStep_cases p st with ⟨-, h⟩ | ⟨-, h⟩ | ⟨-, h⟩ <;> rw [h]
  · exact .inl rfl
  · exact .inr (.inr rfl)
  · exact .inl rfl

theorem fillStep_mem {p : BitVec 4} {cv : Canvas} {st : State} (hc : st.work.canvas = some cv) :
    st.RanTo (inpaintJob p st).writes (fillStep p cv st).mem := by
  have hcv : st.canvas p = cv := by simp [State.canvas, hc]
  rcases fillStep_cases p cv st with ⟨-, h⟩ | ⟨-, h⟩ | ⟨-, h⟩ <;> rw [h]
  · exact .inr (.inl (by rw [inpaintJob, hcv]; rfl))
  · exact .inr (.inr rfl)
  · exact .inl rfl

/-- A step of the engine changes memory only by the run of the command in flight. -/
theorem engineStep_mem {st t : State} (h : engineStep st = .next t) :
    t.mem = st.mem ∨
      ∃ w i, st.phase = .running w ∧ decode w = .ok i ∧ st.RanTo (jobOf i st).writes t.mem := by
  obtain ⟨-, rfl⟩ | ⟨w, k, -, -, rfl⟩ | ⟨w, i, -, -, rfl⟩ | ⟨w, i, hp, hd, -, rfl⟩ | ⟨w, p, hp, hd, -, rfl⟩ |
    ⟨w, p, cv, hp, hd, hc, rfl⟩ := engineStep_cases h
  · exact .inl rfl
  · exact .inl rfl
  · left
    by_cases hv : validate i st.regs = .ok
    · rw [validateStep_ok w hv]
    · rw [validateStep_error w hv, endWithError_mem]
  · exact .inr ⟨w, i, hp, hd, runStep_mem _ st⟩
  · exact .inr ⟨w, _, hp, hd, scatterStep_mem p st⟩
  · exact .inr ⟨w, _, hp, hd, fillStep_mem hc⟩

/-- Whatever a run leaves in memory, the bytes outside its output words are unchanged (R176). -/
theorem State.RanTo.read_other {st : State} {writes : List (Nat × Word)} {m : Memory} (h : st.RanTo writes m) {a : Nat}
    (ha : ∀ e ∈ writes, a < e.1 ∨ e.1 + 4 ≤ a) : m.read a = st.mem.read a := by
  rcases h with rfl | rfl | rfl
  · rfl
  · exact memDone_other ha
  · exact memMixed_other ha

/-- Settles O41: the run writes words of the memory work, which in a state of the invariant are output pixel words. -/
theorem engineStoresOnlyOutputPixels : Obligations.EngineStoresOnlyOutputPixels := by
  intro st t i hinv ht
  rcases engineStep_mem ht with hm | ⟨w, j, hp, hd, hm⟩
  · exact ⟨fun _ a _ => by rw [hm], fun _ => hm⟩
  · refine ⟨?_, fun hn => absurd hp (hn w)⟩
    rintro ⟨w', hp', hd'⟩ a ha
    obtain rfl : w = w' := Phase.running.inj (hp.symm.trans hp')
    obtain rfl : j = i := Except.ok.inj (hd.symm.trans hd')
    obtain ⟨k, hk, hv, -⟩ := hinv.validated w hp
    obtain rfl : j = k := Except.ok.inj (hd.symm.trans hk)
    exact hm.read_other (outside_of_not_inOutput (jobOf_fits hv) ha)

end Sys2Proof.Machine
end

section
/-! Host protocol violations: which steps set `host_fault`, and what memory keeps without one (R22, R73, R79). -/

namespace Sys2Proof.Machine

/-! ### `host_fault` through the engine's and the register port's operations -/

@[simp] theorem resetStep_hostFault (st : State) : st.resetStep.hostFault = st.hostFault := rfl
@[simp] theorem noteViolation_hostFault (st : State) (b : Bool) : (st.noteViolation b).hostFault = (st.hostFault || b) := rfl

theorem validateStep_hostFault (i : Instr) (w : Word) (st : State) : (validateStep i w st).hostFault = st.hostFault := by
  by_cases hv : validate i st.regs = .ok
  · rw [validateStep_ok w hv]
  · rw [validateStep_error w hv, endWithError_hostFault]

theorem runStep_hostFault (job : Job) (st : State) : (runStep job st).hostFault = st.hostFault := by
  rcases runStep_cases job st with ⟨-, h⟩ | ⟨-, h⟩ | ⟨-, h⟩ <;> rw [h] <;> rfl

theorem scatterStep_hostFault (p : BitVec 4) (st : State) : (scatterStep p st).hostFault = st.hostFault := by
  rcases scatterStep_cases p st with ⟨-, h⟩ | ⟨-, h⟩ | ⟨-, h⟩ <;> rw [h] <;> rfl

theorem fillStep_hostFault (p : BitVec 4) (cv : Canvas) (st : State) : (fillStep p cv st).hostFault = st.hostFault := by
  rcases fillStep_cases p cv st with ⟨-, h⟩ | ⟨-, h⟩ | ⟨-, h⟩ <;> rw [h] <;> rfl

theorem engineStep_hostFault {st t : State} (h : engineStep st = .next t) : t.hostFault = st.hostFault := by
  obtain ⟨-, rfl⟩ | ⟨w, k, -, -, rfl⟩ | ⟨w, i, -, -, rfl⟩ | ⟨w, i, -, -, -, rfl⟩ | ⟨w, p, -, -, -, rfl⟩ |
    ⟨w, p, cv, -, -, -, rfl⟩ := engineStep_cases h
  · rfl
  · rfl
  · exact validateStep_hostFault i w st
  · exact runStep_hostFault _ st
  · exact scatterStep_hostFault p st
  · exact fillStep_hostFault p cv st

theorem writeReg_hostFault (st : State) (n : RegName) (v : Word) : (st.writeReg n v).hostFault = st.hostFault := by
  rcases writeReg_effect st n v with ht | ⟨-, -, ht⟩ | ⟨-, -, ht⟩ | ⟨-, -, ht⟩ | ⟨-, ht⟩ | ⟨-, ht⟩ | ⟨d, f, -, -, ht⟩ <;>
    rw [ht] <;> rfl

theorem portWrite_hostFault (st : State) (off : BitVec 8) (size : Nat) (v : Word) :
    (st.portWrite off size v).hostFault = st.hostFault := by
  obtain ⟨-, h⟩ | ⟨-, -, h⟩ | ⟨n, -, -, h⟩ := portWrite_cases st off size v <;> rw [h]
  · rfl
  · rfl
  · exact writeReg_hostFault st n v

theorem portRead_hostFault (st : State) (off : BitVec 8) (size : Nat) : (st.portRead off size).hostFault = st.hostFault := by
  obtain ⟨a, h⟩ := portRead_answer st off size
  rw [h, setAnswer_hostFault]

theorem waitStep_hostFault (st : State) (rest : List Event) : (st.waitStep rest).hostFault = st.hostFault := by
  unfold State.waitStep
  simp only
  split <;> rfl

/-! ### `host_fault` through the memory accesses of other agents -/

theorem hostWrite_hostFault (st : State) (n : BitVec 30) (v : Word) :
    (st.hostWrite n v).hostFault = (st.hostFault || st.writeViolates (wordBytes (4 * n.toNat))) := rfl

theorem hostWriteByte_hostFault (st : State) (a : Word) (b : Byte) :
    (st.hostWriteByte a b).hostFault = (st.hostFault || st.writeViolates [a.toNat]) := rfl

theorem hostReadOf_hostFault (st : State) (as : List Nat) (v : Word) :
    (st.hostReadOf as v).hostFault = (st.hostFault || st.readViolates as) := by
  unfold State.hostReadOf
  cases st.readViolates as <;> simp

/-- Whether the step at the head of the script violates a duty of the host: a violating memory access (R79), or a breach
entry (log 10). -/
def State.violation (st : State) : Bool :=
  match st.inputs with
  | .mw n _ :: _ => st.writeViolates (wordBytes (4 * n.toNat))
  | .mwByte a _ :: _ => st.writeViolates [a.toNat]
  | .mr n :: _ => st.readViolates (wordBytes (4 * n.toNat))
  | .mrByte a :: _ => st.readViolates [a.toNat]
  | .breach _ :: _ => true
  | _ => false

/-- A step of the machine sets `host_fault` exactly when it is a violation, and never clears it (R22, R79). -/
theorem step_hostFault {st t : State} (h : step st = .next t) : t.hostFault = (st.hostFault || st.violation) := by
  obtain ⟨hin, h⟩ | ⟨rest, hin, h⟩ | ⟨rest, hin, rfl⟩ | ⟨off, n, v, rest, hin, rfl⟩ | ⟨off, n, rest, hin, rfl⟩ |
    ⟨n, v, rest, hin, rfl⟩ | ⟨n, rest, hin, rfl⟩ | ⟨a, b, rest, hin, rfl⟩ | ⟨a, rest, hin, rfl⟩ | ⟨rest, hin, rfl⟩ |
    ⟨d, rest, hin, rfl⟩ := step_cases h <;> simp only [State.violation, hin, Bool.or_false]
  · exact engineStep_hostFault h
  · exact (engineStep_hostFault h).trans (setInputs_hostFault st rest)
  · exact resetStep_hostFault _
  · exact portWrite_hostFault _ off n v
  · exact portRead_hostFault _ off n
  · exact hostWrite_hostFault _ n v
  · exact hostReadOf_hostFault _ _ _
  · exact hostWriteByte_hostFault _ a b
  · exact hostReadOf_hostFault _ _ _
  · exact waitStep_hostFault st rest
  · exact noteViolation_hostFault _ true

/-! ### A violation sets it, and nothing else does -/

theorem writeViolates_of_covers {st : State} {part : Part} (hp : part ∈ st.activeParts) {as : List Nat} {a : Nat}
    (ha : a ∈ as) (hc : part.Covers a) : st.writeViolates as = true :=
  decide_eq_true ⟨part, hp, a, ha, hc⟩

theorem readViolates_of_covers {st : State} {part : Part} (hp : part ∈ st.activeParts) (ho : part.out = true)
    {as : List Nat} {a : Nat} (ha : a ∈ as) (hc : part.Covers a) : st.readViolates as = true :=
  decide_eq_true ⟨part, hp, ho, a, ha, hc⟩

/-- A step that is a violation goes on with `host_fault` set. -/
theorem step_of_violation {st t : State} (h : step st = .next t) (hv : st.violation = true) :
    ∃ t', step st = .next t' ∧ t'.hostFault = true :=
  ⟨t, h, by rw [step_hostFault h, hv, Bool.or_true]⟩

/-- Settles O45: an access of a covered byte is a violation; and no step clears `host_fault`. -/
theorem hostViolationSetsFault : Obligations.HostViolationSetsFault := by
  refine ⟨fun st w i part rest hw hd hp hpw hph hl => ?_, fun st t ht hf => by rw [step_hostFault ht, hf, Bool.true_or]⟩
  have hact : part ∈ st.activeParts := mem_activeParts.2 ⟨w, i, hw, hd, hp⟩
  refine ⟨fun a b hlo hhi => ?_, fun n v k hk hlo hhi => ?_⟩
  · have hc : part.Covers a.toNat := ⟨hpw, hph, hl, hlo, hhi⟩
    have ha : a.toNat ∈ [a.toNat] := List.mem_singleton.2 rfl
    refine ⟨fun hin => step_of_violation (step_mwByte hin) ?_, fun ho hin => step_of_violation (step_mrByte hin) ?_⟩ <;>
      simp only [State.violation, hin]
    · exact writeViolates_of_covers hact ha hc
    · exact readViolates_of_covers hact ho ha hc
  · have hc : part.Covers (4 * n.toNat + k) := ⟨hpw, hph, hl, hlo, hhi⟩
    have ha : 4 * n.toNat + k ∈ wordBytes (4 * n.toNat) := mem_wordBytes.2 (by omega)
    refine ⟨fun hin => step_of_violation (step_mw hin) ?_, fun ho hin => step_of_violation (step_mr hin) ?_⟩ <;>
      simp only [State.violation, hin]
    · exact writeViolates_of_covers hact ha hc
    · exact readViolates_of_covers hact ho ha hc

/-- A violation in the terms of the statements. -/
theorem violation_cases {st : State} (h : st.violation = true) :
    (∃ n v rest, st.inputs = .mw n v :: rest ∧ ¬ st.QuietWrite (4 * n.toNat) 4) ∨
    (∃ a b rest, st.inputs = .mwByte a b :: rest ∧ ¬ st.QuietWrite a.toNat 1) ∨
    (∃ n rest, st.inputs = .mr n :: rest ∧ ¬ st.QuietRead (4 * n.toNat) 4) ∨
    (∃ a rest, st.inputs = .mrByte a :: rest ∧ ¬ st.QuietRead a.toNat 1) ∨
    (∃ d rest, st.inputs = .breach d :: rest) := by
  simp only [quietWrite_word, quietWrite_byte, quietRead_word, quietRead_byte, Bool.not_eq_false]
  unfold State.violation at h
  split at h
  next n v rest hin => exact .inl ⟨n, v, rest, hin, h⟩
  next a b rest hin => exact .inr (.inl ⟨a, b, rest, hin, h⟩)
  next n rest hin => exact .inr (.inr (.inl ⟨n, rest, hin, h⟩))
  next a rest hin => exact .inr (.inr (.inr (.inl ⟨a, rest, hin, h⟩)))
  next d rest hin => exact .inr (.inr (.inr (.inr ⟨d, rest, hin⟩)))
  next => exact absurd h Bool.false_ne_true

/-- Settles O55: a step that is no violation keeps `host_fault`; a breach entry only sets it. -/
theorem hostFaultOnlyByViolation : Obligations.HostFaultOnlyByViolation := by
  refine ⟨fun st t ht => ?_, fun st d rest hin => ?_⟩
  · cases hv : st.violation with
    | false => exact .inl (by rw [step_hostFault ht, hv, Bool.or_false])
    | true => exact .inr (violation_cases hv)
  · rw [step_breach hin, State.noteViolation, Bool.or_true]
    rfl

/-! ### Pixel words of the command in flight -/

/-- A quiet write to the n bytes from `lo` changes no pixel word of a part of the validated command in flight (R73): every
byte of such a word lies in the span. -/
theorem readWord_of_quietWrite {st : State} {w : Word} {i : Instr} (hw : st.phase.word? = some w) (hd : decode w = .ok i)
    (hv : validate i st.regs = .ok) {lo n : Nat} (hq : st.QuietWrite lo n) {m : Memory}
    (hm : ∀ a, ¬ (lo ≤ a ∧ a < lo + n) → m.read a = st.mem.read a) {part : Part} (hp : part ∈ parts i st.regs) {x y : Nat}
    (hx : x < part.w) (hy : y < part.h) : m.readWord (addr part.desc x y) = st.mem.readWord (addr part.desc x y) := by
  obtain ⟨hl, hpw, hph⟩ := parts_legal hv part hp
  obtain ⟨hlo, hhi⟩ := addr_in_span hl hx hy
  refine readWord_congr fun k hk => hm _ fun hin => ?_
  have hc : part.Covers (addr part.desc x y + k) := ⟨hpw, hph, hl, by omega, by omega⟩
  exact hq w i hw hd part hp _ hin.1 hin.2 hc

/-- Settles O46: a write that leaves `host_fault` clear is quiet. -/
theorem quietHostKeepsPixelWords : Obligations.QuietHostKeepsPixelWords := by
  intro st t w i hw hd hv hin ht hf part hp x y hx hy
  have hquiet : st.violation = false := by
    rw [step_hostFault ht, Bool.or_eq_false_iff] at hf
    exact hf.2
  rcases hin with ⟨n, v, rest, hin⟩ | ⟨a, b, rest, hin⟩ <;> simp only [State.violation, hin] at hquiet
  · rw [step_mw hin] at ht
    injection ht with ht
    refine readWord_of_quietWrite hw hd hv (quietWrite_word.2 hquiet) (fun c hc => ?_) hp hx hy
    rw [← ht]
    exact read_writeWord_other st.mem (by omega) v
  · rw [step_mwByte hin] at ht
    injection ht with ht
    refine readWord_of_quietWrite hw hd hv (quietWrite_byte.2 hquiet) (fun c hc => ?_) hp hx hy
    rw [← ht]
    exact read_write_other st.mem (by omega) b

end Sys2Proof.Machine
end

section
/-! The encoding of commands: a command word by its fields, decoding and encoding as inverses, the decoding table, and the
end of an illegal word (R86-R90). -/

namespace Sys2Proof.Machine

/-! ### Decode and encode -/

/-- A word is a command word exactly when RSVD is 0 and the other two fields are the command's (R86). -/
theorem commandWord_eq_iff {o p : BitVec 4} {w : Word} :
    commandWord o p = w ↔ rsvdField w = 0 ∧ presentField w = p ∧ opField w = o := by
  conv_lhs => rw [← word_fields w]
  rw [commandWord, append_inj, append_inj, and_assoc, eq_comm, eq_comm (a := p), eq_comm (a := o)]
  rfl

/-- A word that decodes to a command is that command's word: each branch of `decode_fields` fixes all three fields. -/
theorem encode_of_decode {w : Word} {i : Instr} (h : decode w = .ok i) : encode i = w := by
  rw [decode_fields] at h
  split_ifs at h with hs he hh hi <;> cases h
  · exact commandWord_eq_iff.2 hs
  · exact commandWord_eq_iff.2 ⟨he.1, rfl, he.2⟩
  · exact commandWord_eq_iff.2 ⟨hh.1, rfl, hh.2⟩
  · exact commandWord_eq_iff.2 ⟨hi.1, rfl, hi.2⟩

theorem decode_eq_ok_iff {w : Word} {i : Instr} : decode w = .ok i ↔ encode i = w :=
  ⟨encode_of_decode, fun h => h ▸ decode_encode i⟩

/-- Settles O2: `encode` gives the only word of a command, and that word decodes back. -/
theorem decodeExactlyInvertsEncode : Obligations.DecodeExactlyInvertsEncode := fun _ _ => decode_eq_ok_iff

/-! ### The decoding table (R89) -/

/-- A word is the one of a RECON.* command exactly when it fits the command's row, with PRESENT as the operand. -/
theorem commandWord_eq_iff_fits {o p : BitVec 4} {w : Word} :
    commandWord o p = w ↔ w &&& 0xFFFFFF0F = 0#24 ++ 0#4 ++ o ∧ presentField w = p := by
  rw [commandWord_eq_iff, fits_recon, and_assoc, and_comm (a := presentField w = p)]

/-- The illegal words by their fields: those that fit no row. -/
theorem decode_illegal_iff (w : Word) : (∃ k, decode w = .error k) ↔
    ¬ (rsvdField w = 0 ∧ presentField w = 0 ∧ opField w = 1) ∧ ¬ (rsvdField w = 0 ∧ opField w = 2) ∧
    ¬ (rsvdField w = 0 ∧ opField w = 3) ∧ ¬ (rsvdField w = 0 ∧ opField w = 4) := by
  rw [decode_fields]
  split_ifs with hs he hh hi
  · simp [hs]
  · simp [he]
  · simp [hh]
  · simp [hi]
  · exact iff_of_true ⟨_, rfl⟩ ⟨hs, he, hh, hi⟩

/-- The mask of every row covers the bits of OP. -/
theorem opField_mask {row : OpcodeRow} (hrow : row ∈ opcodeRows) : opField row.mask = BitVec.allOnes 4 := by
  revert row
  simp only [opcodeRows, List.forall_mem_cons]
  decide

theorem opField_of_fits {w : Word} {row : OpcodeRow} (hrow : row ∈ opcodeRows) (h : w &&& row.mask = row.mat) :
    opField w = opField row.mat :=
  calc opField w = opField w &&& opField row.mask := by rw [opField_mask hrow, BitVec.and_allOnes]
    _ = opField (w &&& row.mask) := BitVec.extractLsb'_and.symm
    _ = opField row.mat := congrArg opField h

/-- A word that fits a row has the row's OP, and no two rows have the same, so a word fits at most one. -/
theorem countP_fits_le_one (w : Word) : opcodeRows.countP (fun row => w &&& row.mask == row.mat) ≤ 1 := by
  have distinct : ∀ o : BitVec 4, opcodeRows.countP (fun row => o == opField row.mat) ≤ 1 := by decide
  refine le_trans (List.countP_mono_left fun row hrow h => ?_) (distinct (opField w))
  exact beq_iff_eq.2 (opField_of_fits hrow (beq_iff_eq.1 h))

theorem validateWord_encode (i : Instr) (r : Regs) : validateWord (encode i) r = validate i r := by
  rw [validateWord, decode_encode]

/-- A RECON.* word without a present quadrant is refused with NO_INPUT (R89, R171). -/
theorem validateWord_noInput {w : Word} (r : Regs) (hp : presentField w = 0) (hlo : 2 ≤ (opField w).toNat)
    (hhi : (opField w).toNat ≤ 4) (hr : rsvdField w = 0) : validateWord w r = .noInput := by
  have hop : ∀ o : BitVec 4, 2 ≤ o.toNat → o.toNat ≤ 4 → o = 2 ∨ o = 3 ∨ o = 4 := by decide
  rw [← commandWord_eq_iff.2 ⟨hr, hp, rfl⟩]
  rcases hop _ hlo hhi with ho | ho | ho <;> rw [ho]
  · exact validateWord_encode (.reconExact 0) r
  · exact validateWord_encode (.reconHeur 0) r
  · exact validateWord_encode (.reconInpaint 0) r

/-- Settles O1: each row by the fields it fixes, since decoding inverts encoding. -/
theorem decodeMatchesTheTable : Obligations.DecodeMatchesTheTable := by
  refine fun w => ⟨?_, fun p => ?_, fun p => ?_, fun p => ?_, ?_, countP_fits_le_one w, fun r => validateWord_noInput r⟩
  · exact ((decode_eq_ok_iff (i := .split)).trans commandWord_eq_iff).trans (fits_split w).symm
  · exact (decode_eq_ok_iff (i := .reconExact p)).trans commandWord_eq_iff_fits
  · exact (decode_eq_ok_iff (i := .reconHeur p)).trans commandWord_eq_iff_fits
  · exact (decode_eq_ok_iff (i := .reconInpaint p)).trans commandWord_eq_iff_fits
  · rw [decode_illegal_iff, ← fits_split, ← fits_recon, ← fits_recon, ← fits_recon]
    rfl

/-! ### Illegal words (R90) -/

/-- The four kinds of R90: an OP outside the table, or one of the table with a field that must be 0 and is not. -/
theorem decode_illegal_kinds (w : Word) : (∃ k, decode w = .error k) ↔
    opField w = 0 ∨ 5 ≤ (opField w).toNat ∨ rsvdField w ≠ 0 ∨ (opField w = 1 ∧ presentField w ≠ 0) := by
  have hop : ∀ o : BitVec 4, o = 0 ∨ o = 1 ∨ o = 2 ∨ o = 3 ∨ o = 4 ∨ 5 ≤ o.toNat := by decide
  have hbig : ∀ o : BitVec 4, 5 ≤ o.toNat → o ≠ 1 ∧ o ≠ 2 ∧ o ≠ 3 ∧ o ≠ 4 := by decide
  rw [decode_illegal_iff]
  rcases hop (opField w) with ho | ho | ho | ho | ho | ho
  · simp [ho]
  · simp [ho, imp_iff_not_or]
  · simp [ho]
  · simp [ho]
  · simp [ho]
  · obtain ⟨h1, h2, h3, h4⟩ := hbig _ ho
    exact iff_of_true ⟨fun h => h1 h.2.2, fun h => h2 h.2, fun h => h3 h.2, fun h => h4 h.2⟩ (.inr (.inl ho))

/-- The engine has the turn with the script empty or its turn at the head (log 8); `rest` is the script after it. -/
theorem step_engineTurn {st : State} {rest : List Event} (h : (st.inputs = [] ∧ rest = []) ∨ st.inputs = .engine :: rest) :
    step st = engineStep (st.setInputs rest) := by
  rcases h with ⟨hin, rfl⟩ | hin
  · rw [step_nil hin, ← hin]
    rfl
  · exact step_engine hin

/-- Settles O3: the launch takes any word, and the engine's turn ends an illegal one. -/
theorem illegalWordsEndWithIllegalCmd : Obligations.IllegalWordsEndWithIllegalCmd := by
  refine fun w => ⟨decode_illegal_kinds w, fun k hk st => ⟨fun rest hi hin => ?_, fun hp rest hturn => ?_⟩⟩
  · refine ⟨_, step_sw_mapped (by decide) hin rfl, ?_⟩
    rw [writeReg_cmd_idle (st := st.setInputs rest) hi]
    rfl
  · rw [step_engineTurn hturn, engineStep_illegal (st := st.setInputs rest) hp hk]
    rfl

/-- Settles O4: the legal words are those of their commands; the illegal ones fit no row. -/
theorem sampleWordsDecode : Obligations.SampleWordsDecode :=
  ⟨decode_encode .split, decode_encode (.reconExact 0b1111), decode_encode (.reconHeur 0b1001),
    decode_encode (.reconInpaint 0b0111), decode_encode (.reconExact 0), rfl, rfl, rfl, rfl⟩

end Sys2Proof.Machine
end

section
/-! The assembler (R93, R94): the number a mask operand stands for, and the word of a line. -/

namespace Sys2Proof.Machine

/-! ### The value of a list of quadrants -/

/-- The sum of 2^i over the i below n that f holds of: the value of a list of quadrants, for any number of quadrants. -/
def bitSum (f : Nat → Bool) (n : Nat) : Nat := ((List.range n).filter f).foldl (fun acc i => acc + 2 ^ i) 0

theorem value_names (qs : List Quad) : (MaskLit.names qs).value = bitSum (fun i => qs.any (·.val == i)) 4 := rfl

theorem bitSum_succ (f : Nat → Bool) (n : Nat) : bitSum f (n + 1) = (if f n then 2 ^ n else 0) + bitSum f n := by
  rw [bitSum, List.range_succ, List.filter_append, List.foldl_append]
  cases hf : f n <;> simp [hf, bitSum, Nat.add_comm]

theorem bitSum_lt (f : Nat → Bool) (n : Nat) : bitSum f n < 2 ^ n := by
  induction n with
  | zero => exact Nat.one_pos
  | succ n ih =>
    rw [bitSum_succ, Nat.pow_succ]
    split <;> omega

/-- The bits of the sum are the values of f: the summand 2^n sets bit n, which the smaller summands leave clear. -/
theorem testBit_bitSum (f : Nat → Bool) {n j : Nat} (hj : j < n) : (bitSum f n).testBit j = f j := by
  induction n with
  | zero => omega
  | succ n ih =>
    rw [bitSum_succ]
    rcases Nat.lt_succ_iff_lt_or_eq.1 hj with hlt | rfl
    · split
      · rw [Nat.testBit_two_pow_add_gt hlt, ih hlt]
      · rw [Nat.zero_add, ih hlt]
    · have hclear := Nat.testBit_lt_two_pow (bitSum_lt f j)
      cases hf : f j
      · simp [hclear]
      · simp [Nat.testBit_two_pow_add_eq, hclear]

theorem wellFormed_names (qs : List Quad) : (MaskLit.names qs).wellFormed = true :=
  decide_eq_true (Nat.le_of_lt_succ (bitSum_lt _ 4))

theorem testBit_names (qs : List Quad) (j : Quad) : (MaskLit.names qs).value.testBit j = decide (j ∈ qs) := by
  rw [value_names, testBit_bitSum _ j.isLt, Bool.eq_iff_iff, List.any_eq_true]
  simp [Fin.val_inj]

/-! ### The word of a line -/

/-- A command word is OP with PRESENT shifted to bits [7:4] (R86). -/
theorem commandWord_eq_or (o p : BitVec 4) : commandWord o p = o.setWidth 32 ||| p.setWidth 32 <<< 4 := by
  refine BitVec.eq_of_getLsbD_eq fun i hi => ?_
  simp only [commandWord, BitVec.getLsbD_append, BitVec.getLsbD_or, BitVec.getLsbD_shiftLeft, BitVec.getLsbD_setWidth, hi,
    BitVec.getLsbD_zero]
  by_cases ho : i < 4
  · simp [ho]
  · have hoi : o.getLsbD i = false := o.getLsbD_of_ge i (by omega)
    by_cases hp : i - 4 < 4
    · simp [ho, hoi, hp, show i - 4 < 32 by omega]
    · simp [ho, hoi, hp, p.getLsbD_of_ge (i - 4) (by omega)]

theorem commandWord_ofNat (o : BitVec 4) {m : Nat} (hm : m ≤ 15) :
    commandWord o (BitVec.ofNat 4 m) = o.setWidth 32 ||| BitVec.ofNat 32 m <<< 4 := by
  have hp : (BitVec.ofNat 4 m).setWidth 32 = BitVec.ofNat 32 m := by
    apply BitVec.eq_of_toNat_eq
    simp only [BitVec.toNat_setWidth, BitVec.toNat_ofNat]
    omega
  rw [commandWord_eq_or, hp]

section
variable {l : MaskLit}

theorem assemble_reconExact (hl : l.wellFormed = true) :
    assemble (.reconExact (some l)) = some (0x00000002 ||| BitVec.ofNat 32 l.value <<< 4) :=
  (if_pos hl).trans (congrArg some (commandWord_ofNat 2 (of_decide_eq_true hl)))

theorem assemble_reconHeur (hl : l.wellFormed = true) :
    assemble (.reconHeur (some l)) = some (0x00000003 ||| BitVec.ofNat 32 l.value <<< 4) :=
  (if_pos hl).trans (congrArg some (commandWord_ofNat 3 (of_decide_eq_true hl)))

theorem assemble_reconInpaint (hl : l.wellFormed = true) :
    assemble (.reconInpaint (some l)) = some (0x00000004 ||| BitVec.ofNat 32 l.value <<< 4) :=
  (if_pos hl).trans (congrArg some (commandWord_ofNat 4 (of_decide_eq_true hl)))

end

theorem assemble_rejected {line : AsmLine} (h : line.wellFormed = false) : assemble line = none :=
  if_neg (by rw [h]; exact Bool.false_ne_true)

/-- Settles O5: the word of a line whose mask fits, and no word for a line that is not well formed. -/
theorem assemblerWords : Obligations.AssemblerWords := by
  have fits : ∀ m ≤ 15, (MaskLit.bits m).wellFormed = true := fun m hm => decide_eq_true hm
  have tooBig : ∀ m, 15 < m → (MaskLit.bits m).wellFormed = false := fun m hm => decide_eq_false (Nat.not_le.2 hm)
  refine ⟨rfl, fun m => rfl, fun m hm => assemble_reconExact (fits m hm), fun m hm => assemble_reconHeur (fits m hm),
    fun m hm => assemble_reconInpaint (fits m hm), fun m hm => ?_, fun qs => ?_, rfl, rfl, rfl, fun v => rfl⟩
  · have h := tooBig m hm
    exact ⟨assemble_rejected h, assemble_rejected h, assemble_rejected h⟩
  · have h := wellFormed_names qs
    exact ⟨assemble_reconExact h, assemble_reconHeur h, assemble_reconInpaint h, testBit_names qs⟩

end Sys2Proof.Machine
end

section
/-! Memory accesses of other agents that are no violation (R61, R79, R95). -/

namespace Sys2Proof.Machine

/-- Settles O54: a quiet access is the memory operation it names, and the laws of memory say what a write stores. -/
theorem quietHostAccesses : Obligations.QuietHostAccesses := by
  refine fun st rest hm _ => ⟨fun n v hin hq => ?_, fun a b hin hq => ?_, fun n hin hq => ?_, fun a hin hq => ?_⟩
  · refine ⟨st.mem.writeWord (4 * n.toNat) v, ?_, readWord_writeWord_same hm (by omega) v,
      fun a ha => read_writeWord_other st.mem ha v⟩
    rw [step_mw hin, hostWrite_quiet (st := st.setInputs rest) v hq]
    rfl
  · refine ⟨st.mem.write a.toNat b, ?_, read_write_same hm a.toNat b, fun c hc => read_write_other st.mem hc b⟩
    rw [step_mwByte hin, hostWriteByte_quiet (st := st.setInputs rest) b hq]
    rfl
  · rw [step_mr hin, hostRead_quiet (st := st.setInputs rest) hq]
    rfl
  · rw [step_mrByte hin, hostReadByte_quiet (st := st.setInputs rest) hq]
    rfl

end Sys2Proof.Machine
end

section
/-! The end of a run with ERR = 0, for every command: what the next state is where every pixel word answers, and what memory
holds wherever a run has ended so (R69, R74, R174). -/

namespace Sys2Proof.Machine

/-! ### The run where every pixel word answers -/

/-- Where every pixel word answers OK, the run of a command in one step writes every output word and completes. -/
theorem exec_answers {i : Instr} {st : State} (hr : st.Running i) (hi : ∀ p, i ≠ .reconInpaint p)
    (hv : validate i st.regs = .ok) (hs : st.Safe) (ha : st.PixelsAnswer i) :
    exec i st = .next ((st.setMem (st.memDone (jobOf i st).writes)).complete) := by
  obtain ⟨w, hp, -⟩ := hr
  rw [exec_running i hp hi, runStep_answers hv ha hs, memDone_safe hs]

/-! ### A run that has ended with ERR = 0 -/

section
variable {st : State} {w : Word} (hp : st.phase = .running w)
include hp

theorem runStep_mem_of_ok {job : Job} (hi : (runStep job st).phase = .idle) (he : (runStep job st).regs.err = .ok) :
    (runStep job st).mem = st.memDone job.writes := by
  rcases runStep_cases job st with ⟨-, h⟩ | ⟨-, h⟩ | ⟨-, h⟩ <;> rw [h] at hi he ⊢
  · rfl
  · cases he
  · cases hp.symm.trans hi

/-- The first of the two run steps of RECON.INPAINT never ends the command with ERR = 0. -/
theorem scatterStep_not_ok {p : BitVec 4} (hi : (scatterStep p st).phase = .idle) : (scatterStep p st).regs.err ≠ .ok := by
  rcases scatterStep_cases p st with ⟨-, h⟩ | ⟨-, h⟩ | ⟨-, h⟩ <;> rw [h] at hi ⊢
  · cases hp.symm.trans hi
  · exact nofun
  · cases hp.symm.trans hi

theorem fillStep_mem_of_ok {p : BitVec 4} {cv : Canvas} (hc : st.work.canvas = some cv)
    (hi : (fillStep p cv st).phase = .idle) (he : (fillStep p cv st).regs.err = .ok) :
    (fillStep p cv st).mem = st.memDone (inpaintJob p st).writes := by
  have hcv : st.canvas p = cv := by simp [State.canvas, hc]
  rcases fillStep_cases p cv st with ⟨-, h⟩ | ⟨-, h⟩ | ⟨-, h⟩ <;> rw [h] at hi he ⊢
  · rw [inpaintJob, hcv]; rfl
  · cases he
  · cases hp.symm.trans hi

end

/-- A command in RUNNING whose step ends it with ERR = 0 has written every word of its memory work. -/
theorem mem_of_exec_ok {i : Instr} {st t : State} (hr : st.Running i) (h : exec i st = .next t) (hi : t.phase = .idle)
    (he : t.regs.err = .ok) : t.mem = st.memDone (jobOf i st).writes := by
  obtain ⟨w, hp, -⟩ := hr
  by_cases hin : ∃ p, i = .reconInpaint p
  · obtain ⟨p, rfl⟩ := hin
    cases hc : st.work.canvas with
    | none =>
      cases (exec_inpaint_scatter p hp hc).symm.trans h
      exact absurd he (scatterStep_not_ok hp hi)
    | some cv =>
      cases (exec_inpaint_fill p hp hc).symm.trans h
      exact fillStep_mem_of_ok hp hc hi he
  · cases (exec_running i hp fun p hpi => hin ⟨p, hpi⟩).symm.trans h
    exact runStep_mem_of_ok hp hi he

/-- Written out, every output word of a validated command has its final value. -/
theorem memDone_jobOf {i : Instr} {st : State} (hv : validate i st.regs = .ok) (hm : Memory.wf st.mem = true) (hs : st.Safe)
    {a : Nat} {v : Word} (hw : (a, v) ∈ (jobOf i st).writes) : (st.memDone (jobOf i st).writes).readWord a = v :=
  memDone_word (e := (a, v)) (jobOf_fits hv) hm hs hw

/-- After a run that ended with ERR = 0 every output word holds its final value (R74). -/
theorem readWord_of_exec_ok {i : Instr} {st t : State} (hr : st.Running i) (hv : validate i st.regs = .ok)
    (hm : Memory.wf st.mem = true) (hs : st.Safe) (h : exec i st = .next t) (hi : t.phase = .idle) (he : t.regs.err = .ok)
    {a : Nat} {v : Word} (hw : (a, v) ∈ (jobOf i st).writes) : t.mem.readWord a = v := by
  rw [mem_of_exec_ok hr h hi he]
  exact memDone_jobOf hv hm hs hw

/-- No step of a command in RUNNING changes a descriptor (R38): only validation writes dimensions back. -/
theorem desc_of_exec {i : Instr} {st t : State} (hr : st.Running i) (h : exec i st = .next t) (d : DescName) :
    t.regs.desc d = st.regs.desc d := by
  obtain ⟨w, hp, hd⟩ := hr
  rw [← engineStep_legal (by rw [hp]; rfl) hd] at h
  by_contra hne
  obtain ⟨w', hp', -⟩ := (engineStep_effect h).desc_changed ⟨d, hne⟩
  cases hp.symm.trans hp'

/-! ### Memories and lists of words -/

/-- Words are equal only if their bytes are. -/
theorem read_of_readWord {m m' : Memory} {a k : Nat} (hk : k < 4) (h : m.readWord a = m'.readWord a) :
    m.read (a + k) = m'.read (a + k) := by
  obtain ⟨h321, h0⟩ := append_inj.1 h
  obtain ⟨h32, h1⟩ := append_inj.1 h321
  obtain ⟨h3, h2⟩ := append_inj.1 h32
  interval_cases k
  · exact h0
  · exact h1
  · exact h2
  · exact h3

/-- The order in which words that share no byte are written does not matter (R74). -/
theorem writeAll_congr {m : Memory} {ws ws' : List (Nat × Word)} (hm : Memory.wf m = true)
    (hs : ∀ e ∈ ws, e.1 + 4 ≤ 2 ^ 32) (hap : ws.Pairwise Apart) (hap' : ws'.Pairwise Apart)
    (hmem : ∀ e, e ∈ ws ↔ e ∈ ws') : m.writeAll ws = m.writeAll ws' := by
  have hs' : ∀ e ∈ ws', e.1 + 4 ≤ 2 ^ 32 := fun e he => hs e ((hmem e).2 he)
  refine memory_ext (wf_writeAll hm hs) (wf_writeAll hm hs') fun a => ?_
  by_cases h : ∃ e ∈ ws, e.1 ≤ a ∧ a < e.1 + 4
  · obtain ⟨e, he, hle, hlt⟩ := h
    have hword : (m.writeAll ws).readWord e.1 = (m.writeAll ws').readWord e.1 :=
      (readWord_writeAll_mem hm hs hap he).trans (readWord_writeAll_mem hm hs' hap' ((hmem e).1 he)).symm
    have hbyte := read_of_readWord (k := a - e.1) (by omega) hword
    rwa [Nat.add_sub_cancel' hle] at hbyte
  · have hout : ∀ e ∈ ws, a < e.1 ∨ e.1 + 4 ≤ a := fun e he => by
      by_contra hcon
      exact h ⟨e, he, by omega, by omega⟩
    rw [read_writeAll_other hout, read_writeAll_other fun e he => hout e ((hmem e).2 he)]

end Sys2Proof.Machine
end

section
/-! SPLIT and RECON.EXACT, and what RECON.EXACT has in common with the other RECON.* commands (R100 to R106). -/

namespace Sys2Proof.Machine

/-! ### The output words -/

/-- A full-size image is its quadrants' pixels, each at its full-size place (R13). -/
theorem exists_pixel_iff {w h : Nat} {P : Nat → Nat → Prop} : (∃ x y, x < 2 * w ∧ y < 2 * h ∧ P x y) ↔
    ∃ (j : Quad) (qx qy : Nat), qx < w ∧ qy < h ∧ P (fullX j qx) (fullY j qy) := by
  constructor
  · rintro ⟨x, y, hx, hy, hP⟩
    exact ⟨phaseOf x y, x / 2, y / 2, by omega, by omega, by rwa [fullX_phase, fullY_phase]⟩
  · rintro ⟨j, qx, qy, hx, hy, hP⟩
    exact ⟨_, _, fullX_lt hx, fullY_lt hy, hP⟩

theorem exactJob_writes_mem {p : BitVec 4} {r : Regs} {m : Memory} {e : Nat × Word} :
    e ∈ (exactJob p r m).writes ↔ ∃ x y, x < 2 * (quadDims p r).1 ∧ y < 2 * (quadDims p r).2 ∧
      e = (addr r.s x y, m.readWord (addr (r.q (phaseOf x y)) (x / 2) (y / 2))) := by
  simp only [exactJob, mem_grid, pixWrite, pixRead, wordOf_pixelOf, eq_comm]

/-- The output words of RECON.EXACT by quadrant: each source pixel goes to its full-size place (R106). -/
theorem exactJob_writes_mem_full {p : BitVec 4} {r : Regs} {m : Memory} {e : Nat × Word} :
    e ∈ (exactJob p r m).writes ↔ ∃ j qx qy, qx < (quadDims p r).1 ∧ qy < (quadDims p r).2 ∧
      e = (addr r.s (fullX j qx) (fullY j qy), m.readWord (addr (r.q j) qx qy)) := by
  rw [exactJob_writes_mem, exists_pixel_iff]
  simp only [phaseOf_full, fullX_half, fullY_half]

/-- The corner of a present quadrant in a block of RECON.HEUR is the quadrant's own pixel (R106, R127). -/
theorem heurBlock_candidates {p : BitVec 4} {j : Quad} (hj : present p j = true) (r : Regs) (m : Memory) (qx qy : Nat) :
    heurBlock p (candidates p r m qx qy) j = pixRead m (r.q j) qx qy := by
  rw [heurBlock_present hj, candidates, if_pos hj]

/-- Source pixel fidelity in the memory work (R106): each pixel of a present quadrant is an output word at its full-size
place. RECON.INPAINT has its canvas from phase 1. -/
theorem sourcePixel_mem_writes {i : Instr} {p : BitVec 4} {st : State}
    (hi : i = .reconExact p ∨ i = .reconHeur p ∨ i = .reconInpaint p)
    (hc : i = .reconInpaint p → st.work.canvas = some (scatter p st.regs st.mem)) {j : Quad} (hj : present p j = true)
    {qx qy : Nat} (hx : qx < (quadDims p st.regs).1) (hy : qy < (quadDims p st.regs).2) :
    (addr st.regs.s (fullX j qx) (fullY j qy), st.mem.readWord (addr (st.regs.q j) qx qy)) ∈ (jobOf i st).writes := by
  rcases hi with rfl | rfl | rfl
  · exact exactJob_writes_mem_full.2 ⟨j, qx, qy, hx, hy, rfl⟩
  · refine heurJob_writes_mem.2 ⟨j, qx, qy, hx, hy, ?_⟩
    rw [heurBlock_candidates hj, pixRead, wordOf_pixelOf]
  · have hat : Canvas.at (scatter p st.regs st.mem) (2 * (quadDims p st.regs).1) (fullX j qx) (fullY j qy) =
        some (pixRead st.mem (st.regs.q j) qx qy) := by
      rw [scatter_at (fullX_lt hx) (fullY_lt hy), phaseOf_full, if_pos hj, fullX_half, fullY_half]
    refine mem_grid.2 ⟨fullX j qx, fullY j qy, fullX_lt hx, fullY_lt hy, ?_⟩
    rw [State.canvas, hc rfl, Option.getD_some, inpaintFill, fillPass_keeps hat, Option.getD_some, pixWrite, pixRead,
      wordOf_pixelOf]

/-! ### The runs of SPLIT and RECON.EXACT -/

/-- Settles O23: the run writes the words of R100 and nothing else. -/
theorem splitCompletes : Obligations.SplitCompletes := by
  intro st hr hv hm hs ha
  refine ⟨st.memDone (jobOf .split st).writes, exec_answers hr nofun hv.1 hs ha, fun i qx qy hx hy => ?_, fun a h => ?_⟩
  · exact memDone_jobOf hv.1 hm hs (splitJob_writes_mem.2 ⟨i, qx, qy, hx, hy, rfl⟩)
  · refine memDone_other fun e he => ?_
    obtain ⟨i, qx, qy, hx, hy, rfl⟩ := splitJob_writes_mem.1 he
    exact h i qx qy hx hy

/-- Settles O24: validation leaves only p = 0b1111, and the run writes the words of R103 and nothing else. -/
theorem exactCompletes : Obligations.ExactCompletes := by
  intro p st hr hv hm hs ha
  obtain rfl : p = 0b1111 := (validateRecon_ok.1 hv.1).all rfl
  refine ⟨rfl, st.memDone (jobOf (.reconExact 0b1111) st).writes, exec_answers hr nofun hv.1 hs ha, fun x y hx hy => ?_,
    fun a h => ?_⟩
  · exact memDone_jobOf hv.1 hm hs (exactJob_writes_mem.2 ⟨x, y, hx, hy, rfl⟩)
  · refine memDone_other fun e he => ?_
    obtain ⟨x, y, hx, hy, rfl⟩ := exactJob_writes_mem.1 he
    exact h x y hx hy

/-- Settles O32: the source pixels are output words of the memory work, and a run that ended with ERR = 0 wrote them all. -/
theorem sourcePixelFidelity : Obligations.SourcePixelFidelity := by
  intro p i st t hi hr hv hm hs hc h hidle herr j qx qy hj hx hy
  have hdims : (st.regs.q j).width.toNat = (quadDims p st.regs).1 ∧ (st.regs.q j).height.toNat = (quadDims p st.regs).2 := by
    rcases hi with rfl | rfl | rfl <;> exact (validateRecon_ok.1 hv.1).dims j hj
  exact readWord_of_exec_ok hr hv.1 hm hs h hidle herr
    (sourcePixel_mem_writes hi hc hj (hdims.1 ▸ hx) (hdims.2 ▸ hy))

/-! ### RECON.EXACT after SPLIT (R104) -/

@[simp] theorem present_all (j : Quad) : present 0b1111 j = true := by fin_cases j <;> rfl

theorem two_mul_toNat_half {n : BitVec 16} (h : n.toNat % 2 = 0) : 2 * (BitVec.ofNat 16 (n.toNat / 2)).toNat = n.toNat := by
  have := n.isLt
  rw [BitVec.toNat_ofNat]
  omega

/-- After the write-back of SPLIT each quadrant has half the dimensions of S, which are even (R101). -/
theorem quad_dims_of_split {r : Regs} (h : Validated .split r) (i : Quad) :
    2 * (r.q i).width.toNat = r.s.width.toNat ∧ 2 * (r.q i).height.toNat = r.s.height.toNat := by
  have hok := validateSplit_ok.1 h.1
  have hw : writeBackSplit r = r := h.2
  have hq : r.q i = (r.q i).resize (r.s.width.toNat / 2) (r.s.height.toNat / 2) := by rw [← writeBackSplit_q, hw]
  rw [hq]
  exact ⟨two_mul_toNat_half hok.wEven, two_mul_toNat_half hok.hEven⟩

/-- After the write-back of RECON.* S has the dimensions of the output (R173). -/
theorem s_dims_of_exact {p : BitVec 4} {r : Regs} (h : Validated (.reconExact p) r) :
    r.s.width = BitVec.ofNat 16 (2 * (quadDims p r).1) ∧ r.s.height = BitVec.ofNat 16 (2 * (quadDims p r).2) := by
  have hs : r.s.resize (2 * (quadDims p r).1) (2 * (quadDims p r).2) = r.s := congrArg Regs.s h.2
  exact ⟨(congrArg Desc.width hs).symm, (congrArg Desc.height hs).symm⟩

/-- Settles O30: SPLIT takes pixel (x, y) to (x >> 1, y >> 1) of quadrant phase(x, y), and RECON.EXACT reads it there. -/
theorem splitThenExactIsIdentity : Obligations.SplitThenExactIsIdentity := by
  intro st t u v hr hv hm hs ht htp hte hq hwords hru hvu hmu hsu hvx hvp hve
  have hqst : ∀ i, u.regs.q i = st.regs.q i := fun i => (hq i).trans (desc_of_exec hr ht (.q i))
  have hsv : v.regs.s = u.regs.s := desc_of_exec hru hvx .s
  have hqw : 2 * (quadDims 0b1111 u.regs).1 = st.regs.s.width.toNat := by
    rw [quadDims, hqst]
    exact (quad_dims_of_split hv _).1
  have hqh : 2 * (quadDims 0b1111 u.regs).2 = st.regs.s.height.toNat := by
    rw [quadDims, hqst]
    exact (quad_dims_of_split hv _).2
  obtain ⟨hw, hh⟩ := s_dims_of_exact hvu
  rw [hqw, BitVec.ofNat_toNat, BitVec.setWidth_eq] at hw
  rw [hqh, BitVec.ofNat_toNat, BitVec.setWidth_eq] at hh
  rw [hsv]
  refine ⟨hw, hh, fun x y hx hy => ?_, fun a ha => ?_⟩
  · have hx2 : x / 2 < st.regs.s.width.toNat / 2 := by omega
    have hy2 : y / 2 < st.regs.s.height.toNat / 2 := by omega
    calc v.mem.readWord (addr u.regs.s x y)
        = u.mem.readWord (addr (u.regs.q (phaseOf x y)) (x / 2) (y / 2)) :=
          readWord_of_exec_ok hru hvu.1 hmu hsu hvx hvp hve
            (exactJob_writes_mem.2 ⟨x, y, hqw ▸ hx, hqh ▸ hy, rfl⟩)
      _ = t.mem.readWord (addr (t.regs.q (phaseOf x y)) (x / 2) (y / 2)) := hwords _ _ _ hx2 hy2
      _ = t.mem.readWord (addr (st.regs.q (phaseOf x y)) (x / 2) (y / 2)) := by rw [← hq, hqst]
      _ = st.mem.readWord (addr st.regs.s (fullX (phaseOf x y) (x / 2)) (fullY (phaseOf x y) (y / 2))) :=
          readWord_of_exec_ok hr hv.1 hm hs ht htp hte (splitJob_writes_mem.2 ⟨_, _, _, hx2, hy2, rfl⟩)
      _ = st.mem.readWord (addr st.regs.s x y) := by rw [fullX_phase, fullY_phase]
  · rw [mem_of_exec_ok hru hvx hvp hve]
    refine memDone_other fun e he => ?_
    obtain ⟨x, y, hx, hy, rfl⟩ := exactJob_writes_mem.1 he
    exact ha x y (hqw ▸ hx) (hqh ▸ hy)

/-! ### RECON.EXACT and RECON.HEUR with all four quadrants (R105) -/

theorem validateRecon_incompleteInput_iff {e : Bool} {p : BitVec 4} {r : Regs} :
    validateRecon e p r = .incompleteInput ↔ p ≠ 0 ∧ e = true ∧ p ≠ 0b1111 := by
  unfold validateRecon
  simp only
  split_ifs with h0 hinc
  · exact iff_of_false nofun fun h => h.1 h0
  · exact iff_of_true rfl ⟨h0, hinc⟩
  all_goals exact iff_of_false nofun fun h => hinc h.2

/-- With all four quadrants present validation does not tell RECON.EXACT from RECON.HEUR. -/
theorem validateRecon_all (e : Bool) (r : Regs) : validateRecon e 0b1111 r = validateRecon false 0b1111 r := by
  unfold validateRecon
  simp

theorem mem_writes_exact_iff_heur {r : Regs} {m : Memory} (e : Nat × Word) :
    e ∈ (exactJob 0b1111 r m).writes ↔ e ∈ (heurJob 0b1111 r m).writes := by
  rw [exactJob_writes_mem_full, heurJob_writes_mem]
  simp only [heurBlock_candidates (present_all _), pixRead, wordOf_pixelOf]

/-- Settles O31: the same words are written, in another order. -/
theorem exactAgreesWithHeur : Obligations.ExactAgreesWithHeur := by
  refine ⟨fun r => validateRecon_all true r, fun st ⟨w, hp⟩ hv hm hs ha => ?_, fun p r h0 hp => ⟨?_, ?_⟩⟩
  · have hvh : validate (.reconHeur 0b1111) st.regs = .ok := (validateRecon_all true st.regs).symm.trans hv.1
    have hfe := jobOf_fits hv.1
    have hfh := jobOf_fits hvh
    have hmem : st.mem.writeAll (jobOf (.reconExact 0b1111) st).writes =
        st.mem.writeAll (jobOf (.reconHeur 0b1111) st).writes :=
      writeAll_congr hm hfe.space hfe.apart hfh.apart mem_writes_exact_iff_heur
    refine ⟨_, exec_running (.reconExact 0b1111) hp (by simp), ?_, ?_⟩
    · rw [exec_running (.reconHeur 0b1111) hp (by simp), runStep_answers hv.1 ha hs, runStep_answers hvh ha hs, hmem]
    · rw [runStep_answers hv.1 ha hs]
      rfl
  · exact validateRecon_incompleteInput_iff.2 ⟨h0, rfl, hp⟩
  · exact fun h => Bool.false_ne_true (validateRecon_incompleteInput_iff.1 h).2.1

end Sys2Proof.Machine
end

section
/-! RECON.HEUR, the block multiplexer (R115 to R129): its integer means, the case table of a block, and its run. -/

namespace Sys2Proof.Machine

/-! ### The integer means (R125) -/

/-- The mean of two channel values fits its 8 bits, so nothing but the division truncates. -/
theorem toNat_chanMean2 (x y : Byte) : (chanMean2 x y).toNat = (x.toNat + y.toNat) / 2 := by
  have hx := x.isLt
  have hy := y.isLt
  exact (BitVec.toNat_ofNat ..).trans (Nat.mod_eq_of_lt (by omega))

/-- The mean of three channel values fits its 8 bits. -/
theorem toNat_chanMean3 (x y z : Byte) : (chanMean3 x y z).toNat = (x.toNat + y.toNat + z.toNat) / 3 := by
  have hx := x.isLt
  have hy := y.isLt
  have hz := z.isLt
  exact (BitVec.toNat_ofNat ..).trans (Nat.mod_eq_of_lt (by omega))

/-- Settles O27: the sums are exact, so the order of the operands does not matter, and the truncated quotient lies between
the smallest operand and the largest. -/
theorem channelMeansTruncate : Obligations.ChannelMeansTruncate := by
  refine ⟨fun x y => ?_, fun x y z => ?_, fun _ _ => rfl, fun _ _ _ => rfl⟩
  · have h := toNat_chanMean2 x y
    refine ⟨h, by omega, by omega, ?_⟩
    rw [chanMean2, chanMean2, Nat.add_comm]
  · have h := toNat_chanMean3 x y z
    refine ⟨h, by omega, by omega, ?_, ?_⟩
    · rw [chanMean3, chanMean3, Nat.add_comm x.toNat]
    · rw [chanMean3, chanMean3, Nat.add_right_comm]

/-! ### The cases of a block (R118 to R124) -/

/-- R124: without a candidate the block is black. -/
theorem heurBlock_none (c : Quad → Pixel) (j : Quad) : heurBlock 0b0000 c j = .black := rfl

/-- R118: four candidates stay at their corners. -/
theorem heurBlock_all (c : Quad → Pixel) (j : Quad) : heurBlock 0b1111 c j = c j := rfl

/-- R119: one candidate goes to all four corners. -/
theorem heurBlock_single {p : BitVec 4} (h : popcount p = 1) (c : Quad → Pixel) (j : Quad) :
    heurBlock p c j = c (lowest p) := by
  rw [heurBlock, if_neg (by omega), if_pos h]

/-- R120: the present row goes to both rows. -/
theorem heurBlock_horizontal {p : BitVec 4} (h : p = 0b0011 ∨ p = 0b1100) (c : Quad → Pixel) (j : Quad) :
    heurBlock p c j = c (Fin.ofNat 4 ((if p = 0b0011 then 0 else 2) + j.val % 2)) := by
  rcases h with rfl | rfl <;> rfl

/-- R122: the present column goes to both columns. -/
theorem heurBlock_vertical {p : BitVec 4} (h : p = 0b0101 ∨ p = 0b1010) (c : Quad → Pixel) (j : Quad) :
    heurBlock p c j = c (Fin.ofNat 4 ((if p = 0b0101 then 0 else 1) + j.val / 2 * 2)) := by
  rcases h with rfl | rfl <;> rfl

/-- R121: a diagonal pair keeps its corners, and its mean goes to the other two. -/
theorem heurBlock_diagonal {p : BitVec 4} (h : p = 0b1001 ∨ p = 0b0110) (c : Quad → Pixel) (j : Quad) :
    heurBlock p c j = if present p j then c j else presentMean p c := by
  rcases h with rfl | rfl <;> rfl

/-- R123: three candidates keep their corners, and their mean goes to the fourth. -/
theorem heurBlock_three {p : BitVec 4} (h : popcount p = 3) (c : Quad → Pixel) (j : Quad) :
    heurBlock p c j = if present p j then c j else presentMean p c := by
  have hp : p = 0b0111 ∨ p = 0b1011 ∨ p = 0b1101 ∨ p = 0b1110 := by revert p; decide
  rcases hp with rfl | rfl | rfl | rfl <;> rfl

/-- A block by its four corners, in the order of R128's columns: TL, TR, BL, BR. -/
theorem heurBlock_corners {p : BitVec 4} {c f : Quad → Pixel} (h : ∀ j, heurBlock p c j = f j) :
    heurBlock p c 0 = f 0 ∧ heurBlock p c 1 = f 1 ∧ heurBlock p c 2 = f 2 ∧ heurBlock p c 3 = f 3 :=
  ⟨h 0, h 1, h 2, h 3⟩

/-- Settles O26: each row of R128's table is the case of R117 that its mask falls under, at the four corners. -/
theorem heurBlockTable : Obligations.HeurBlockTable := by
  intro c row
  exact ⟨heurBlock_corners (heurBlock_none c),
    heurBlock_corners (heurBlock_single rfl c),
    heurBlock_corners (heurBlock_single rfl c),
    heurBlock_corners (heurBlock_horizontal (.inl rfl) c),
    heurBlock_corners (heurBlock_single rfl c),
    heurBlock_corners (heurBlock_vertical (.inl rfl) c),
    heurBlock_corners (heurBlock_diagonal (.inr rfl) c),
    heurBlock_corners (heurBlock_three rfl c),
    heurBlock_corners (heurBlock_single rfl c),
    heurBlock_corners (heurBlock_diagonal (.inl rfl) c),
    heurBlock_corners (heurBlock_vertical (.inr rfl) c),
    heurBlock_corners (heurBlock_three rfl c),
    heurBlock_corners (heurBlock_horizontal (.inr rfl) c),
    heurBlock_corners (heurBlock_three rfl c),
    heurBlock_corners (heurBlock_three rfl c),
    heurBlock_corners (heurBlock_all c)⟩

/-! ### The run -/

/-- A block's result is the same from its candidates as from the pixels of all four quadrants: an absent quadrant's slot is
never looked at (R116). -/
theorem heurBlock_candidates_eq (p : BitVec 4) (r : Regs) (m : Memory) (bx cy : Nat) (j : Quad) :
    heurBlock p (candidates p r m bx cy) j = heurBlock p (fun i => pixRead m (r.q i) bx cy) j :=
  heurBlock_congr (fun _ hi => if_pos hi) j

/-- Settles O25: the run writes the four corners of every block (R115) and nothing else. -/
theorem heurCompletes : Obligations.HeurCompletes := by
  intro p st hr hv hm hs ha
  refine ⟨st.memDone (jobOf (.reconHeur p) st).writes, exec_answers hr nofun hv.1 hs ha, fun bx cy j hx hy => ?_,
    fun a h => ?_⟩
  · rw [← heurBlock_candidates_eq]
    exact memDone_jobOf hv.1 hm hs (heurJob_writes_mem.2 ⟨j, bx, cy, hx, hy, rfl⟩)
  · refine memDone_other fun e he => ?_
    obtain ⟨j, bx, cy, hx, hy, rfl⟩ := heurJob_writes_mem.1 he
    exact h _ _ (fullX_lt hx) (fullY_lt hy)

end Sys2Proof.Machine
end

section
/-! What the output words of a command depend on in memory: the words that the command must read (R73, R129). -/

namespace Sys2Proof.Machine

theorem pixRead_congr {m m' : Memory} {d : Desc} {x y : Nat} (h : m'.readWord (addr d x y) = m.readWord (addr d x y)) :
    pixRead m' d x y = pixRead m d x y := congrArg pixelOf h

/-- The corner of each quadrant in a block of S is a pixel of S, also where a dimension is odd. -/
theorem splitJob_writes_congr {r : Regs} {m m' : Memory}
    (h : ∀ a ∈ (splitJob r m).reads, m'.readWord a = m.readWord a) : (splitJob r m').writes = (splitJob r m).writes := by
  dsimp only [splitJob]
  refine List.flatMap_congr fun i _ => grid_congr fun qx qy hx hy => ?_
  have hfx : fullX i qx < r.s.width.toNat := (fullX_lt hx).trans_le (Nat.mul_div_le ..)
  have hfy : fullY i qy < r.s.height.toNat := (fullY_lt hy).trans_le (Nat.mul_div_le ..)
  rw [pixRead_congr (h _ (mem_grid.2 ⟨_, _, hfx, hfy, rfl⟩))]

theorem exactJob_writes_congr {p : BitVec 4} {r : Regs} {m m' : Memory}
    (h : ∀ a ∈ (exactJob p r m).reads, m'.readWord a = m.readWord a) :
    (exactJob p r m').writes = (exactJob p r m).writes := by
  refine grid_congr fun x y hx hy => ?_
  have hread : addr (r.q (phaseOf x y)) (x / 2) (y / 2) ∈ (exactJob p r m).reads :=
    List.mem_flatMap.2 ⟨_, mem_quads _, mem_grid.2 ⟨_, _, by omega, by omega, rfl⟩⟩
  rw [pixRead_congr (h _ hread)]

section
variable {p : BitVec 4} {r : Regs} {m m' : Memory} (h : ∀ a ∈ inpaintReads p r, m'.readWord a = m.readWord a)
include h

/-- The pixels of the present quadrants are what RECON.HEUR and RECON.INPAINT read (R115, R137). -/
theorem pixRead_congr_of_present {j : Quad} (hj : present p j = true) {x y : Nat} (hx : x < (quadDims p r).1)
    (hy : y < (quadDims p r).2) : pixRead m' (r.q j) x y = pixRead m (r.q j) x y :=
  pixRead_congr (h _ (List.mem_flatMap.2 ⟨j, mem_presentQuads.2 hj, mem_grid.2 ⟨x, y, hx, hy, rfl⟩⟩))

theorem heurJob_writes_congr : (heurJob p r m').writes = (heurJob p r m).writes := by
  refine congrArg List.flatten (grid_congr fun bx cy hx hy => List.map_congr_left fun j _ => ?_)
  have hblock : heurBlock p (candidates p r m' bx cy) j = heurBlock p (candidates p r m bx cy) j := by
    rw [heurBlock_candidates_eq, heurBlock_candidates_eq]
    exact heurBlock_congr (fun i hi => pixRead_congr_of_present h hi hx hy) j
  rw [hblock]

theorem scatter_congr : scatter p r m' = scatter p r m := by
  refine grid_congr fun x y hx hy => ?_
  split
  next hj => rw [pixRead_congr_of_present h hj (by omega) (by omega)]
  next => rfl

end

/-- The canvas of RECON.INPAINT is the one already held or the scatter's, so its output words depend on memory only through
the reads of the scatter. -/
theorem inpaintJob_writes_congr {p : BitVec 4} {st : State} {m : Memory}
    (h : ∀ a ∈ inpaintReads p st.regs, m.readWord a = st.mem.readWord a) :
    (inpaintJob p { st with mem := m }).writes = (inpaintJob p st).writes := by
  have hcanvas : State.canvas p { st with mem := m } = st.canvas p := congrArg st.work.canvas.getD (scatter_congr h)
  rw [inpaintJob, inpaintJob, hcanvas]

/-- Settles O48, command by command. -/
theorem outputDependsOnInputPixelsOnly : Obligations.OutputDependsOnInputPixelsOnly := by
  intro i st m _ h
  cases i with
  | split => exact splitJob_writes_congr h
  | reconExact p => exact exactJob_writes_congr h
  | reconHeur p => exact heurJob_writes_congr h
  | reconInpaint p => exact inpaintJob_writes_congr h

end Sys2Proof.Machine
end

section
/-! The fill pass of RECON.INPAINT (R144 to R149) and the two steps of its run. -/

namespace Sys2Proof.Machine

/-! ### The mask and the values during the pass -/

/-- R146, for any canvas of phase 1. -/
theorem fillSteps_mask_iff {p : BitVec 4} {qw qh x y nx ny : Nat} {cv : Canvas} (hc : Scattered p qw qh cv)
    (hx : x < 2 * qw) (hnx : nx < 2 * qw) (hny : ny < 2 * qh) :
    Canvas.mask (fillSteps (2 * qw) (2 * qh) cv (y * (2 * qw) + x)).canvas (2 * qw) nx ny = true ↔ ValidAt p x y nx ny := by
  have hmask : (cv[ny * (2 * qw) + nx]?).join.isSome = present p (phaseOf nx ny) := hc.mask nx ny hnx hny
  rw [Canvas.mask, Canvas.at, fillSteps_mask (by rw [hc.length]; exact index_lt hnx hny), hmask]
  simp [index_lt_iff hx hnx]

/-- A pixel that is valid at one moment of the pass keeps its value to every later moment. -/
theorem fillSteps_stays {W H : Nat} {cv : Canvas} {j k k' : Nat} {v : Pixel} (hk : k ≤ k')
    (h : ((fillSteps W H cv k).canvas[j]?).join = some v) : ((fillSteps W H cv k').canvas[j]?).join = some v := by
  induction k', hk using Nat.le_induction with
  | base => exact h
  | succ n _ ih =>
    rw [fillSteps_canvas_succ]
    split
    next hnone =>
      have hjn : n ≠ j := by rintro rfl; simp [ih] at hnone
      rwa [List.getElem?_set_ne hjn]
    next => exact ih

/-- The image that the pass leaves. -/
def filledImage (W H : Nat) (cv : Canvas) (x y : Nat) : Pixel :=
  (Canvas.at (fillPass W H cv).canvas W x y).getD .black

/-- A pixel that is valid at some moment of the pass has its final value then. -/
theorem fillSteps_at_eq_filledImage {W H : Nat} {cv : Canvas} {k x y : Nat} (hk : k ≤ H * W)
    (h : Canvas.mask (fillSteps W H cv k).canvas W x y = true) :
    Canvas.at (fillSteps W H cv k).canvas W x y = some (filledImage W H cv x y) := by
  obtain ⟨v, hv⟩ := Option.isSome_iff_exists.1 h
  have hlast : Canvas.at (fillPass W H cv).canvas W x y = some v := by
    rw [fillPass_eq_steps]
    exact fillSteps_stays hk hv
  rw [filledImage, hlast, hv, Option.getD_some]

section
variable {p : BitVec 4} {qw qh x y : Nat} {cv : Canvas} (hc : Scattered p qw qh cv) (hx : x < 2 * qw) (hy : y < 2 * qh)
include hc hx hy

/-- The neighbours that the pass finds when it reaches (x, y), in terms of the final image: the in-place raster order of
R145 through the mask of R146. -/
theorem neighbours_fillSteps : neighbours (fillSteps (2 * qw) (2 * qh) cv (y * (2 * qw) + x)).canvas (2 * qw) (2 * qh) x y =
    rasterNeighbours p (2 * qw) (2 * qh) (filledImage (2 * qw) (2 * qh) cv) x y := by
  refine List.flatMap_congr fun dy _ => List.filterMap_congr fun dx _ => ?_
  dsimp only
  split
  next hin =>
    have ⟨_, hx0, hxW, hy0, hyH⟩ := hin
    have hiff := fillSteps_mask_iff hc hx (y := y) (nx := ((x : Int) + dx).toNat) (ny := ((y : Int) + dy).toNat)
      (by omega) (by omega)
    by_cases hv : ValidAt p x y ((x : Int) + dx).toNat ((y : Int) + dy).toNat
    · rw [if_pos ⟨hin, hv⟩, fillSteps_at_eq_filledImage (index_lt hx hy).le (hiff.2 hv), Option.map_some]
    · rw [if_neg fun h => hv h.2, Option.not_isSome_iff_eq_none.1 fun h => hv (hiff.1 h), Option.map_none]
  next hin => rw [if_neg fun h => hin h.1]

theorem filledImage_of_present (hpr : present p (phaseOf x y) = true) :
    Canvas.at cv (2 * qw) x y = some (filledImage (2 * qw) (2 * qh) cv x y) :=
  fillSteps_at_eq_filledImage (Nat.zero_le _) ((hc.mask x y hx hy).trans hpr)

/-- R142 and R147: a pixel of an absent phase ends as the weighted mean of a non-empty list of neighbours. -/
theorem filledImage_of_absent (hp : p ≠ 0) (habs : present p (phaseOf x y) = false) :
    rasterNeighbours p (2 * qw) (2 * qh) (filledImage (2 * qw) (2 * qh) cv) x y ≠ [] ∧
      filledImage (2 * qw) (2 * qh) cv x y =
        weightedMean (rasterNeighbours p (2 * qw) (2 * qh) (filledImage (2 * qw) (2 * qh) cv) x y) := by
  have hmask : Canvas.mask (fillSteps (2 * qw) (2 * qh) cv (y * (2 * qw) + x)).canvas (2 * qw) x y = false := by
    rw [← Bool.not_eq_true, fillSteps_mask_iff hc hx hx hy]
    simp [habs]
  have hne := fillSteps_fillable hp hc _ x y hx hy hmask
  have hat : Canvas.at (fillPass (2 * qw) (2 * qh) cv).canvas (2 * qw) x y =
      some (fillValue (2 * qw) (2 * qh) cv (y * (2 * qw) + x)).1 := by
    have hphase1 : (cv[y * (2 * qw) + x]?).join = none :=
      Option.not_isSome_iff_eq_none.1 (Bool.eq_false_iff.1 ((hc.mask x y hx hy).trans habs))
    have hlt := index_lt hx hy
    rw [fillPass_eq_steps, Canvas.at, fillSteps_entry hlt (by rw [hc.length]; exact hlt), hphase1]
    rfl
  rw [neighbours_fillSteps hc hx hy] at hne
  refine ⟨hne, ?_⟩
  conv_lhs => rw [filledImage, hat, Option.getD_some, fillValue, index_mod hx, index_div hx, neighbours_fillSteps hc hx hy,
    fill, if_neg hne]

end

/-! ### Coverage -/

/-- Settles O33: the canvas is the one of phase 1, and the pass has done the positions before (x, y). -/
theorem maskClosedForm : Obligations.MaskClosedForm := by
  intro p r m x y x' y' W H hx hy hx' hy'
  rw [foldl_take_grid_eq_steps _ (index_lt hx hy).le]
  exact fillSteps_mask_iff (scatter_scattered p r m) hx hx' hy'

theorem popcount_le (p : BitVec 4) : popcount p ≤ 4 := by revert p; decide

/-- Settles O34: the counters of the pass over a canvas of phase 1, and popcount(p) ≤ 4 for their sum with the supplied
pixels. -/
theorem inpaintTotalCoverage : Obligations.InpaintTotalCoverage := by
  intro p r m hp qw qh fs
  have hc := scatter_scattered p r m
  have hblacked : fs.blacked = 0 := fillPass_blacked hp hc
  have hfilled : fs.filled = (4 - popcount p) * qw * qh := fillPass_filled hp hc
  refine ⟨hblacked, hfilled, ?_, fun x y => fillPass_total hc⟩
  obtain ⟨n, hn⟩ := Nat.exists_eq_add_of_le (popcount_le p)
  calc fs.filled + fs.blacked + popcount p * qw * qh
      = (popcount p + n) * qw * qh := by rw [hblacked, hfilled, hn, Nat.add_sub_cancel_left]; ring
    _ = 2 * qw * (2 * qh) := by rw [← hn]; ring

/-- The second run step, where it ends the command with ERR = 0, reports how many pixels the pass set to BLACK (R36). -/
theorem blackCount_of_fillStep_ok {p : BitVec 4} {cv : Canvas} {st : State} (hr : st.Running (.reconInpaint p))
    (hi : (fillStep p cv st).phase = .idle) (he : (fillStep p cv st).regs.err = .ok) :
    (fillStep p cv st).regs.blackCount = BitVec.ofNat 32 (inpaintFill p st.regs cv).blacked := by
  obtain ⟨w, hp, -⟩ := hr
  rcases fillStep_cases p cv st with ⟨-, h⟩ | ⟨-, h⟩ | ⟨-, h⟩ <;> rw [h] at hi he ⊢
  · rfl
  · cases he
  · cases hp.symm.trans hi

/-- Settles O53: a supplied pixel of some phase lies in every window (R147), so the pass counts no BLACK pixel, and a command
that ends with ERR = 0 reports that count. -/
theorem blackCaseNeverOccurs : Obligations.BlackCaseNeverOccurs := by
  refine ⟨fun p r m n hp => ?_, fun p st t hr hv hcanvas h hi he => ?_⟩
  · intro W H fs
    have hc := scatter_scattered p r m
    have hfs : fs = fillSteps W H (scatter p r m) (min n (H * W)) := by
      rw [← foldl_take_grid_eq_steps _ (min_le_right ..), ← length_grid W H fun a b => (a, b), ← List.take_eq_take_min]
    rw [hfs]
    exact ⟨fillSteps_fillable hp hc _, fillSteps_blacked hp hc (min_le_right ..)⟩
  · have ⟨w, hphase, _⟩ := hr
    cases (exec_inpaint_fill p hphase hcanvas).symm.trans h
    rw [blackCount_of_fillStep_ok hr hi he, inpaintFill,
      fillPass_blacked (validateRecon_ok.1 hv.1).some (scatter_scattered p st.regs st.mem)]
    rfl

/-! ### The two run steps -/

section
variable {p : BitVec 4} {st : State} (hv : Validated (.reconInpaint p) st.regs) (ha : st.PixelsAnswer (.reconInpaint p))
include hv ha

theorem scatterStep_answers :
    scatterStep p st = st.setWork { st.work with canvas := some (scatter p st.regs st.mem) } := by
  rw [scatterStep, fate_done_of_answers (inpaintJob_fits (validateRecon_ok.1 hv.1)) ha]

theorem fillStep_answers (cv : Canvas) :
    fillStep p cv st = ((st.setMem (st.memDone (inpaintWrites p st.regs cv))).complete).setCounts
      (BitVec.ofNat 32 (inpaintFill p st.regs cv).filled) (BitVec.ofNat 32 (inpaintFill p st.regs cv).blacked) := by
  rw [fillStep, fate_done_of_answers (inpaintJob_fits (validateRecon_ok.1 hv.1)) ha]

end

/-- Settles O28: where every pixel word answers, the first run step only stores the scatter in the working state. -/
theorem inpaintScatters : Obligations.InpaintScatters := by
  intro p st ⟨w, hphase, _⟩ hv hcanvas ha
  refine ⟨scatter p st.regs st.mem, ?_, length_scatter p st.regs st.mem, fun x y => scatter_at⟩
  rw [exec_inpaint_scatter p hphase hcanvas, scatterStep_answers hv ha]
  rfl

/-- Settles O29: the written image is the final canvas, whose synthesized pixels are `filledImage_of_absent`'s. -/
theorem inpaintCompletes : Obligations.InpaintCompletes := by
  intro p st cv ⟨w, hphase, _⟩ hv hm hs ha hcanvas hlen hmask
  have hok := validateRecon_ok.1 hv.1
  have hc : Scattered p (quadDims p st.regs).1 (quadDims p st.regs).2 cv := ⟨hlen, hmask⟩
  have hjob : (jobOf (.reconInpaint p) st).writes = inpaintWrites p st.regs cv := by
    simp [jobOf, inpaintJob, State.canvas, hcanvas]
  refine ⟨st.memDone (inpaintWrites p st.regs cv),
    filledImage (2 * (quadDims p st.regs).1) (2 * (quadDims p st.regs).2) cv, ?_, fullCount_lt hok,
    fun x y hx hy => ⟨?_, filledImage_of_present hc hx hy, filledImage_of_absent hc hx hy hok.some⟩, fun a h => ?_⟩
  · rw [exec_inpaint_fill p hphase hcanvas, fillStep_answers hv ha, inpaintFill, fillPass_filled hok.some hc,
      fillPass_blacked hok.some hc]
    rfl
  · rw [← hjob]
    exact memDone_jobOf hv.1 hm hs (hjob ▸ mem_grid.2 ⟨x, y, hx, hy, rfl⟩)
  · refine memDone_other fun e he => ?_
    obtain ⟨x, y, hx, hy, rfl⟩ := mem_grid.1 he
    exact h x y hx hy

end Sys2Proof.Machine
end

section
/-! The binary64 arithmetic of RECON.INPAINT: the rounding step (R139), the kernel table computed from RAW (R138), and the
spec's examples (R143, R151). -/

namespace Sys2Proof.Machine

/-! ### Rounding -/

/-- The quotient in units of its spacing, before the rounding, fits 53 bits. -/
theorem quotient_lt (n d : Nat) : n / (d * 2 ^ ((n / d).log2 - 52)) < 2 ^ 53 := by
  rw [← Nat.div_div_eq_div_mul, Nat.div_lt_iff_lt_mul (Nat.two_pow_pos _), ← Nat.pow_add]
  exact Nat.lt_log2_self.trans_le (Nat.pow_le_pow_right two_pos (by omega))

/-- Settles O36: the quotient is q units of its spacing and a remainder, and the remainder is compared with half a unit. -/
theorem roundsToNearestEven : Obligations.RoundsToNearestEven := by
  intro n d hd u
  have hlt := quotient_lt n d
  have hdiv := Nat.div_add_mod n (d * u)
  have hrem := Nat.mod_lt n (Nat.mul_pos hd (Nat.two_pow_pos _) : 0 < d * u)
  unfold roundDiv
  simp only [floorLog2_eq, Nat.shiftLeft_eq]
  change n / (d * u) < _ at hlt
  rw [Nat.mul_comm u d]
  generalize n / (d * u) = q at *
  generalize n % (d * u) = rem at *
  generalize d * u = D at *
  subst hdiv
  have hunits (k : Nat) : (2 * q + k) * D = 2 * (D * q) + k * D := by ring
  split
  next hup =>
    refine ⟨q + 1, rfl, hlt, ?_⟩
    rw [show 2 * (q + 1) + 1 = 2 * q + 3 from rfl, show 2 * (q + 1) = 2 * q + 2 from rfl, hunits, hunits]
    omega
  next hdown =>
    refine ⟨q, rfl, hlt.le, ?_⟩
    rw [show 2 * q * D = 2 * (D * q) by ring, hunits]
    omega

/-! ### The kernel table -/

theorem kernelSum_eq : kernelSum = .ofBits 0x4018ACFA6F2E1A85 := by decide +kernel

/-- Settles O37: each of the additions and divisions of R138 evaluated on the RAW values. -/
theorem kernelTableIsComputed : Obligations.KernelTableIsComputed := by
  refine ⟨kernelSum_eq, ?_, ?_⟩
  · rw [kernelSum_eq]
    decide +kernel
  · decide +kernel

/-! ### The examples -/

/-- The quotient of R151: rounding the product down puts it just below 11. -/
theorem quotient_single_neighbour :
    fdiv (channelSum Pixel.b [(kernel 1, ⟨0, 0, 0, 11⟩)]) (weightSum [(kernel 1, ⟨0, 0, 0, 11⟩)]) =
      .ofBits 0x4025FFFFFFFFFFFF := by decide +kernel

/-- The window of R143's example: the 24 neighbours of the centre of a 5 × 5 image of one pixel value. -/
def uniformWindow (v : Pixel) : List (F64 × Pixel) := neighbours (List.replicate 25 (some v)) 5 5 2 2

/-- The quotient of V-IN-7: 24 equal values of 255 come out above 255. -/
theorem quotient_white_window :
    fdiv (channelSum Pixel.a (uniformWindow ⟨255, 255, 255, 255⟩)) (weightSum (uniformWindow ⟨255, 255, 255, 255⟩)) =
      .ofBits 0x406FE00000000003 := by decide +kernel

/-- Settles O39: the quotients evaluated, then truncated and clamped. -/
theorem truncationArtefact : Obligations.TruncationArtefact :=
  ⟨quotient_single_neighbour, (congrArg clampTrunc quotient_single_neighbour).trans (by decide +kernel),
    ⟨by decide +kernel, quotient_white_window, (congrArg clampTrunc quotient_white_window).trans (by decide +kernel)⟩,
    by decide +kernel⟩

end Sys2Proof.Machine
end

section
/-! RAW against the real exponential (R138, step 1): exp(-1/2) from its Taylor sum, its powers, and the six significands. -/

namespace Sys2Proof.Machine

/-- A binary64 number whose 53-bit significand is within half a unit in the last place of the real number x. -/
def IsNearest (v : BitVec 64) (x : ℝ) : Prop :=
  ∃ m e : Nat, (F64.ofBits v).units = m * 2 ^ e ∧ 2 ^ 52 ≤ m ∧ m < 2 ^ 53 ∧ 2 * |x * 2 ^ 1074 - (m : ℝ) * 2 ^ e| ≤ 2 ^ e

/-- The significand of a normal binary64 number. -/
def significand (v : BitVec 64) : Nat := 2 ^ 52 + v.toNat % 2 ^ 52

/-- A normal number with a value below 2 is its significand times 2^-k, k counted from the exponent of 2^1074. -/
theorem units_ofBits_of_normal {v : BitVec 64} {k : Nat} (hk : v.toNat / 2 ^ 52 + k = 1075) (hk' : k ≤ 1074) :
    (F64.ofBits v).units = significand v * 2 ^ (1074 - k) := by
  have he : v.toNat / 2 ^ 52 ≠ 0 := by omega
  have hshift : v.toNat / 2 ^ 52 - 1 = 1074 - k := by omega
  simp only [F64.ofBits]
  rw [if_neg he, Nat.shiftLeft_eq, hshift, significand]

/-- "Nearest" (R138) with the unit of 2^-1074 divided out: the real number scaled by 2^k lies within 1/2 of the significand. -/
theorem nearest_of_scaled {v : BitVec 64} {k : Nat} {x : ℝ} (hk : v.toNat / 2 ^ 52 + k = 1075) (hk' : k ≤ 1074)
    (h : |x * 2 ^ k - significand v| ≤ 1 / 2) :
    IsNearest v x := by
  refine ⟨significand v, 1074 - k, units_ofBits_of_normal hk hk', Nat.le_add_right .., ?_, ?_⟩
  · have := Nat.mod_lt v.toNat (Nat.two_pow_pos 52)
    unfold significand
    omega
  · have hpow : (2 : ℝ) ^ 1074 = 2 ^ k * 2 ^ (1074 - k) := by rw [← pow_add, Nat.add_sub_cancel' hk']
    have hpos : (0 : ℝ) < 2 ^ (1074 - k) := by positivity
    calc 2 * |x * 2 ^ 1074 - (significand v : ℝ) * 2 ^ (1074 - k)|
        = 2 * |x * 2 ^ k - significand v| * 2 ^ (1074 - k) := by
          rw [hpow, ← mul_assoc, ← sub_mul, abs_mul, abs_of_pos hpos, mul_assoc]
      _ ≤ 1 * 2 ^ (1074 - k) := mul_le_mul_of_nonneg_right (by linarith) hpos.le
      _ = 2 ^ (1074 - k) := one_mul _

/-- exp(-1/2) to 64 bits after the point, by 18 terms of its Taylor sum. -/
theorem exp_neg_half_bounds :
    (11188515852577165299 / 2 ^ 64 : ℝ) ≤ Real.exp (-1 / 2) ∧ Real.exp (-1 / 2) ≤ 11188515852577165300 / 2 ^ 64 := by
  have h := abs_le.1 (Real.exp_bound (x := -1 / 2) (by norm_num [abs_le]) (n := 18) (by norm_num))
  norm_num [Finset.sum_range_succ, Nat.factorial, abs_of_neg] at h
  constructor <;> linarith

theorem exp_neg_half_pow (n : Nat) : Real.exp (-(n : ℝ) / 2) = Real.exp (-1 / 2) ^ n := by
  rw [← Real.exp_nat_mul]
  congr 1
  ring

/-- RAW(n) is nearest to exp(-n/2) where the n-th powers of the bounds of exp(-1/2), scaled, are within 1/2 of its
significand m. -/
theorem raw_nearest_of_pow {n : Nat} (k m : Nat) (hk : (rawBits n).toNat / 2 ^ 52 + k = 1075 ∧ k ≤ 1074)
    (hm : significand (rawBits n) = m)
    (hlo : (m : ℝ) - 1 / 2 ≤ (11188515852577165299 / 2 ^ 64 : ℝ) ^ n * 2 ^ k)
    (hhi : (11188515852577165300 / 2 ^ 64 : ℝ) ^ n * 2 ^ k ≤ m + 1 / 2) :
    IsNearest (rawBits n) (Real.exp (-(n : ℝ) / 2)) := by
  obtain ⟨hexplo, hexphi⟩ := exp_neg_half_bounds
  have hscale : (0 : ℝ) ≤ 2 ^ k := by positivity
  have hpowlo := mul_le_mul_of_nonneg_right (pow_le_pow_left₀ (by positivity) hexplo n) hscale
  have hpowhi := mul_le_mul_of_nonneg_right (pow_le_pow_left₀ (by positivity) hexphi n) hscale
  refine nearest_of_scaled hk.1 hk.2 ?_
  rw [exp_neg_half_pow, hm, abs_le]
  constructor <;> linarith

/-- Settles O38: the six significands against the powers of exp(-1/2). -/
theorem rawWeightsAreNearestToExp : Obligations.RawWeightsAreNearestToExp := by
  intro d2 hd
  simp only [List.mem_cons, List.not_mem_nil, or_false] at hd
  rcases hd with rfl | rfl | rfl | rfl | rfl | rfl
  · exact raw_nearest_of_pow 52 4503599627370496 (by decide) rfl (by norm_num) (by norm_num)
  · exact raw_nearest_of_pow 53 5463142506141194 (by decide) rfl (by norm_num) (by norm_num)
  · exact raw_nearest_of_pow 54 6627126856707896 (by decide) rfl (by norm_num) (by norm_num)
  · exact raw_nearest_of_pow 55 4875967449235916 (by decide) rfl (by norm_num) (by norm_num)
  · exact raw_nearest_of_pow 56 5914847507444773 (by decide) rfl (by norm_num) (by norm_num)
  · exact raw_nearest_of_pow 58 5279123486358772 (by decide) rfl (by norm_num) (by norm_num)

end Sys2Proof.Machine
end

section
/-! The error of the weighted mean (R150): each rounded operation is within a relative error of 2^-52 of the exact one, so
the quotient of at most 24 weighted sums is within one unit of the range of its values. -/

namespace Sys2Proof.Machine

/-! ### The error of one operation -/

/-- The spacing of 53-bit numbers at n/d is at most 1 or 2^-52 of n/d. -/
theorem spacing_le (n d : Nat) : 2 ^ 52 * (2 ^ ((n / d).log2 - 52) * d) ≤ n + 2 ^ 52 * d := by
  by_cases hsmall : (n / d).log2 ≤ 52
  · rw [Nat.sub_eq_zero_of_le hsmall, pow_zero, one_mul]
    omega
  · have hne : n / d ≠ 0 := by rintro h; simp [h] at hsmall
    calc 2 ^ 52 * (2 ^ ((n / d).log2 - 52) * d) = 2 ^ (n / d).log2 * d := by
          rw [← mul_assoc, ← pow_add, Nat.add_sub_cancel' (by omega)]
      _ ≤ n / d * d := Nat.mul_le_mul_right _ (Nat.log2_self_le hne)
      _ ≤ n + 2 ^ 52 * d := (Nat.div_mul_le_self n d).trans (Nat.le_add_right ..)

/-- A rounded quotient is within half a unit and a relative error of 2^-53 of the exact one. -/
theorem roundDiv_error (n : Nat) {d : Nat} (hd : 0 < d) :
    (1 - 1 / 2 ^ 53) * n - d / 2 ≤ (roundDiv n d * d : ℚ) ∧ (roundDiv n d * d : ℚ) ≤ (1 + 1 / 2 ^ 53) * n + d / 2 := by
  obtain ⟨q, hq, -, hlo, hhi, -⟩ := roundsToNearestEven n d hd
  have hsp := spacing_le n d
  generalize 2 ^ ((n / d).log2 - 52) = u at *
  rw [hq]
  have hlo' : (2 * n : ℚ) ≤ (2 * q + 1) * (u * d) := mod_cast hlo
  have hhi' : (2 * q * (u * d) : ℚ) ≤ 2 * n + u * d := mod_cast hhi
  have hsp' : (2 ^ 52 * (u * d) : ℚ) ≤ n + 2 ^ 52 * d := mod_cast hsp
  push_cast
  constructor <;> linarith

/-- The relative error of one operation, with room: ε of the bounds below. -/
def relError : ℚ := 1 / 2 ^ 52

theorem fadd_error (a b : F64) : (1 - relError) * (a.units + b.units) ≤ (fadd a b).units ∧
    ((fadd a b).units : ℚ) ≤ (1 + relError) * (a.units + b.units) := by
  have hcast : ((a.units + b.units : Nat) : ℚ) = a.units + b.units := Nat.cast_add ..
  rw [← hcast]
  simp only [fadd, relError]
  generalize a.units + b.units = n
  by_cases hn : n < 2 ^ 53
  · rw [roundDiv_one n hn]
    have : (0 : ℚ) ≤ n := Nat.cast_nonneg n
    constructor <;> linarith
  · obtain ⟨hlo, hhi⟩ := roundDiv_error n one_pos
    have : (2 ^ 53 : ℚ) ≤ n := mod_cast Nat.not_lt.1 hn
    push_cast at hlo hhi
    constructor <;> linarith

/-- 1.0 is far above the smallest binary64 number, which is the unit. -/
theorem F64.one_ge : 2 ^ 60 ≤ F64.one := by decide +kernel

theorem F64.one_pos : 0 < F64.one := (Nat.two_pow_pos 60).trans_le F64.one_ge

/-- The rounding error of a product relative to its weight, with room. -/
def slack : ℚ := 1 / 2 ^ 40

theorem fdiv_units (x y : F64) : (fdiv x y).units = roundDiv (x.units * F64.one) y.units := by rw [fdiv]

theorem fmul_units (x y : F64) : (fmul x y).units = roundDiv (x.units * y.units) F64.one := by rw [fmul]

/-- A weight that is not tiny times a channel value. -/
theorem fmul_f64_error {w : F64} {c : Nat} (hw : 2 ^ 60 ≤ w.units) (hc : c ≤ 255) :
    (c - slack) * w.units ≤ (fmul w (f64 c)).units ∧ ((fmul w (f64 c)).units : ℚ) ≤ (c + slack) * w.units := by
  have hone : (0 : ℚ) < F64.one := mod_cast F64.one_pos
  obtain ⟨hlo, hhi⟩ := roundDiv_error (w.units * (f64 c).units) F64.one_pos
  have hprod : ((w.units * (f64 c).units : Nat) : ℚ) = w.units * c * F64.one := by push_cast [f64]; ring
  have hw' : (2 ^ 60 : ℚ) ≤ w.units := mod_cast hw
  have hwc : (w.units * c : ℚ) ≤ w.units * 255 := mul_le_mul_of_nonneg_left (mod_cast hc) (Nat.cast_nonneg _)
  rw [hprod] at hlo hhi
  rw [fmul_units, slack]
  generalize roundDiv (w.units * (f64 c).units) F64.one = r at *
  have hlo' : (1 - 1 / 2 ^ 53) * (w.units * c) - 1 / 2 ≤ (r : ℚ) := le_of_mul_le_mul_right (by linarith) hone
  have hhi' : (r : ℚ) ≤ (1 + 1 / 2 ^ 53) * (w.units * c) + 1 / 2 := le_of_mul_le_mul_right (by linarith) hone
  constructor <;> linarith

section
variable (x : F64) {y : F64} {t : ℚ} (hy : 0 < y.units)
include hy

theorem fdiv_error :
    (1 - 1 / 2 ^ 53) * (x.units * F64.one) - y.units / 2 ≤ ((fdiv x y).units * y.units : ℚ) ∧
      ((fdiv x y).units * y.units : ℚ) ≤ (1 + 1 / 2 ^ 53) * (x.units * F64.one) + y.units / 2 := by
  rw [fdiv_units, ← Nat.cast_mul x.units]
  exact roundDiv_error _ hy

variable {x}

theorem fdiv_le (h : (x.units : ℚ) ≤ t * y.units) : ((fdiv x y).units : ℚ) ≤ (1 + 1 / 2 ^ 53) * (t * F64.one) + 1 / 2 := by
  have hscaled := mul_le_mul_of_nonneg_right h (Nat.cast_nonneg F64.one)
  refine le_of_mul_le_mul_right ?_ (Nat.cast_pos.2 hy)
  linarith [(fdiv_error x hy).2]

theorem le_fdiv (h : t * y.units ≤ (x.units : ℚ)) : (1 - 1 / 2 ^ 53) * (t * F64.one) - 1 / 2 ≤ ((fdiv x y).units : ℚ) := by
  have hscaled := mul_le_mul_of_nonneg_right h (Nat.cast_nonneg F64.one)
  refine le_of_mul_le_mul_right ?_ (Nat.cast_pos.2 hy)
  linarith [(fdiv_error x hy).1]

end

/-! ### Sums -/

/-- By how much one `fadd` on each side can worsen a bound between two sums. -/
def growth : ℚ := 1 + 1 / 2 ^ 50

theorem one_le_growth : 1 ≤ growth := by norm_num [growth]

theorem fadd_le_fadd {a a' b b' : F64} {t : ℚ} (ht : 0 ≤ t) (h : (a.units : ℚ) ≤ t * b.units)
    (h' : (a'.units : ℚ) ≤ t * b'.units) : ((fadd a a').units : ℚ) ≤ t * growth * (fadd b b').units := by
  have hgrowth : 1 + relError ≤ growth * (1 - relError) := by norm_num [relError, growth]
  have hexact : (0 : ℚ) ≤ t * (b.units + b'.units) := by positivity
  calc ((fadd a a').units : ℚ) ≤ (1 + relError) * (a.units + a'.units) := (fadd_error a a').2
    _ ≤ (1 + relError) * (t * (b.units + b'.units)) :=
      mul_le_mul_of_nonneg_left (by linarith) (by norm_num [relError])
    _ ≤ growth * (1 - relError) * (t * (b.units + b'.units)) := mul_le_mul_of_nonneg_right hgrowth hexact
    _ = t * growth * ((1 - relError) * (b.units + b'.units)) := by ring
    _ ≤ t * growth * (fadd b b').units :=
      mul_le_mul_of_nonneg_left (fadd_error b b').1 (mul_nonneg ht (zero_le_one.trans one_le_growth))

/-- `fadd` over the values of a list, in order, from z (R142). -/
def sumFrom {α : Type} (f : α → F64) (l : List α) (z : F64) : F64 := l.foldl (fun acc e => fadd acc (f e)) z

theorem weightSum_eq (ns : List (F64 × Pixel)) : weightSum ns = sumFrom Prod.fst ns .zero := rfl

theorem channelSum_eq (c : Pixel → Byte) (ns : List (F64 × Pixel)) :
    channelSum c ns = sumFrom (fun e => fmul e.1 (f64 (c e.2).toNat)) ns .zero := rfl

/-- Termwise bounds pass to rounded sums, with a factor for each addition. -/
theorem sumFrom_le {α : Type} {f g : α → F64} {l : List α} {t : ℚ} {a b : F64} (ht : 0 ≤ t)
    (h : ∀ e ∈ l, ((f e).units : ℚ) ≤ t * (g e).units) (hab : (a.units : ℚ) ≤ t * b.units) :
    ((sumFrom f l a).units : ℚ) ≤ t * growth ^ l.length * (sumFrom g l b).units := by
  induction l generalizing t a b with
  | nil => simpa [sumFrom] using hab
  | cons e l ih =>
    have hgrow : t ≤ t * growth := le_mul_of_one_le_right ht one_le_growth
    have htail : ∀ e' ∈ l, ((f e').units : ℚ) ≤ t * growth * (g e').units := fun e' he' =>
      (h e' (List.mem_cons_of_mem _ he')).trans (mul_le_mul_of_nonneg_right hgrow (Nat.cast_nonneg _))
    rw [List.length_cons, pow_succ', ← mul_assoc]
    exact ih (ht.trans hgrow) htail (fadd_le_fadd ht hab (h e (List.mem_cons_self ..)))

/-- A sum is positive if its last term is. -/
theorem sumFrom_pos {α : Type} {f : α → F64} {l : List α} (z : F64) (hne : l ≠ []) (h : ∀ e ∈ l, 0 < (f e).units) :
    0 < (sumFrom f l z).units := by
  obtain ⟨init, e, rfl⟩ := (List.eq_nil_or_concat' l).resolve_left hne
  have he : (0 : ℚ) < (f e).units := mod_cast h e (List.mem_concat_self ..)
  rw [sumFrom, List.foldl_concat]
  generalize init.foldl _ z = s
  have hs : (0 : ℚ) ≤ s.units := Nat.cast_nonneg _
  have hpos : (0 : ℚ) < (fadd s (f e)).units :=
    (mul_pos (by norm_num [relError]) (by linarith)).trans_le (fadd_error s (f e)).1
  exact mod_cast hpos

/-! ### The mean -/

/-- Every weight of a neighbour is far above the smallest binary64 number. -/
theorem kernel_units_ge : ∀ d2 ∈ [1, 2, 4, 5, 8], 2 ^ 60 ≤ (kernel d2).units := by decide +kernel

theorem toNat_clampTrunc (q : F64) : (clampTrunc q).toNat = min q.units (255 * F64.one) / F64.one := by
  have hle : min q.units (255 * F64.one) / F64.one ≤ 255 :=
    Nat.div_le_of_le_mul (by rw [Nat.mul_comm F64.one]; exact Nat.min_le_right ..)
  exact (BitVec.toNat_ofNat ..).trans (Nat.mod_eq_of_lt (Nat.lt_succ_of_le hle))

theorem clampTrunc_le {q : F64} {n : Nat} (h : q.units < (n + 1) * F64.one) : (clampTrunc q).toNat ≤ n := by
  rw [toNat_clampTrunc]
  exact Nat.le_of_lt_succ ((Nat.div_lt_iff_lt_mul F64.one_pos).2 ((min_le_left ..).trans_lt h))

theorem le_clampTrunc {q : F64} {n : Nat} (hn : n ≤ 255) (h : n * F64.one ≤ q.units) : n ≤ (clampTrunc q).toNat := by
  rw [toNat_clampTrunc, Nat.le_div_iff_mul_le F64.one_pos]
  exact le_min h (Nat.mul_le_mul_right _ hn)

/-- The factor of 24 additions. -/
theorem growth_pow_le {n : Nat} (hn : n ≤ 24) : growth ^ n ≤ 1 + 1 / 2 ^ 45 :=
  (pow_le_pow_right₀ one_le_growth hn).trans (by norm_num [growth])

section
variable {c : Pixel → Byte} {ns : List (F64 × Pixel)} {lo hi : Nat}
  (h : ∀ e ∈ ns, (∃ d2 ∈ [1, 2, 4, 5, 8], e.1 = kernel d2) ∧ lo ≤ (c e.2).toNat ∧ (c e.2).toNat ≤ hi)
include h

theorem weight_ge {e : F64 × Pixel} (he : e ∈ ns) : 2 ^ 60 ≤ e.1.units := by
  obtain ⟨⟨d2, hd2, hk⟩, -⟩ := h e he
  rw [hk]
  exact kernel_units_ge d2 hd2

theorem weightSum_pos (hne : ns ≠ []) : 0 < (weightSum ns).units :=
  sumFrom_pos _ hne fun _ he => (Nat.two_pow_pos 60).trans_le (weight_ge h he)

theorem product_bounds {e : F64 × Pixel} (he : e ∈ ns) :
    (lo - slack) * e.1.units ≤ ((fmul e.1 (f64 (c e.2).toNat)).units : ℚ) ∧
      ((fmul e.1 (f64 (c e.2).toNat)).units : ℚ) ≤ (hi + slack) * e.1.units := by
  obtain ⟨-, hlo, hhi⟩ := h e he
  obtain ⟨hmlo, hmhi⟩ := fmul_f64_error (weight_ge h he) (Nat.le_of_lt_succ (c e.2).isLt)
  have hlo' : (lo : ℚ) ≤ (c e.2).toNat := mod_cast hlo
  have hhi' : ((c e.2).toNat : ℚ) ≤ hi := mod_cast hhi
  have hw : (0 : ℚ) ≤ e.1.units := Nat.cast_nonneg _
  exact ⟨(mul_le_mul_of_nonneg_right (by linarith) hw).trans hmlo, hmhi.trans (mul_le_mul_of_nonneg_right (by linarith) hw)⟩

variable (hlen : ns.length ≤ 24)
include hlen

theorem channelSum_le : ((channelSum c ns).units : ℚ) ≤ (hi + slack) * (1 + 1 / 2 ^ 45) * (weightSum ns).units := by
  have hpos : (0 : ℚ) ≤ hi + slack := by unfold slack; positivity
  have hsum := sumFrom_le hpos (fun e he => (product_bounds h he).2) (a := .zero) (b := .zero) (by simp [F64.zero])
  rw [channelSum_eq, weightSum_eq]
  exact hsum.trans <| mul_le_mul_of_nonneg_right (mul_le_mul_of_nonneg_left (growth_pow_le hlen) hpos) (Nat.cast_nonneg _)

theorem le_channelSum (hlo : 1 ≤ lo) :
    (lo - slack) * (1 - 1 / 2 ^ 45) * (weightSum ns).units ≤ ((channelSum c ns).units : ℚ) := by
  have hpos : 0 < lo - slack := by
    have : (1 : ℚ) ≤ lo := mod_cast hlo
    norm_num [slack]
    linarith
  have hterm : ∀ e ∈ ns, (e.1.units : ℚ) ≤ (lo - slack)⁻¹ * (fmul e.1 (f64 (c e.2).toNat)).units := fun e he =>
    (le_inv_mul_iff₀ hpos).2 (product_bounds h he).1
  have hsum := sumFrom_le (inv_nonneg.2 hpos.le) hterm (a := .zero) (b := .zero) (by simp [F64.zero])
  rw [← channelSum_eq, ← weightSum_eq, mul_assoc, le_inv_mul_iff₀ hpos] at hsum
  have hnum : (0 : ℚ) ≤ (channelSum c ns).units := Nat.cast_nonneg _
  have hgrowth := mul_le_mul_of_nonneg_right (growth_pow_le hlen) hnum
  linarith

end

/-- Settles O35: the quotient is off by less than 1 from the range of the values, and truncation keeps it within [lo - 1, hi]. -/
theorem weightedMeanBounds : Obligations.WeightedMeanBounds := by
  intro c ns lo hi hne hlen h
  have hden := weightSum_pos h hne
  have hone : (2 ^ 60 : ℚ) ≤ F64.one := mod_cast F64.one_ge
  constructor
  · obtain ⟨e, he⟩ := List.exists_mem_of_ne_nil ns hne
    have hlo255 : lo ≤ 255 := (h e he).2.1.trans (Nat.le_of_lt_succ (c e.2).isLt)
    rcases Nat.eq_zero_or_pos lo with rfl | hpos
    · exact Nat.zero_le _
    · refine le_clampTrunc (by omega) ?_
      have hq := le_fdiv hden (le_channelSum h hlen hpos)
      have hlo' : (lo * F64.one : ℚ) ≤ 255 * F64.one := mul_le_mul_of_nonneg_right (mod_cast hlo255) (Nat.cast_nonneg _)
      have hle : ((lo - 1) * F64.one : ℚ) ≤ (fdiv (channelSum c ns) (weightSum ns)).units := by
        rw [slack] at hq
        linarith
      rw [← Nat.cast_pred hpos] at hle
      exact mod_cast hle
  · by_cases hhi : 255 ≤ hi
    · exact (Nat.le_of_lt_succ (channelMean c ns).isLt).trans hhi
    · refine clampTrunc_le ?_
      have hq := fdiv_le hden (channelSum_le h hlen)
      have hhi' : (hi * F64.one : ℚ) ≤ 254 * F64.one :=
        mul_le_mul_of_nonneg_right (mod_cast Nat.le_of_lt_succ (Nat.not_le.1 hhi)) (Nat.cast_nonneg _)
      have hlt : ((fdiv (channelSum c ns) (weightSum ns)).units : ℚ) < (hi + 1) * F64.one := by
        rw [slack] at hq
        linarith
      exact mod_cast hlt

end Sys2Proof.Machine
end

section
/-! Launch, validation and the error codes: what starts a command, what validation answers, and that no step stops a run
(R160, R171 to R173). -/

namespace Sys2Proof.Machine

/-! ### The launch -/

/-- Settles O8: CMD is guarded, so a write to it launches in IDLE and is ignored while busy. -/
theorem cmdWriteLaunches : Obligations.CmdWriteLaunches := by
  intro st w rest hin
  refine ⟨fun hi => ?_, fun hb => ⟨_, step_sw_guarded (by decide) hin hb (.inl rfl), rfl, rfl, rfl⟩⟩
  rw [step_sw_mapped (n := .cmd) (by decide) hin rfl, writeReg_cmd_idle (by exact hi)]
  rfl

/-! ### The error codes -/

/-- The number of an error code is its place in the list of R160. -/
theorem toNat_code (e : ErrCode) : e.code.toNat = e.ctorIdx := by cases e <;> rfl

theorem ErrCode.code_injective {e f : ErrCode} (h : e.code = f.code) : e = f := by
  have hidx : e.ctorIdx = f.ctorIdx := by rw [← toNat_code, ← toNat_code, h]
  rw [← ErrCode.ofNat_ctorIdx e, hidx, ErrCode.ofNat_ctorIdx]

theorem ErrCode.code_le (e : ErrCode) : e.code.toNat ≤ 8 := by cases e <;> decide

/-- Settles O14: the numbers are the list's places, so they tell the codes apart. -/
theorem errorCodeTable : Obligations.ErrorCodeTable :=
  ⟨rfl, rfl, rfl, rfl, rfl, rfl, rfl, rfl, rfl, fun e _ => ⟨e.code_le, ErrCode.code_injective⟩⟩

/-! ### Every step goes on -/

/-- The engine's step stops a run only in RUNNING with an illegal word (log 16). -/
theorem engineStep_next {st : State} (h : ∀ w, st.phase = .running w → ∃ i, decode w = .ok i) :
    ∃ t, engineStep st = .next t := by
  cases hp : st.phase with
  | idle => exact ⟨_, engineStep_idle hp⟩
  | pending w =>
    cases hd : decode w with
    | error k => exact ⟨_, engineStep_illegal hp hd⟩
    | ok i =>
      rw [engineStep_legal (by rw [hp]; rfl) hd]
      exact exec_next i st
  | running w =>
    obtain ⟨i, hd⟩ := h w hp
    rw [engineStep_legal (by rw [hp]; rfl) hd]
    exact exec_next i st

/-- Settles O51: a step of the host or of the reset input always goes on, and in a state of the invariant the engine's
does. -/
theorem everyStepGoesOn : Obligations.EveryStepGoesOn := by
  intro st hinv
  have hlegal : ∀ w, st.phase = .running w → ∃ i, decode w = .ok i := fun w hp => by
    obtain ⟨i, hd, -⟩ := hinv.validated w hp
    exact ⟨i, hd⟩
  cases hin : st.inputs with
  | nil =>
    rw [step_nil hin]
    exact engineStep_next hlegal
  | cons ev rest =>
    cases ev with
    | engine =>
      rw [step_engine hin]
      exact engineStep_next (by exact hlegal)
    | rst => exact ⟨_, step_rst hin⟩
    | sw off size v => exact ⟨_, step_sw hin⟩
    | lw off size => exact ⟨_, step_lw hin⟩
    | mw n v => exact ⟨_, step_mw hin⟩
    | mr n => exact ⟨_, step_mr hin⟩
    | mwByte a b => exact ⟨_, step_mwByte hin⟩
    | mrByte a => exact ⟨_, step_mrByte hin⟩
    | wait => exact ⟨_, step_wait hin⟩
    | breach d => exact ⟨_, step_breach hin⟩

/-! ### The validation step -/

/-- Settles O22: a failing validation is the end with its code, a passing one the write-back of the command. -/
theorem validationStep : Obligations.ValidationStep := by
  intro st w i hp _
  rw [exec_pending i hp]
  refine ⟨fun hv => by rw [validateStep_error w hv]; rfl, fun hv => ?_⟩
  refine ⟨writeBack i st.regs, by rw [validateStep_ok w hv], ?_, ?_⟩
  · rintro rfl
    exact ⟨writeBackSplit_q st.regs, writeBackSplit_eq st.regs⟩
  · rintro p (rfl | rfl | rfl) <;> rfl

end Sys2Proof.Machine
end

section
/-! The order of the checks of validation (R171): each check in the terms of the rule, then the chain of them. -/

namespace Sys2Proof.Machine

theorem validateWord_of_decode {w : Word} {i : Instr} (hd : decode w = .ok i) (r : Regs) :
    validateWord w r = validate i r := by
  rw [validateWord, hd]

theorem validateWord_illegal {w : Word} {k : Illegal} (hd : decode w = .error k) (r : Regs) :
    validateWord w r = .illegalCmd := by
  rw [validateWord, hd]

/-! ### The checks of SPLIT -/

theorem splitParts_legal_iff {r : Regs} : (∀ part ∈ splitParts r, part.Legal) ↔
    Legal r.s r.s.width.toNat r.s.height.toNat ∧ ∀ i, Legal (r.q i) (r.s.width.toNat / 2) (r.s.height.toNat / 2) := by
  simp only [splitParts, List.forall_mem_cons, List.forall_mem_map, mem_quads, forall_true_left]

/-- A symmetric relation holds along the list of the quadrants exactly when it holds between any two different ones. -/
theorem pairwise_quads_iff {R : Quad → Quad → Prop} (hR : ∀ i j, R i j → R j i) :
    quads.Pairwise R ↔ ∀ i j, i ≠ j → R i j := by
  have hsymm : Std.Symm R := ⟨hR⟩
  refine ⟨fun h i j => h.forall (mem_quads i) (mem_quads j), fun h => ?_⟩
  exact List.Pairwise.imp (h _ _) (by decide)

theorem splitParts_apart_iff {r : Regs} : (splitParts r).Pairwise (fun a b => ¬ a.Overlaps b) ↔
    (∀ i, ¬ (⟨r.s, r.s.width.toNat, r.s.height.toNat, false⟩ : Part).Overlaps
      ⟨r.q i, r.s.width.toNat / 2, r.s.height.toNat / 2, true⟩) ∧
    ∀ i j, i ≠ j → ¬ (⟨r.q i, r.s.width.toNat / 2, r.s.height.toNat / 2, true⟩ : Part).Overlaps
      ⟨r.q j, r.s.width.toNat / 2, r.s.height.toNat / 2, true⟩ := by
  rw [splitParts, List.pairwise_cons, List.forall_mem_map, List.pairwise_map, pairwise_quads_iff fun _ _ h ho => h ho.symm]
  simp only [mem_quads, forall_true_left]

/-! ### The checks of RECON.* -/

theorem lowest_le {p : BitVec 4} {j : Quad} (hj : present p j = true) : lowest p ≤ j := by
  revert p j; decide

/-- The present quadrants differ from the lowest-numbered one exactly when two of them differ. -/
theorem mismatch_iff {p : BitVec 4} (hp : p ≠ 0) {r : Regs} :
    (∃ i ∈ presentQuads p, ((r.q i).width.toNat, (r.q i).height.toNat) ≠ quadDims p r) ↔
      ∃ i j, present p i = true ∧ present p j = true ∧
        ((r.q i).width ≠ (r.q j).width ∨ (r.q i).height ≠ (r.q j).height) := by
  have differ : ∀ i j, ((r.q i).width.toNat, (r.q i).height.toNat) ≠ ((r.q j).width.toNat, (r.q j).height.toNat) ↔
      (r.q i).width ≠ (r.q j).width ∨ (r.q i).height ≠ (r.q j).height := fun i j => by
    rw [Ne, Prod.mk.injEq, BitVec.toNat_inj, BitVec.toNat_inj, not_and_or]
  simp only [quadDims, mem_presentQuads, ← differ]
  constructor
  · rintro ⟨i, hi, hne⟩
    exact ⟨i, lowest p, hi, present_lowest hp, hne⟩
  · rintro ⟨i, j, hi, hj, hne⟩
    by_contra hcon
    simp only [not_exists, not_and, not_not] at hcon
    exact hne ((hcon i hi).trans (hcon j hj).symm)

theorem reconParts_legal_iff {p : BitVec 4} {r : Regs} :
    (∀ part ∈ outPart p r :: inParts (presentQuads p) p r, part.Legal) ↔
      Legal r.s (2 * (quadDims p r).1) (2 * (quadDims p r).2) ∧
      ∀ i, present p i = true → Legal (r.q i) (quadDims p r).1 (quadDims p r).2 := by
  simp only [inParts, outPart, List.forall_mem_cons, List.forall_mem_map, mem_presentQuads]

theorem inParts_overlap_iff {p : BitVec 4} {r : Regs} :
    (∃ part ∈ inParts (presentQuads p) p r, (outPart p r).Overlaps part) ↔
      ∃ i, present p i = true ∧
        (outPart p r).Overlaps ⟨r.q i, (quadDims p r).1, (quadDims p r).2, false⟩ := by
  simp only [inParts, List.mem_map, exists_exists_and_eq_and, mem_presentQuads]

/-- The words of the three RECON.* commands are validated alike, but for the check that RECON.EXACT needs all quadrants. -/
theorem validateWord_recon {w : Word} {p : BitVec 4}
    (hd : decode w = .ok (.reconExact p) ∨ decode w = .ok (.reconHeur p) ∨ decode w = .ok (.reconInpaint p)) (r : Regs) :
    ∃ e, validateWord w r = validateRecon e p r ∧ (e = true ↔ decode w = .ok (.reconExact p)) := by
  rcases hd with hd | hd | hd
  · exact ⟨true, validateWord_of_decode hd r, by simp [hd]⟩
  · exact ⟨false, validateWord_of_decode hd r, by simp [hd]⟩
  · exact ⟨false, validateWord_of_decode hd r, by simp [hd]⟩

theorem validateRecon_noInput {e : Bool} {p : BitVec 4} (hp : p = 0) (r : Regs) : validateRecon e p r = .noInput := if_pos hp

/-! ### The order -/

/-- R171 for SPLIT, the three checks named by propositions. -/
theorem validateSplit_order (r : Regs) {dims desc ov : Prop}
    (hdims : dims ↔ r.s.width.toNat = 0 ∨ r.s.height.toNat = 0 ∨ r.s.width.toNat % 2 = 1 ∨ r.s.height.toNat % 2 = 1)
    (hdesc : desc ↔ ¬ ∀ part ∈ splitParts r, part.Legal)
    (hov : ov ↔ ¬ (splitParts r).Pairwise fun a b => ¬ a.Overlaps b) :
    (dims → validateSplit r = .invalidDimensions) ∧ (¬ dims → desc → validateSplit r = .invalidDescriptor) ∧
    (¬ dims → ¬ desc → ov → validateSplit r = .overlap) ∧ (¬ dims → ¬ desc → ¬ ov → validateSplit r = .ok) := by
  classical
  have chain : validateSplit r = if dims then .invalidDimensions else if desc then .invalidDescriptor
      else if ov then .overlap else .ok :=
    if_congr hdims.symm rfl (if_congr hdesc.symm rfl (if_congr hov.symm rfl rfl))
  rw [chain]
  refine ⟨fun h => if_pos h, fun h h₁ => ?_, fun h h₁ h₂ => ?_, fun h h₁ h₂ => ?_⟩ <;> rw [if_neg h]
  · rw [if_pos h₁]
  · rw [if_neg h₁, if_pos h₂]
  · rw [if_neg h₁, if_neg h₂]

/-- R171 for RECON.* with a mask other than 0, the five checks named by propositions. -/
theorem validateRecon_order {e : Bool} {p : BitVec 4} (hp : p ≠ 0) (r : Regs) {inc mis dims desc ov : Prop}
    (hinc : inc ↔ e = true ∧ p ≠ 0b1111)
    (hmis : mis ↔ ∃ i ∈ presentQuads p, ((r.q i).width.toNat, (r.q i).height.toNat) ≠ quadDims p r)
    (hdims : dims ↔ (quadDims p r).1 = 0 ∨ (quadDims p r).2 = 0 ∨ 0x7FFF < (quadDims p r).1 ∨ 0x7FFF < (quadDims p r).2)
    (hdesc : desc ↔ ¬ ∀ part ∈ outPart p r :: inParts (presentQuads p) p r, part.Legal)
    (hov : ov ↔ ∃ part ∈ inParts (presentQuads p) p r, (outPart p r).Overlaps part) :
    (inc → validateRecon e p r = .incompleteInput) ∧ (¬ inc → mis → validateRecon e p r = .dimensionMismatch) ∧
    (¬ inc → ¬ mis → dims → validateRecon e p r = .invalidDimensions) ∧
    (¬ inc → ¬ mis → ¬ dims → desc → validateRecon e p r = .invalidDescriptor) ∧
    (¬ inc → ¬ mis → ¬ dims → ¬ desc → ov → validateRecon e p r = .overlap) ∧
    (¬ inc → ¬ mis → ¬ dims → ¬ desc → ¬ ov → validateRecon e p r = .ok) := by
  classical
  have chain : validateRecon e p r = if inc then .incompleteInput else if mis then .dimensionMismatch
      else if dims then .invalidDimensions else if desc then .invalidDescriptor else if ov then .overlap else .ok :=
    (if_neg hp).trans <| if_congr hinc.symm rfl <| if_congr hmis.symm rfl <| if_congr hdims.symm rfl <|
      if_congr hdesc.symm rfl <| if_congr hov.symm rfl rfl
  rw [chain]
  refine ⟨fun h => if_pos h, fun h h₁ => ?_, fun h h₁ h₂ => ?_, fun h h₁ h₂ h₃ => ?_, fun h h₁ h₂ h₃ h₄ => ?_,
    fun h h₁ h₂ h₃ h₄ => ?_⟩ <;> rw [if_neg h]
  · rw [if_pos h₁]
  · rw [if_neg h₁, if_pos h₂]
  · rw [if_neg h₁, if_neg h₂, if_pos h₃]
  · rw [if_neg h₁, if_neg h₂, if_neg h₃, if_pos h₄]
  · rw [if_neg h₁, if_neg h₂, if_neg h₃, if_neg h₄]

/-- Settles O21: the chain of checks of each branch, each check read as the rule states it. -/
theorem validationOrder : Obligations.ValidationOrder := by
  refine ⟨fun w r k hd => validateWord_illegal hd r, fun w r hd dims desc ov hdims hdesc hov => ?_, ?_⟩
  · rw [validateWord_of_decode hd]
    refine validateSplit_order r hdims ?_ ?_
    · rw [hdesc, splitParts_legal_iff]
      exact (not_and_or.trans (or_congr_right not_forall)).symm
    · rw [hov, splitParts_apart_iff]
      refine (or_congr ?_ ?_).trans not_and_or.symm <;> simp only [not_forall, exists_prop, not_not]
  · intro w r p hd qw qh inc mis dims desc ov hq hinc hmis hdims hdesc hov
    obtain ⟨e, hw, he⟩ := validateWord_recon hd r
    rw [hw]
    by_cases hp : p = 0
    · simp only [hp, ne_eq, not_true_eq_false, false_imp_iff, and_true, forall_true_left]
      exact validateRecon_noInput rfl r
    · obtain ⟨rfl, rfl⟩ := hq (lowest p) (present_lowest hp) fun _ => lowest_le
      simp only [hp, ne_eq, not_false_eq_true, false_imp_iff, true_and, forall_true_left]
      refine validateRecon_order hp r (hinc.trans (and_congr_left' he.symm)) (hmis.trans (mismatch_iff hp).symm) hdims ?_ ?_
      · rw [hdesc, reconParts_legal_iff, or_comm]
        refine (or_congr_right ?_).trans not_and_or.symm
        simp only [not_forall, exists_prop, quadDims]
      · rw [hov, inParts_overlap_iff]
        rfl

end Sys2Proof.Machine
end

section
/-! The end with BUS_ERROR: which accesses end a run with it, and what it leaves (R35, R80, R170, R175, R176). -/

namespace Sys2Proof.Machine

/-! ### The accesses of a command -/

theorem parts_recon_cases {i : Instr} {p : BitVec 4} {r : Regs}
    (hi : i = .reconExact p ∨ i = .reconHeur p ∨ i = .reconInpaint p) (hv : validate i r = .ok) {part : Part}
    (h : part ∈ parts i r) : part = outPart p r ∨
      ∃ j, present p j = true ∧ part = ⟨r.q j, (quadDims p r).1, (quadDims p r).2, false⟩ := by
  have input : ∀ qs : List Quad, (∀ j ∈ qs, present p j = true) → part ∈ outPart p r :: inParts qs p r →
      part = outPart p r ∨ ∃ j, present p j = true ∧ part = ⟨r.q j, (quadDims p r).1, (quadDims p r).2, false⟩ := by
    intro qs hqs hmem
    refine (List.mem_cons.1 hmem).imp_right fun hin => ?_
    obtain ⟨j, hj, rfl⟩ := List.mem_map.1 hin
    exact ⟨j, hqs j hj, rfl⟩
  rcases hi with rfl | rfl | rfl <;> have hok := validateRecon_ok.1 hv <;> rw [parts, if_neg hok.some] at h
  · exact input quads (fun j _ => by rw [hok.all rfl]; exact present_all j) h
  · exact input (presentQuads p) (fun j => mem_presentQuads.1) h
  · exact input (presentQuads p) (fun j => mem_presentQuads.1) h

theorem recon_reads_mem {i : Instr} {p : BitVec 4} {st : State}
    (hi : i = .reconExact p ∨ i = .reconHeur p ∨ i = .reconInpaint p) {j : Quad} (hj : present p j = true) {x y : Nat}
    (hx : x < (quadDims p st.regs).1) (hy : y < (quadDims p st.regs).2) : addr (st.regs.q j) x y ∈ (jobOf i st).reads := by
  have hgrid : addr (st.regs.q j) x y ∈ grid (quadDims p st.regs).1 (quadDims p st.regs).2 fun qx qy =>
      addr (st.regs.q j) qx qy :=
    mem_grid.2 ⟨x, y, hx, hy, rfl⟩
  rcases hi with rfl | rfl | rfl
  · exact List.mem_flatMap.2 ⟨j, mem_quads j, hgrid⟩
  · exact List.mem_flatMap.2 ⟨j, mem_presentQuads.2 hj, hgrid⟩
  · exact List.mem_flatMap.2 ⟨j, mem_presentQuads.2 hj, hgrid⟩

/-- The final value of an output word is the one that the memory work gives it. -/
theorem mem_writes_of_final {i : Instr} {st : State} {a : Nat} {v : Word} (h : st.Final i a v) :
    (a, v) ∈ (jobOf i st).writes := by
  cases i with
  | split =>
    obtain ⟨j, qx, qy, hx, hy, rfl, rfl⟩ := h
    exact splitJob_writes_mem.2 ⟨j, qx, qy, hx, hy, rfl⟩
  | reconExact p =>
    obtain ⟨x, y, hx, hy, rfl, rfl⟩ := h
    exact exactJob_writes_mem.2 ⟨x, y, hx, hy, rfl⟩
  | reconHeur p =>
    obtain ⟨x, y, hx, hy, rfl, rfl⟩ := h
    refine heurJob_writes_mem.2 ⟨phaseOf x y, x / 2, y / 2, by omega, by omega, ?_⟩
    rw [fullX_phase, fullY_phase, heurBlock_candidates_eq]
  | reconInpaint p =>
    obtain ⟨x, y, hx, hy, rfl, o, ho, rfl⟩ := h
    refine mem_grid.2 ⟨x, y, hx, hy, ?_⟩
    rw [ho, Option.getD_some, pixWrite]

theorem recon_writes_mem {i : Instr} {p : BitVec 4} {st : State}
    (hi : i = .reconExact p ∨ i = .reconHeur p ∨ i = .reconInpaint p) {x y : Nat}
    (hx : x < 2 * (quadDims p st.regs).1) (hy : y < 2 * (quadDims p st.regs).2) :
    ∃ v, (addr st.regs.s x y, v) ∈ (jobOf i st).writes := by
  rcases hi with rfl | rfl | rfl
  · exact ⟨_, mem_writes_of_final (i := .reconExact p) ⟨x, y, hx, hy, rfl, rfl⟩⟩
  · exact ⟨_, mem_writes_of_final (i := .reconHeur p) ⟨x, y, hx, hy, rfl, rfl⟩⟩
  · exact ⟨_, mem_grid.2 ⟨x, y, hx, hy, rfl⟩⟩

/-- The memory work of a validated command makes an access to every pixel word of its parts: it reads an input, and writes an
output (R74). -/
theorem jobOf_covers {i : Instr} {st : State} (hv : validate i st.regs = .ok) {part : Part} (hp : part ∈ parts i st.regs)
    {x y : Nat} (hx : x < part.w) (hy : y < part.h) :
    (part.out = false → addr part.desc x y ∈ (jobOf i st).reads) ∧
    (part.out = true → ∃ v, (addr part.desc x y, v) ∈ (jobOf i st).writes) := by
  by_cases hi : i = .split
  · subst hi
    rcases List.mem_cons.1 hp with rfl | hq
    · exact ⟨fun _ => mem_grid.2 ⟨x, y, hx, hy, rfl⟩, nofun⟩
    · obtain ⟨j, -, rfl⟩ := List.mem_map.1 hq
      exact ⟨nofun, fun _ => ⟨_, splitJob_writes_mem.2 ⟨j, x, y, hx, hy, rfl⟩⟩⟩
  · obtain ⟨p, hrec⟩ : ∃ p, i = .reconExact p ∨ i = .reconHeur p ∨ i = .reconInpaint p := by
      cases i with
      | split => exact absurd rfl hi
      | reconExact p | reconHeur p | reconInpaint p => exact ⟨p, by simp⟩
    rcases parts_recon_cases hrec hv hp with rfl | ⟨j, hj, rfl⟩
    · exact ⟨nofun, fun _ => recon_writes_mem hrec hx hy⟩
    · exact ⟨fun _ => recon_reads_mem hrec hj hx hy, nofun⟩

/-! ### When a run ends with BUS_ERROR -/

/-- A run fails where an access it must make answers ERR and every access answers. -/
theorem fate_eq_failed {st : State} {job : Job}
    (herr : (∃ a ∈ job.reads, st.busAnswer a .read = .err) ∨ ∃ e ∈ job.writes, st.busAnswer e.1 .write = .err)
    (hr : ∀ a ∈ job.reads, st.busAnswer a .read ≠ .never) (hw : ∀ e ∈ job.writes, ∀ k, st.busAnswer e.1 k ≠ .never) :
    st.fate job = .failed := by
  cases hf : st.fate job with
  | failed => rfl
  | done =>
    obtain ⟨hro, hwo⟩ := ok_of_fate_done hf
    rcases herr with ⟨a, ha, h⟩ | ⟨e, he, h⟩
    · cases h.symm.trans (hro a ha)
    · cases h.symm.trans (hwo e he)
  | hung =>
    rcases never_of_fate_hung hf with ⟨a, ha, h⟩ | ⟨e, he, h | h⟩
    · exact absurd h (hr a ha)
    · exact absurd h (hw e he .write)
    · exact absurd h (hw e he .read)

/-- The same in the terms of the statements: the accesses of a validated command are those to the pixel words of its
parts. -/
theorem fate_jobOf_failed {i : Instr} {st : State} (hv : validate i st.regs = .ok)
    (herr : ∃ part ∈ parts i st.regs, ∃ x y, x < part.w ∧ y < part.h ∧
      st.busAnswer (addr part.desc x y) (if part.out then .write else .read) = .err)
    (hnever : ∀ part ∈ parts i st.regs, ∀ x y k, x < part.w → y < part.h → st.busAnswer (addr part.desc x y) k ≠ .never) :
    st.fate (jobOf i st) = .failed := by
  have hfits := jobOf_fits hv
  refine fate_eq_failed ?_ (fun a ha => ?_) (fun e he k => ?_)
  · obtain ⟨part, hp, x, y, hx, hy, h⟩ := herr
    obtain ⟨hin, hout⟩ := jobOf_covers hv hp hx hy
    cases ho : part.out <;> rw [ho] at h
    · exact .inl ⟨_, hin ho, h⟩
    · obtain ⟨v, hw⟩ := hout ho
      exact .inr ⟨_, hw, h⟩
  · obtain ⟨part, hp, -, x, y, hx, hy, rfl⟩ := hfits.reads a ha
    exact hnever part hp x y .read hx hy
  · obtain ⟨part, hp, -, x, y, hx, hy, ha⟩ := hfits.writes e he
    rw [ha]
    exact hnever part hp x y k hx hy

/-! ### What the end with BUS_ERROR leaves -/

/-- The state after the end with BUS_ERROR, by the counters it leaves. -/
def State.afterBusError (st : State) (writes : List (Nat × Word)) (filled blacked : Word) : State :=
  { st with
    mem := st.memMixed writes
    phase := .idle
    work := .empty
    regs := st.regs.ended irqError .busError filled blacked }

theorem exec_failed {i : Instr} {st : State} (hr : st.Running i) (hi : ∀ p, i ≠ .reconInpaint p)
    (hf : st.fate (jobOf i st) = .failed) :
    exec i st = .next (st.afterBusError (jobOf i st).writes st.regs.fillCount st.regs.blackCount) := by
  obtain ⟨w, hp, -⟩ := hr
  rw [exec_running i hp hi, runStep, hf]
  rfl

/-- RECON.INPAINT ends so from either of its run steps. -/
theorem exec_inpaint_failed {p : BitVec 4} {st : State} (hr : st.Running (.reconInpaint p))
    (hf : st.fate (inpaintJob p st) = .failed) :
    exec (.reconInpaint p) st = .next (st.afterBusError (inpaintJob p st).writes (st.freeCount p 0) (st.freeCount p 1)) := by
  obtain ⟨w, hp, -⟩ := hr
  cases hc : st.work.canvas with
  | none => rw [exec_inpaint_scatter p hp hc, scatterStep, hf]; rfl
  | some cv => rw [exec_inpaint_fill p hp hc, fillStep, hf]; rfl

/-- A word whose write answers ERR keeps its value (R80). -/
theorem memMixed_refused {st : State} {ws : List (Nat × Word)} (hap : ws.Pairwise Apart) {e : Nat × Word} (he : e ∈ ws)
    (herr : st.busAnswer e.1 .write = .err) : (st.memMixed ws).readWord e.1 = st.mem.readWord e.1 := by
  refine readWord_writeAll_other fun f hf => ?_
  obtain ⟨g, hg, hgf, -, hok⟩ := written_mem hf
  have hne : e ≠ g := by
    rintro rfl
    exact hok (hgf ▸ herr)
  rw [← hgf]
  exact apart_of_mem hap he hg hne

/-- A counter after BUS_ERROR lies within the full count (log 4). -/
theorem freeCount_le {e : Bool} {p : BitVec 4} {st : State} (h : ReconOk e p st.regs) (n : Nat) :
    (st.freeCount p n).toNat ≤ fullCount p st.regs := by
  have hlt := fullCount_lt h
  have hmod : Config.freeCount st.work.ticket n % (fullCount p st.regs + 1) < fullCount p st.regs + 1 :=
    Nat.mod_lt _ (Nat.succ_pos _)
  rw [State.freeCount, BitVec.toNat_ofNat, Nat.mod_eq_of_lt (by omega)]
  omega

/-- Settles O42: the run fails, and memory is left mixed; only the counters tell RECON.INPAINT from the other commands. -/
theorem busErrorEndsTheCommand : Obligations.BusErrorEndsTheCommand := by
  intro st i hr hv hm hs herr hnever
  have hf := fate_jobOf_failed hv.1 herr hnever
  have hfits := jobOf_fits hv.1
  have ends : ∃ f b, exec i st = .next (st.afterBusError (jobOf i st).writes f b) ∧
      (∀ p, i = .reconInpaint p → f.toNat ≤ fullCount p st.regs ∧ b.toNat ≤ fullCount p st.regs) ∧
      ((∀ p, i ≠ .reconInpaint p) → f = st.regs.fillCount ∧ b = st.regs.blackCount) := by
    by_cases hi : ∃ p, i = .reconInpaint p
    · obtain ⟨p, rfl⟩ := hi
      have hok := validateRecon_ok.1 hv.1
      refine ⟨_, _, exec_inpaint_failed hr hf, ?_, fun h => absurd rfl (h p)⟩
      rintro _ ⟨⟩
      exact ⟨freeCount_le hok 0, freeCount_le hok 1⟩
    · rw [not_exists] at hi
      exact ⟨_, _, exec_failed hr hi hf, fun p h => absurd h (hi p), fun _ => ⟨rfl, rfl⟩⟩
  obtain ⟨f, b, hexec, hbound, hkeep⟩ := ends
  refine ⟨st.memMixed (jobOf i st).writes, f, b, hexec, fun a v h => ?_, fun a v h => ?_, fun a ha => ?_, hbound, hkeep⟩
  · exact memMixed_word (e := (a, v)) hs hm hfits.apart (mem_writes_of_final h)
  · exact memMixed_refused (e := (a, v)) hfits.apart (mem_writes_of_final h)
  · exact memMixed_other (outside_of_not_inOutput hfits ha)

end Sys2Proof.Machine
end

section
/-! The descriptor of an absent quadrant (R87, R166): validation, the memory work and the ends of RECON.HEUR and
RECON.INPAINT are the same whatever it holds. -/

namespace Sys2Proof.Machine

/-- The state with another descriptor for quadrant `j`. -/
def State.setQ (st : State) (j : Quad) (d : Desc) : State := st.setRegs (st.regs.setQ j d)

/-! ### The ends of a step -/

theorem setQ_setS (r : Regs) (s : Desc) (j : Quad) (d : Desc) : { r.setQ j d with s := s } = { r with s := s }.setQ j d := by
  fin_cases j <;> rfl

section
variable (st : State) (j : Quad) (d : Desc)

theorem endWithError_setQ (e : ErrCode) : (st.setQ j d).endWithError e = (st.endWithError e).setQ j d := by
  fin_cases j <;> rfl

theorem complete_setQ : (st.setQ j d).complete = st.complete.setQ j d := by fin_cases j <;> rfl

theorem setCounts_setQ (f b : Word) : (st.setQ j d).setCounts f b = (st.setCounts f b).setQ j d := by fin_cases j <;> rfl

theorem busError_setQ (ws : List (Nat × Word)) : (st.setQ j d).busError ws = (st.busError ws).setQ j d :=
  endWithError_setQ (st.setMem (st.memMixed ws)) j d .busError

theorem runStep_setQ (job : Job) : runStep job (st.setQ j d) = (runStep job st).setQ j d := by
  have hfate : (st.setQ j d).fate job = st.fate job := rfl
  rw [runStep, runStep, hfate]
  cases st.fate job with
  | done => exact complete_setQ (st.setMem (st.memDone job.writes)) j d
  | failed => exact busError_setQ st j d job.writes
  | hung => rfl

end

/-! ### What the commands look at -/

section
variable {p : BitVec 4} {j : Quad} (hj : present p j = false) {d : Desc}
include hj

theorem setQ_q_of_present {i : Quad} (hi : present p i = true) (r : Regs) : (r.setQ j d).q i = r.q i := by
  rw [setQ_q, if_neg]
  rintro rfl
  exact Bool.false_ne_true (hj.symm.trans hi)

theorem candidates_setQ (r : Regs) (m : Memory) (cx cy : Nat) :
    candidates p (r.setQ j d) m cx cy = candidates p r m cx cy := by
  funext i
  unfold candidates
  split
  next hi => rw [setQ_q_of_present hj hi]
  next => rfl

variable (hp : p ≠ 0)
include hp

theorem quadDims_setQ (r : Regs) : quadDims p (r.setQ j d) = quadDims p r := by
  rw [quadDims, setQ_q_of_present hj (present_lowest hp), quadDims]

theorem validateRecon_setQ (e : Bool) (r : Regs) : validateRecon e p (r.setQ j d) = validateRecon e p r := by
  have hdesc : ∀ i ∈ presentQuads p, (r.setQ j d).q i = r.q i := fun i hi =>
    setQ_q_of_present hj (mem_presentQuads.1 hi) r
  have hout : outPart p (r.setQ j d) = outPart p r := by rw [outPart, quadDims_setQ hj hp, setQ_s, outPart]
  have hins : inParts (presentQuads p) p (r.setQ j d) = inParts (presentQuads p) p r := by
    rw [inParts, quadDims_setQ hj hp]
    exact List.map_congr_left fun i hi => by rw [hdesc i hi]
  have hmis : (∃ i ∈ presentQuads p, (((r.setQ j d).q i).width.toNat, ((r.setQ j d).q i).height.toNat) ≠ quadDims p r) ↔
      ∃ i ∈ presentQuads p, ((r.q i).width.toNat, (r.q i).height.toNat) ≠ quadDims p r :=
    exists_congr fun i => and_congr_right fun hi => by rw [hdesc i hi]
  simp only [validateRecon, quadDims_setQ hj hp, hout, hins, hmis]

theorem writeBackRecon_setQ (r : Regs) : writeBackRecon p (r.setQ j d) = (writeBackRecon p r).setQ j d := by
  rw [writeBackRecon, quadDims_setQ hj hp, setQ_s, setQ_setS, writeBackRecon]

theorem inpaintReads_setQ (r : Regs) : inpaintReads p (r.setQ j d) = inpaintReads p r := by
  rw [inpaintReads, quadDims_setQ hj hp]
  exact List.flatMap_congr fun i hi => by rw [setQ_q_of_present hj (mem_presentQuads.1 hi)]

theorem heurJob_setQ (r : Regs) (m : Memory) : heurJob p (r.setQ j d) m = heurJob p r m := by
  have hwrites : (heurJob p (r.setQ j d) m).writes = (heurJob p r m).writes := by
    simp only [heurJob, quadDims_setQ hj hp, candidates_setQ hj, setQ_s]
  exact congrArg₂ Job.mk (inpaintReads_setQ hj hp r) hwrites

theorem scatter_setQ (r : Regs) (m : Memory) : scatter p (r.setQ j d) m = scatter p r m := by
  rw [scatter, quadDims_setQ hj hp]
  refine grid_congr fun x y _ _ => ?_
  split
  next hi => rw [setQ_q_of_present hj hi]
  next => rfl

theorem inpaintFill_setQ (r : Regs) (cv : Canvas) : inpaintFill p (r.setQ j d) cv = inpaintFill p r cv := by
  rw [inpaintFill, quadDims_setQ hj hp, inpaintFill]

theorem inpaintWrites_setQ (r : Regs) (cv : Canvas) : inpaintWrites p (r.setQ j d) cv = inpaintWrites p r cv := by
  rw [inpaintWrites, quadDims_setQ hj hp, inpaintFill_setQ hj hp, setQ_s, inpaintWrites]

theorem inpaintJob_setQ (st : State) : inpaintJob p (st.setQ j d) = inpaintJob p st := by
  have hcanvas : (st.setQ j d).canvas p = st.canvas p := congrArg st.work.canvas.getD (scatter_setQ hj hp st.regs st.mem)
  rw [inpaintJob, hcanvas]
  exact congrArg₂ Job.mk (inpaintReads_setQ hj hp st.regs) (inpaintWrites_setQ hj hp st.regs (st.canvas p))

/-! ### The steps -/

theorem validateStep_setQ {i : Instr} (hi : i = .reconHeur p ∨ i = .reconInpaint p) (w : Word) (st : State) :
    validateStep i w (st.setQ j d) = (validateStep i w st).setQ j d := by
  have hval : validate i (st.setQ j d).regs = validate i st.regs := by
    rcases hi with rfl | rfl <;> exact validateRecon_setQ hj hp false st.regs
  have hwb : writeBack i (st.setQ j d).regs = (writeBack i st.regs).setQ j d := by
    rcases hi with rfl | rfl <;> exact writeBackRecon_setQ hj hp st.regs
  by_cases hv : validate i st.regs = .ok
  · rw [validateStep_ok w hv, validateStep_ok w (hval.trans hv), hwb]
    rfl
  · rw [validateStep_error w hv, validateStep_error w (hval ▸ hv), hval]
    exact endWithError_setQ st j d _

theorem inpaintBusError_setQ (st : State) : (st.setQ j d).inpaintBusError p = (st.inpaintBusError p).setQ j d := by
  have hcount : ∀ n, (st.setQ j d).freeCount p n = st.freeCount p n := fun n => by
    have hfull : fullCount p (st.setQ j d).regs = fullCount p st.regs := by
      rw [fullCount, fullCount, State.setQ, setRegs_regs, quadDims_setQ hj hp]
    rw [State.freeCount, hfull]
    rfl
  rw [State.inpaintBusError, inpaintJob_setQ hj hp, hcount, hcount, busError_setQ, setCounts_setQ]
  rfl

theorem scatterStep_setQ (st : State) : scatterStep p (st.setQ j d) = (scatterStep p st).setQ j d := by
  have hfate : (st.setQ j d).fate (inpaintJob p st) = st.fate (inpaintJob p st) := rfl
  rw [scatterStep, scatterStep, inpaintJob_setQ hj hp, hfate]
  cases st.fate (inpaintJob p st) with
  | done =>
    have hscatter : scatter p (st.setQ j d).regs (st.setQ j d).mem = scatter p st.regs st.mem :=
      scatter_setQ hj hp st.regs st.mem
    simp only [hscatter]
    rfl
  | failed => exact inpaintBusError_setQ hj hp st
  | hung => rfl

theorem fillStep_setQ (cv : Canvas) (st : State) : fillStep p cv (st.setQ j d) = (fillStep p cv st).setQ j d := by
  have hfate : (st.setQ j d).fate (inpaintJob p st) = st.fate (inpaintJob p st) := rfl
  rw [fillStep, fillStep, inpaintJob_setQ hj hp, hfate]
  cases st.fate (inpaintJob p st) with
  | done =>
    have hfill : inpaintFill p (st.setQ j d).regs cv = inpaintFill p st.regs cv := inpaintFill_setQ hj hp st.regs cv
    have hwrites : inpaintWrites p (st.setQ j d).regs cv = inpaintWrites p st.regs cv := inpaintWrites_setQ hj hp st.regs cv
    simp only [hfill, hwrites]
    rw [← setCounts_setQ, ← complete_setQ]
    rfl
  | failed => exact inpaintBusError_setQ hj hp st
  | hung => rfl

end

/-- Settles O47, by the phase and the end of the step: each commutes with another descriptor of the absent quadrant. -/
theorem absentDescriptorsDoNotMatter : Obligations.AbsentDescriptorsDoNotMatter := by
  intro p i st t j d hi hp hj ht
  change exec i (st.setQ j d) = .next (t.setQ j d)
  cases hph : st.phase with
  | idle =>
    cases (exec_idle i hph).symm.trans ht
    exact exec_idle i (by exact hph)
  | pending w =>
    cases (exec_pending i hph).symm.trans ht
    rw [exec_pending i (st := st.setQ j d) (by exact hph), validateStep_setQ hj hp hi]
  | running w =>
    rcases hi with rfl | rfl
    · have hjob : jobOf (.reconHeur p) (st.setQ j d) = jobOf (.reconHeur p) st := heurJob_setQ hj hp st.regs st.mem
      cases (exec_running (.reconHeur p) hph nofun).symm.trans ht
      rw [exec_running (.reconHeur p) (st := st.setQ j d) (by exact hph) nofun, hjob, runStep_setQ]
    · cases hc : st.work.canvas with
      | none =>
        cases (exec_inpaint_scatter p hph hc).symm.trans ht
        rw [exec_inpaint_scatter p (st := st.setQ j d) (by exact hph) (by exact hc), scatterStep_setQ hj hp]
      | some cv =>
        cases (exec_inpaint_fill p hph hc).symm.trans ht
        rw [exec_inpaint_fill p (st := st.setQ j d) (by exact hph) (by exact hc), fillStep_setQ hj hp]

end Sys2Proof.Machine
end

section
/-! Reset, from either source (R190 to R194): the state it leaves, and what memory holds after a reset in RUNNING. -/

namespace Sys2Proof.Machine

/-- Unless a command is running, a reset leaves memory alone (R193). -/
theorem memAfterReset_of_not_running {st : State} (h : ∀ w, st.phase ≠ .running w) : st.memAfterReset = st.mem := by
  unfold State.memAfterReset
  cases hp : st.phase with
  | idle | pending w => rfl
  | running w => exact absurd hp (h w)

/-- A reset in RUNNING cuts the memory work of the command short (R192). -/
theorem memAfterReset_of_running {st : State} {i : Instr} (h : st.Running i) :
    st.memAfterReset = st.memMixed (jobOf i st).writes := by
  obtain ⟨w, hp, hd⟩ := h
  unfold State.memAfterReset
  rw [hp]
  simp only [hd]

/-- The step of either reset source (R190), whole. -/
theorem step_of_reset {st : State} {rest : List Event} {a : Option PortAnswer}
    (h : (st.inputs = .rst :: rest ∧ a = st.answer) ∨
      (∃ v, v.getLsbD 0 = true ∧ st.inputs = .sw 0x004 4 v :: rest ∧ a = some .writeOk)) :
    step st = .next { st with
      inputs := rest, answer := a, regs := .reset, phase := .idle, work := .empty, mem := st.memAfterReset } := by
  rcases h with ⟨hin, rfl⟩ | ⟨v, hv, hin, rfl⟩
  · exact step_rst hin
  · rw [step_sw_mapped (by decide) hin rfl, writeReg_ctrl_reset _ hv]
    rfl

/-- Settles O17: both sources are the one reset step, and memory changes only by a command cut short. -/
theorem resetStep : Obligations.ResetStep :=
  fun st _ _ h => ⟨st.memAfterReset, step_of_reset h, memAfterReset_of_not_running, rfl, rfl, rfl⟩

/-- Settles O18: the run is cut short, and memory is left mixed. -/
theorem resetDuringRunMixes : Obligations.ResetDuringRunMixes := by
  intro st t i hr hv hm hs hin ht
  have reset : t.mem = st.memAfterReset ∧ t.regs = .reset := by
    rcases hin with ⟨rest, hin⟩ | ⟨v, rest, hin, hv0⟩
    · cases (step_of_reset (.inl ⟨hin, rfl⟩)).symm.trans ht
      exact ⟨rfl, rfl⟩
    · cases (step_of_reset (.inr ⟨v, hv0, hin, rfl⟩)).symm.trans ht
      exact ⟨rfl, rfl⟩
  obtain ⟨hmem, hregs⟩ := reset
  have hfits := jobOf_fits hv.1
  rw [hmem, hregs, memAfterReset_of_running hr]
  exact ⟨fun a v h => memMixed_word (e := (a, v)) hs hm hfits.apart (mem_writes_of_final h),
    fun a ha => memMixed_other (outside_of_not_inOutput hfits ha), rfl⟩

end Sys2Proof.Machine
end

section
/-! The end of a command (R174, R205): a run whose accesses all answer ends, one with an access that never answers hangs. -/

namespace Sys2Proof.Machine

/-! ### Runs that do not hang -/

/-- Every access of the memory port answers, with OK or with ERR. -/
def State.Answers (st : State) : Prop := ∀ a k, st.busAnswer a k ≠ .never

theorem fate_ne_hung {st : State} (h : st.Answers) (job : Job) : st.fate job ≠ .hung := by
  intro hf
  rcases never_of_fate_hung hf with ⟨a, -, hn⟩ | ⟨e, -, hn | hn⟩
  · exact h a .read hn
  · exact h e.1 .write hn
  · exact h e.1 .read hn

theorem runStep_phase {st : State} (h : st.Answers) (job : Job) : (runStep job st).phase = .idle := by
  rcases runStep_cases job st with ⟨-, ht⟩ | ⟨-, ht⟩ | ⟨hf, -⟩
  · rw [ht, complete_phase]
  · rw [ht, endWithError_phase]
  · exact absurd hf (fate_ne_hung h job)

theorem fillStep_phase {st : State} (h : st.Answers) (p : BitVec 4) (cv : Canvas) : (fillStep p cv st).phase = .idle := by
  rcases fillStep_cases p cv st with ⟨-, ht⟩ | ⟨-, ht⟩ | ⟨hf, -⟩
  · rw [ht, setCounts_phase, complete_phase]
  · rw [ht]; rfl
  · exact absurd hf (fate_ne_hung h _)

/-! ### How many engine steps a command takes (log 7) -/

/-- With the engine having every turn, the machine is in IDLE after at most `n` steps. -/
def State.EndsWithin (st : State) (n : Nat) : Prop := ∃ k ≤ n, ∃ t, core.run k st = .next t ∧ t.phase = .idle

theorem endsWithin_of_idle {st : State} (h : st.phase = .idle) (n : Nat) : st.EndsWithin n :=
  ⟨0, Nat.zero_le n, st, rfl, h⟩

theorem endsWithin_mono {st : State} {n m : Nat} (h : st.EndsWithin n) (hnm : n ≤ m) : st.EndsWithin m := by
  obtain ⟨k, hk, hrun⟩ := h
  exact ⟨k, hk.trans hnm, hrun⟩

theorem core_run_succ {st t : State} (h : step st = .next t) (n : Nat) : core.run (n + 1) st = core.run n t := by
  have hstep : core.step st = .next t := h
  simp only [Host.Core.run, hstep]

theorem endsWithin_of_engineStep {st t : State} {n : Nat} (hin : st.inputs = []) (h : engineStep st = .next t)
    (ht : t.EndsWithin n) : st.EndsWithin (n + 1) := by
  obtain ⟨k, hk, u, hrun, hu⟩ := ht
  exact ⟨k + 1, Nat.succ_le_succ hk, u, by rw [core_run_succ ((step_nil hin).trans h), hrun], hu⟩

section
variable {st : State} (hin : st.inputs = []) (ha : st.Answers)
include hin ha

/-- The second run step of RECON.INPAINT ends the command. -/
theorem endsWithin_of_fill {p : BitVec 4} {cv : Canvas} (hr : st.Running (.reconInpaint p))
    (hc : st.work.canvas = some cv) : st.EndsWithin 1 := by
  obtain ⟨w, hp, hd⟩ := hr
  have hstep : engineStep st = .next (fillStep p cv st) := by
    rw [engineStep_legal (by rw [hp]; rfl) hd, exec_inpaint_fill p hp hc]
  exact endsWithin_of_engineStep hin hstep (endsWithin_of_idle (fillStep_phase ha p cv) 0)

/-- The first run step of RECON.INPAINT ends the command, or hands over to the second. -/
theorem scatterStep_endsWithin {p : BitVec 4} (hr : st.Running (.reconInpaint p)) : (scatterStep p st).EndsWithin 1 := by
  rcases scatterStep_cases p st with ⟨-, ht⟩ | ⟨-, ht⟩ | ⟨hf, -⟩
  · rw [ht]
    exact endsWithin_of_fill (by exact hin) (by exact ha) (by exact hr) rfl
  · rw [ht]
    exact endsWithin_of_idle rfl 1
  · exact absurd hf (fate_ne_hung ha _)

/-- SPLIT, RECON.EXACT and RECON.HEUR take one run step, RECON.INPAINT two. -/
theorem endsWithin_of_running {i : Instr} (hr : st.Running i) : st.EndsWithin 2 := by
  have ⟨w, hp, hd⟩ := hr
  have hexec : engineStep st = exec i st := engineStep_legal (by rw [hp]; rfl) hd
  by_cases hi : ∃ p, i = .reconInpaint p
  · obtain ⟨p, rfl⟩ := hi
    cases hc : st.work.canvas with
    | none =>
      rw [exec_inpaint_scatter p hp hc] at hexec
      exact endsWithin_of_engineStep hin hexec (scatterStep_endsWithin hin ha hr)
    | some cv => exact endsWithin_mono (endsWithin_of_fill hin ha hr hc) (by decide)
  · rw [not_exists] at hi
    rw [exec_running i hp hi] at hexec
    exact endsWithin_of_engineStep hin hexec (endsWithin_of_idle (runStep_phase ha _) 1)

theorem validateStep_endsWithin {i : Instr} {w : Word} (hd : decode w = .ok i) : (validateStep i w st).EndsWithin 2 := by
  by_cases hv : validate i st.regs = .ok
  · rw [validateStep_ok w hv]
    exact endsWithin_of_running (by exact hin) (by exact ha) ⟨w, rfl, hd⟩
  · rw [validateStep_error w hv]
    exact endsWithin_of_idle (endWithError_phase ..) 2

theorem endsWithin_of_pending {w : Word} (hp : st.phase = .pending w) : st.EndsWithin 3 := by
  cases hd : decode w with
  | error k =>
    exact endsWithin_of_engineStep hin (engineStep_illegal hp hd) (endsWithin_of_idle (endWithError_phase ..) 2)
  | ok i =>
    have hstep : engineStep st = .next (validateStep i w st) := by
      rw [engineStep_legal (by rw [hp]; rfl) hd, exec_pending i hp]
    exact endsWithin_of_engineStep hin hstep (validateStep_endsWithin hin ha hd)

/-- A state of the invariant is in RUNNING only with the word of a command, so each phase has its bound. -/
theorem endsWithin_of_inv (hinv : st.Inv) : st.EndsWithin 3 := by
  cases hp : st.phase with
  | idle => exact endsWithin_of_idle hp 3
  | pending w => exact endsWithin_of_pending hin ha hp
  | running w =>
    obtain ⟨i, hd, -⟩ := hinv.validated w hp
    exact endsWithin_mono (endsWithin_of_running hin ha ⟨w, hp, hd⟩) (by decide)

end

/-! ### Runs that hang -/

/-- A run hangs where an access it must make never answers and no access errs. -/
theorem fate_eq_hung {st : State} {job : Job}
    (hnever : (∃ a ∈ job.reads, st.busAnswer a .read = .never) ∨ ∃ e ∈ job.writes, st.busAnswer e.1 .write = .never)
    (hr : ∀ a ∈ job.reads, st.busAnswer a .read ≠ .err) (hw : ∀ e ∈ job.writes, ∀ k, st.busAnswer e.1 k ≠ .err) :
    st.fate job = .hung := by
  cases hf : st.fate job with
  | hung => rfl
  | done =>
    obtain ⟨hro, hwo⟩ := ok_of_fate_done hf
    rcases hnever with ⟨a, ha, h⟩ | ⟨e, he, h⟩
    · cases h.symm.trans (hro a ha)
    · cases h.symm.trans (hwo e he)
  | failed =>
    rcases err_of_fate_failed hf with ⟨a, ha, h⟩ | ⟨e, he, h | h⟩
    · exact absurd h (hr a ha)
    · exact absurd h (hw e he .write)
    · exact absurd h (hw e he .read)

/-- A pixel word that answers so is an access of the memory work: a read of an input, a write of an output. -/
theorem access_of_pixel {i : Instr} {st : State} {b : BusAnswer} (hv : validate i st.regs = .ok)
    (h : ∃ part ∈ parts i st.regs, ∃ x y, x < part.w ∧ y < part.h ∧
      st.busAnswer (addr part.desc x y) (if part.out then .write else .read) = b) :
    (∃ a ∈ (jobOf i st).reads, st.busAnswer a .read = b) ∨ ∃ e ∈ (jobOf i st).writes, st.busAnswer e.1 .write = b := by
  obtain ⟨part, hp, x, y, hx, hy, hb⟩ := h
  obtain ⟨hin, hout⟩ := jobOf_covers hv hp hx hy
  cases ho : part.out <;> rw [ho] at hb
  · exact .inl ⟨_, hin ho, hb⟩
  · obtain ⟨v, hw⟩ := hout ho
    exact .inr ⟨_, hw, hb⟩

/-- The run of a validated command hangs where a pixel word it must access never answers and none errs. -/
theorem fate_jobOf_hung {i : Instr} {st : State} (hv : validate i st.regs = .ok)
    (hnever : ∃ part ∈ parts i st.regs, ∃ x y, x < part.w ∧ y < part.h ∧
      st.busAnswer (addr part.desc x y) (if part.out then .write else .read) = .never)
    (herr : ∀ part ∈ parts i st.regs, ∀ x y k, x < part.w → y < part.h → st.busAnswer (addr part.desc x y) k ≠ .err) :
    st.fate (jobOf i st) = .hung := by
  have hfits := jobOf_fits hv
  refine fate_eq_hung (access_of_pixel hv hnever) (fun a ha => ?_) (fun e he k => ?_)
  · obtain ⟨part, hp, -, x, y, hx, hy, rfl⟩ := hfits.reads a ha
    exact herr part hp x y .read hx hy
  · obtain ⟨part, hp, -, x, y, hx, hy, ha⟩ := hfits.writes e he
    rw [ha]
    exact herr part hp x y k hx hy

/-- A run that hangs changes nothing (R205). -/
theorem exec_hung {i : Instr} {st : State} (hr : st.Running i) (hf : st.fate (jobOf i st) = .hung) :
    exec i st = .next st := by
  obtain ⟨w, hp, -⟩ := hr
  by_cases hi : ∃ p, i = .reconInpaint p
  · obtain ⟨p, rfl⟩ := hi
    have hf' : st.fate (inpaintJob p st) = .hung := hf
    cases hc : st.work.canvas with
    | none => rw [exec_inpaint_scatter p hp hc, scatterStep, hf']
    | some cv => rw [exec_inpaint_fill p hp hc, fillStep, hf']
  · rw [not_exists] at hi
    rw [exec_running i hp hi, runStep, hf]

/-- Settles O43: validation, then one run step or two; and a run that hangs stays where it is. -/
theorem commandsEnd : Obligations.CommandsEnd :=
  ⟨fun _ hinv hin ha => endsWithin_of_inv hin ha hinv,
    fun _ _ hr hv hnever herr => exec_hung hr (fate_jobOf_hung hv.1 hnever herr)⟩

end Sys2Proof.Machine
end

section
/-! A write to a register and the read after it (R197): the value that the register then reads. -/

namespace Sys2Proof.Machine

/-- No register write touches the script. -/
theorem writeReg_inputs (st : State) (n : RegName) (v : Word) : (st.writeReg n v).inputs = st.inputs := by
  rcases writeReg_effect st n v with ht | ⟨-, -, ht⟩ | ⟨-, -, ht⟩ | ⟨-, -, ht⟩ | ⟨-, ht⟩ | ⟨-, ht⟩ | ⟨d, f, -, -, ht⟩ <;>
    rw [ht] <;> rfl

/-! ### What a register reads after a write to it -/

theorem readReg_writeReg_cmd (st : State) (v : Word) :
    (st.writeReg .cmd v).readReg .cmd = if st.phase = .idle then v else st.regs.cmd := by
  by_cases hi : st.phase = .idle
  · rw [if_pos hi, writeReg_cmd_idle hi]
    rfl
  · rw [if_neg hi, writeReg_guarded_busy hi (.inl rfl)]
    rfl

theorem readReg_writeReg_desc (st : State) (d : DescName) (f : DescField) (v : Word) :
    (st.writeReg (.desc d f) v).readReg (.desc d f) =
      if st.phase = .idle then (match f with | .base | .stride => v | .width | .height => v &&& 0x0000FFFF)
      else st.readReg (.desc d f) := by
  by_cases hi : st.phase = .idle
  · rw [if_pos hi, writeReg_desc_idle hi]
    have hread := get_set_same (st.regs.desc d) f v
    simp only [State.readReg, setRegs_regs, desc_setDesc_same]
    exact hread
  · rw [if_neg hi, writeReg_guarded_busy hi (.inr ⟨d, f, rfl⟩)]
    cases d with
    | s => rfl
    | q i => fin_cases i <;> rfl

/-- Event bits are cleared by writing 1 (R31). -/
theorem readReg_writeReg_irqStatus (st : State) (v : Word) :
    (st.writeReg .irqStatus v).readReg .irqStatus = st.regs.irqStatus.zeroExtend 32 &&& ~~~v := by
  apply BitVec.eq_of_getLsbD_eq
  intro k hk
  by_cases h3 : k < 3
  · simp [State.writeReg, State.readReg, hk, h3]
  · simp [State.writeReg, State.readReg, hk, BitVec.getLsbD_of_ge _ k (Nat.le_of_not_lt h3)]

theorem readReg_writeReg_irqEnable (st : State) (v : Word) :
    (st.writeReg .irqEnable v).readReg .irqEnable = v &&& 0x00000007 :=
  zeroExtend_extractLsb' v (by decide)

/-! ### The two steps -/

/-- A write and then a read of a register answer what the register reads after the write. -/
theorem step_sw_lw_mapped {st : State} {off : BitVec 8} {v : Word} {rest : List Event} {n : RegName}
    (h4 : off.toNat % 4 = 0) (hin : st.inputs = .sw off 4 v :: .lw off 4 :: rest) (hn : regAt off = some n) :
    ∃ t s, step st = .next t ∧ step t = .next s ∧
      s.answer = some (.readOk (((st.setInputs (.lw off 4 :: rest)).writeReg n v).readReg n)) ∧ s.inputs = rest := by
  refine ⟨_, _, step_sw_mapped h4 hin hn, step_lw (by rw [setAnswer_inputs, writeReg_inputs]; rfl), ?_⟩
  rw [portRead_mapped h4 hn]
  exact ⟨rfl, rfl⟩

theorem step_sw_lw_unmapped {st : State} {off : BitVec 8} {v : Word} {rest : List Event} (h4 : off.toNat % 4 = 0)
    (hin : st.inputs = .sw off 4 v :: .lw off 4 :: rest) (hn : regAt off = none) :
    ∃ t s, step st = .next t ∧ step t = .next s ∧ s.answer = some (.readOk 0) ∧ s.inputs = rest := by
  refine ⟨_, _, step_sw_unmapped h4 hin hn, step_lw rfl, ?_⟩
  rw [portRead_unmapped h4 hn]
  exact ⟨rfl, rfl⟩

/-- Settles O52, register by register; at an unmapped offset the write is ignored and the read answers 0. -/
theorem nextReadReturnsTheNewValue : Obligations.NextReadReturnsTheNewValue := by
  intro st off v rest h4 hin
  cases hn : regAt off with
  | none =>
    obtain ⟨t, s, ht, hs, ha, hi⟩ := step_sw_lw_unmapped h4 hin hn
    refine ⟨t, s, 0, ht, hs, ha, hi, ?_, ?_, ?_, ?_, ?_, ?_, ?_, ?_, ?desc, fun _ => rfl⟩
    case desc => exact fun d f hdf => nomatch hdf
    all_goals
      rintro rfl
      cases hn
  | some n =>
    obtain ⟨t, s, ht, hs, ha, hi⟩ := step_sw_lw_mapped h4 hin hn
    refine ⟨t, s, _, ht, hs, ha, hi, ?_, ?_, ?_, ?_, ?_, ?_, ?_, ?_, ?desc, fun h => ?unmapped⟩
    case desc =>
      rintro d f ⟨⟩
      exact readReg_writeReg_desc _ d f v
    case unmapped => cases hn.symm.trans (regAt_eq_none.2 h)
    all_goals
      rintro rfl
      cases hn
    · rfl
    · rfl
    · exact readReg_writeReg_cmd _ v
    · rfl
    · exact readReg_writeReg_irqStatus _ v
    · exact readReg_writeReg_irqEnable _ v
    · rfl
    · rfl

end Sys2Proof.Machine
end
